-- ==== Sys2Proof/Word.lean ====
section
/-! DEFINITION. The widths the engine works in, and the Pixel (R8 to R11). Only the plainest arithmetic stands here. -/

namespace Sys2Proof

/-- A sample, a stream byte, an 8-bit register field (R7 `SAMPLE_BITS`, R69). -/
abbrev Byte := BitVec 8

/-- A 32-bit register: WIDTH, HEIGHT, PIX_POS, STATUS, CTRL (R30). -/
abbrev Word32 := BitVec 32

/-- An `ADDR_W` = 64-bit offset or length register (R7, R60). -/
abbrev Addr := BitVec 64

/-- R10: a 4-tuple of 8-bit unsigned samples. Two pixels are equal exactly when all four samples are. -/
structure Pixel where
  r : Byte
  g : Byte
  b : Byte
  a : Byte
deriving DecidableEq, Repr

/-- R10: `PX_ZERO = (0,0,0,0)`, what START puts in every cache slot. -/
def Pixel.zero : Pixel := ⟨0, 0, 0, 0⟩

/-- R10: `PX_START = (0,0,0,255)`, the previous pixel before the first one. -/
def Pixel.start : Pixel := ⟨0, 0, 0, 255⟩

end Sys2Proof
end

