-- ==== Sys2Proof/Syntax.lean ====
section
/-! DEFINITION. The eight rows of spec/opcode_table.json: the six chunk forms and the two framing records (R80 to R94). -/

namespace Sys2Proof

/-- One constructor per row of the opcode table. A chunk's fields are the unsigned bit fields of its layout, bias
included (R89). -/
inductive Instr where
  /-- R82: cache slot number. -/
  | opIndex (idx : BitVec 6)
  /-- R83: ΔR + 2, ΔG + 2, ΔB + 2. -/
  | opDiff (dr2 dg2 db2 : BitVec 2)
  /-- R84: ΔG + 32, (ΔR - ΔG) + 8, (ΔB - ΔG) + 8. -/
  | opLuma (dg32 : BitVec 6) (drg8 dbg8 : BitVec 4)
  /-- R85: run length - 1, legal 0 to 61. -/
  | opRun (len1 : BitVec 6)
  /-- R86. -/
  | opRgb (r g b : Byte)
  /-- R87. -/
  | opRgba (r g b a : Byte)
  /-- R93: the 14-byte header record. -/
  | header (w h : Word32) (c cs : Byte)
  /-- R94: the 8-byte end marker. -/
  | endMarker
deriving DecidableEq, Repr

/-- Where in a stream a record stands (R80: `HEADER ++ CHUNK* ++ END`). The same byte is read differently in each. -/
inductive Slot where
  | header
  | chunk
  | trailer
deriving DecidableEq, Repr

/-- The slot an instruction stands in (R80). -/
def Instr.slot : Instr → Slot
  | .opIndex _ => .chunk
  | .opDiff _ _ _ => .chunk
  | .opLuma _ _ _ => .chunk
  | .opRun _ => .chunk
  | .opRgb _ _ _ => .chunk
  | .opRgba _ _ _ _ => .chunk
  | .header _ _ _ _ => .header
  | .endMarker => .trailer

end Sys2Proof
end

