-- ==== Sys2Proof/Decode.lean ====
section
/-! DEFINITION. From bytes to instructions and back (R80 to R97). Decoding is total: it answers an instruction with the
bytes after it, or a rejection by name. -/

namespace Sys2Proof

/-- Why bytes are no record of their slot. -/
inductive Reject where
  /-- Fewer bytes than the record has (R68). -/
  | truncated
  /-- Header bytes 0 to 3 are not "qoif" (R93). -/
  | badMagic
  /-- The 8 bytes are not the end marker (R94). -/
  | badMarker
deriving DecidableEq, Repr

/-- R81: the chunk's length, from its first byte alone. `0xFE` and `0xFF` are compared before bits 7:6 (R88). -/
def chunkLen (b0 : Byte) : Nat :=
  if b0 = 0xFE then 4
  else if b0 = 0xFF then 5
  else if b0.extractLsb' 6 2 = 0b00 then 1
  else if b0.extractLsb' 6 2 = 0b01 then 1
  else if b0.extractLsb' 6 2 = 0b10 then 2
  else 1

/-- R86: what follows the tag byte of OP_RGB. -/
def decodeRgb : List Byte → Except Reject (Instr × List Byte)
  | r :: g :: b :: rest => .ok (.opRgb r g b, rest)
  | _ => .error .truncated

/-- R87: what follows the tag byte of OP_RGBA. -/
def decodeRgba : List Byte → Except Reject (Instr × List Byte)
  | r :: g :: b :: a :: rest => .ok (.opRgba r g b a, rest)
  | _ => .error .truncated

/-- R84: byte 0 of OP_LUMA and what follows it. -/
def decodeLuma (b0 : Byte) : List Byte → Except Reject (Instr × List Byte)
  | b1 :: rest => .ok (.opLuma (b0.extractLsb' 0 6) (b1.extractLsb' 4 4) (b1.extractLsb' 0 4), rest)
  | [] => .error .truncated

/-- R156, R90: the chunk form of the first byte, its fields by R82 to R87, and the bytes after it. -/
def decodeForm (b0 : Byte) (rest : List Byte) : Except Reject (Instr × List Byte) :=
  if b0 = 0xFE then decodeRgb rest
  else if b0 = 0xFF then decodeRgba rest
  else if b0.extractLsb' 6 2 = 0b00 then .ok (.opIndex (b0.extractLsb' 0 6), rest)
  else if b0.extractLsb' 6 2 = 0b01 then
    .ok (.opDiff (b0.extractLsb' 4 2) (b0.extractLsb' 2 2) (b0.extractLsb' 0 2), rest)
  else if b0.extractLsb' 6 2 = 0b10 then decodeLuma b0 rest
  else .ok (.opRun (b0.extractLsb' 0 6), rest)

/-- A chunk record (R156). -/
def decodeChunk : List Byte → Except Reject (Instr × List Byte)
  | [] => .error .truncated
  | b0 :: rest => decodeForm b0 rest

/-- R65: a big-endian 32-bit field, the byte at the lowest offset being bits 31:24. -/
def be32 (b0 b1 b2 b3 : Byte) : Word32 := b0 ++ b1 ++ b2 ++ b3

/-- R93: the four bytes of a big-endian field, lowest offset first. -/
def bytesBe32 (v : Word32) : List Byte :=
  [v.extractLsb' 24 8, v.extractLsb' 16 8, v.extractLsb' 8 8, v.extractLsb' 0 8]

/-- R93: "qoif". -/
def magic : List Byte := [0x71, 0x6F, 0x69, 0x66]

/-- R94: the end marker's bytes. -/
def endBytes : List Byte := [0x00, 0x00, 0x00, 0x00, 0x00, 0x00, 0x00, 0x01]

/-- R93, R113: the header record. Only the magic is part of the match (the table's match note); the other fields take
every value here and are checked when the header is executed. -/
def decodeHeader : List Byte → Except Reject (Instr × List Byte)
  | m0 :: m1 :: m2 :: m3 :: w0 :: w1 :: w2 :: w3 :: h0 :: h1 :: h2 :: h3 :: c :: cs :: rest =>
    if [m0, m1, m2, m3] = magic then
      .ok (.header (be32 w0 w1 w2 w3) (be32 h0 h1 h2 h3) c cs, rest)
    else .error .badMagic
  | _ => .error .truncated

/-- R94: the end marker record. -/
def decodeEnd (bs : List Byte) : Except Reject (Instr × List Byte) :=
  if bs.length < 8 then .error .truncated
  else if bs.take 8 = endBytes then .ok (.endMarker, bs.drop 8)
  else .error .badMarker

/-- The record of a slot (R80). -/
def decode : Slot → List Byte → Except Reject (Instr × List Byte)
  | .header, bs => decodeHeader bs
  | .chunk, bs => decodeChunk bs
  | .trailer, bs => decodeEnd bs

/-- The bytes of an instruction, byte 0 first (R82 to R87, R93 to R95). -/
def encode : Instr → List Byte
  | .opIndex idx => [0b00#2 ++ idx]
  | .opDiff dr2 dg2 db2 => [0b01#2 ++ dr2 ++ dg2 ++ db2]
  | .opLuma dg32 drg8 dbg8 => [0b10#2 ++ dg32, drg8 ++ dbg8]
  | .opRun len1 => [0b11#2 ++ len1]
  | .opRgb r g b => [0xFE, r, g, b]
  | .opRgba r g b a => [0xFF, r, g, b, a]
  | .header w h c cs => magic ++ bytesBe32 w ++ bytesBe32 h ++ [c, cs]
  | .endMarker => endBytes

/-- The bytes at the low end of a number, the least significant first. -/
def bytesLe (w : Nat) : Nat → List Byte
  | 0 => []
  | n + 1 => BitVec.ofNat 8 w :: bytesLe (w / 256) n

/-- How many bytes of zeros and instruction the loader lays down: the longest record (R93). -/
def longestRecord : Nat := 14

/-- A table word of at least 32 bits whose first four bytes are the magic, numbered either way (log entry 6). No chunk row
has such a word: a chunk of 32 bits or more begins with `0xFE` or `0xFF`. -/
def isMagicWord (nbits w : Nat) : Bool :=
  decide (32 ≤ nbits) && (w % 4294967296 == 0x716F6966 || w % 4294967296 == 0x66696F71)

/-- The slot of a row of the opcode table, told by the length the table gives it. -/
def tableSlot (nbits w : Nat) : Slot :=
  if nbits = 112 ∨ isMagicWord nbits w = true then .header else if nbits = 64 then .trailer else .chunk

/-- The bytes of a table word in stream order (log entry 6). The table numbers the chunk rows byte by byte. It gives the
header's magic as the one number `0x716F6966` and the end marker as the one number `1`, each of which is that record's
byte string read with its first byte most significant; a word numbered so is laid out so, and every other word is laid
out byte by byte. -/
def tableBytes (nbits w : Nat) : List Byte :=
  if 32 ≤ nbits ∧ w % 4294967296 = 0x716F6966 then magic ++ bytesLe (w % 2 ^ nbits / 4294967296) 10
  else if nbits = 64 ∧ w = 1 then endBytes ++ bytesLe 0 6
  else bytesLe (w % 2 ^ nbits) longestRecord

/-- The instruction the decoder reads from a word of the opcode table. -/
def decodeTableWord (nbits w : Nat) : Option Instr :=
  match decode (tableSlot nbits w) (tableBytes nbits w) with
  | .ok (i, _) => some i
  | .error _ => none

end Sys2Proof
end

