-- ==== Sys2Proof/Config.lean ====
section
/-! DEFINITION. What is fixed for one engine: the constants of R7, the open parameter `MAX_PIXELS`, and the free
values the spec leaves at "any value". `BUS_BINDING` (P1) is read by no rule and has no place here (log entry 12). -/

namespace Sys2Proof.Config

/-- R7 `RUN_MAX`: the run counter is flushed at 62. -/
def runMax : Nat := 62

/-- R7 `HEADER_LEN`. -/
def headerLen : Nat := 14

/-- R7 `END_LEN`. -/
def endLen : Nat := 8

/-- A free value: what a byte of OUT is after the error or the reset numbered `draw` (U1, U2; R78, R241).
It has no body, so nothing can be proved of it (log entry 3). -/
opaque anyByte : (draw : Nat) → (offset : Nat) → Byte

/-- A free value: what CSR number `reg` reads, or holds, where the spec says "any value" (U3, U4; R33, R46), at the
event numbered `draw` (log entry 4). -/
opaque anyCsr : (draw : Nat) → (reg : Nat) → BitVec 64

/-- The open parameters that a rule reads. `maxPixels` is `MAX_PIXELS` (R7, R114, P2). It is plain data carried in State,
which no step changes, so that a statement about every state is a statement about every legal parameter (log entry 5). -/
structure Params where
  maxPixels : Nat
deriving DecidableEq, Repr

/-- D5: 1 ≤ `MAX_PIXELS` ≤ 2^32 - 1. -/
abbrev Params.legal (p : Params) : Prop := 1 ≤ p.maxPixels ∧ p.maxPixels ≤ 4294967295

/-- D5: the default, 2^32 - 1. -/
def Params.default : Params := ⟨4294967295⟩

end Sys2Proof.Config
end

