-- ==== Sys2Proof/Machine/State.lean ====
section
/-! DEFINITION. Everything the spec gives the machine, as plain data (R20 to R46, R60), its reset (R45, R240), and the
reasons a step can stop. -/

namespace Sys2Proof.Machine

open Sys2Proof.Config (Params)

/-- R28: the engine's control state. -/
inductive Phase where
  | idle
  | encHeader
  | encPixels
  | encTrailer
  | decHeader
  | decChunks
  | done
  | error
deriving DecidableEq, Repr

/-- R31: CTRL.MODE, as the job keeps it. -/
inductive Mode where
  | enc
  | dec
deriving DecidableEq, Repr

/-- R210: the error codes 1 to 11. Code 0 is the absence of an error. -/
inductive ErrCode where
  | badMagic
  | badChannels
  | badColorspace
  | dimZero
  | dimOverflow
  | encLenMismatch
  | decTruncHeader
  | decTruncStream
  | decTruncChunk
  /-- R220: reserved; no step raises it. -/
  | decBadTag
  | outOverflow
deriving DecidableEq, Repr

/-- R29: the pass parameters, copied from the CSRs at START, or from the header in a decode pass. `n` is the exact
product, so it is a natural number. -/
structure Job where
  mode   : Mode
  w      : Word32
  h      : Word32
  c      : Byte
  cs     : Byte
  inLen  : Addr
  outCap : Addr
  n      : Nat
deriving DecidableEq, Repr

/-- R30: the CSRs that hold a value. CTRL and STATUS are words that the host reads whole; CHANNELS and COLORSPACE have
8 bits in use and the rest stuck at 0 (R35, R36, U8). Registers 11 to 15 hold nothing. -/
structure Csrs where
  ctrl       : Word32
  status     : Word32
  width      : Word32
  height     : Word32
  channels   : Byte
  colorspace : Byte
  inLen      : Addr
  outCap     : Addr
  outLen     : Addr
  inPos      : Addr
  pixPos     : Word32
deriving DecidableEq, Repr

/-- A byte buffer (R60): the written bytes in rising order of their offset, and the regions `[0, bound)` whose bytes the
spec leaves at any value, the latest first, each with the number of the event that left it so. -/
structure Memory where
  cells : List Host.Cell
  holes : List (Nat × Nat)
deriving DecidableEq, Repr

/-- A move of the host, the second agent of D1. What it may do: access a CSR, fill IN, use OUT, assert reset, or wait while the engine takes one
step. -/
inductive HostMove where
  /-- The host makes no access and the engine takes one step. -/
  | wait
  /-- A write of a whole CSR (R30). -/
  | writeCsr (reg : BitVec 4) (v : BitVec 64)
  /-- A read of a whole CSR (R30, R46). -/
  | readCsr (reg : BitVec 4)
  /-- R243 step 2. -/
  | writeIn (offset : Addr) (v : Byte)
  /-- The host reads back its own buffer outside a pass (R69, R73). -/
  | readIn (offset : Addr)
  /-- The host writes OUT outside a pass (R75). -/
  | writeOut (offset : Addr) (v : Byte)
  /-- R243 step 6. -/
  | readOut (offset : Addr)
  /-- R240, R241: reset is asserted. -/
  | assertReset
deriving DecidableEq, Repr

/-- The whole machine. `phase` to `csr` are R20's tuple; `inBuf` and `outBuf` are R60's buffers; `params` is the open
parameter of P2. The last three are the model's own: the number of the next free value, the host's moves still to come
(which decide how host and engine interleave, R246), and the value the host's last read returned. -/
structure State where
  phase    : Phase
  job      : Job
  prev     : Pixel
  cache    : Vector Pixel 64
  run      : BitVec 6
  pixPos   : Word32
  inPos    : Addr
  outPos   : Addr
  csr      : Csrs
  inBuf    : Memory
  outBuf   : Memory
  params   : Params
  draws    : Nat
  host     : List HostMove
  readData : BitVec 64
deriving DecidableEq, Repr

/-- The one ground on which the machine stops with a fault. `step` never raises it; only a caller that hands `exec` an
instruction of its own choice can. -/
inductive Fault where
  /-- Raised by a meaning in a phase of a pass that does not run the instruction, or when the encoder does not select it
  (R154, R171, R191: "There are no other transitions"). Safe: the model stops where the spec has no transition. -/
  | noTransition
deriving DecidableEq, Repr

/-- Why a step answers no next state without a fault. -/
inductive Refusal where
  /-- An instruction whose meaning is not written yet; raised by `exec` only, and no arm of it does. Safe. -/
  | notModelled (mnemonic : String)
  /-- Raised by a host move that reads or writes IN or OUT during a pass (R69, R73, R75, D22, U6 "refuse"). Safe for the
  model's own runs; runs of a host that breaks its duty are not covered. -/
  | hostDutyBroken
deriving DecidableEq, Repr

/-- R45: what reset leaves in the CSRs. -/
def Csrs.reset : Csrs :=
  { ctrl := 0, status := 0, width := 0, height := 0, channels := 0, colorspace := 0,
    inLen := 0, outCap := 0, outLen := 0, inPos := 0, pixPos := 0 }

/-- DESIGN CHOICE (log entry 1): the spec gives `job` no value after reset, and no rule reads it before START. -/
def Job.reset : Job :=
  { mode := .enc, w := 0, h := 0, c := 0, cs := 0, inLen := 0, outCap := 0, n := 0 }

/-- A buffer in which nothing is listed. -/
def Memory.empty : Memory := { cells := [], holes := [] }

/-- The machine right after reset (R45, R240). The datapath registers have no reset value in the spec; they are zero here
(log entry 1). IN and OUT list nothing (log entry 2). -/
def State.reset : State :=
  { phase := .idle, job := Job.reset, prev := Pixel.zero, cache := Vector.replicate 64 Pixel.zero,
    run := 0, pixPos := 0, inPos := 0, outPos := 0, csr := Csrs.reset,
    inBuf := Memory.empty, outBuf := Memory.empty, params := Config.Params.default,
    draws := 0, host := [], readData := 0 }

end Sys2Proof.Machine
end

