-- ==== Sys2Proof/Machine/Flags.lean ====
section
/-! DEFINITION. The STATUS register and its flags (R32, R42), the error codes and classes (R210), and the completion
signal (R227). No chunk sets a flag (R42). -/

namespace Sys2Proof.Machine

/-- R210: the number of an error code. -/
def ErrCode.code : ErrCode → Byte
  | .badMagic => 1
  | .badChannels => 2
  | .badColorspace => 3
  | .dimZero => 4
  | .dimOverflow => 5
  | .encLenMismatch => 6
  | .decTruncHeader => 7
  | .decTruncStream => 8
  | .decTruncChunk => 9
  | .decBadTag => 10
  | .outOverflow => 11

/-- R210: the source's class of an error code. -/
def ErrCode.errClass : ErrCode → BitVec 4
  | .badMagic => 1
  | .badChannels => 1
  | .badColorspace => 1
  | .dimZero => 2
  | .dimOverflow => 2
  | .encLenMismatch => 3
  | .decTruncHeader => 4
  | .decTruncStream => 4
  | .decTruncChunk => 4
  | .decBadTag => 4
  | .outOverflow => 5

/-- R42: BUSY = 1 and every other field 0. -/
def statusBusy : Word32 := 0x00000001

/-- R42: DONE = 1 and every other field 0. -/
def statusDone : Word32 := 0x00000002

/-- R222: ERR = 1 with the code in bits 15:8 and its class in bits 19:16 (R32). -/
def statusError (e : ErrCode) : Word32 := 0x000#12 ++ e.errClass ++ e.code ++ 0b00000100#8

/-- R32: STATUS.BUSY. -/
def State.busy (s : State) : Bool := s.csr.status.getLsbD 0

/-- R32: STATUS.DONE. -/
def State.isDone (s : State) : Bool := s.csr.status.getLsbD 1

/-- R32: STATUS.ERR. -/
def State.isErr (s : State) : Bool := s.csr.status.getLsbD 2

/-- R32: STATUS.ERRCODE. -/
def State.errCodeField (s : State) : Byte := s.csr.status.extractLsb' 8 8

/-- R32: STATUS.ERRCLASS. -/
def State.errClassField (s : State) : BitVec 4 := s.csr.status.extractLsb' 16 4

/-- R227: `done_irq`, a level signal equal to STATUS.DONE OR STATUS.ERR (log entry 17). -/
def State.doneIrq (s : State) : Bool := s.isDone || s.isErr

end Sys2Proof.Machine
end

