-- ==== Sys2Proof/Machine/Ops.lean ====
section
/-! DEFINITION. The shared operations: the byte buffers (R60, R68, R70), the color cache (R130 to R132), the bit-packer's
commit (R175), taking an error (R222, R223) and completing a pass (R177, R197). -/

namespace Sys2Proof.Machine

/-! ### Byte buffers -/

/-- The listed byte at an offset. -/
def findCell : List Host.Cell → Nat → Option Byte
  | [], _ => none
  | (x, v) :: rest, a => if x = a then some v else findCell rest a

/-- Lists a byte, keeping the offsets rising. -/
def putCell (a : Nat) (v : Byte) : List Host.Cell → List Host.Cell
  | [] => [(a, v)]
  | (x, w) :: rest =>
    if a < x then (a, v) :: (x, w) :: rest
    else if a = x then (a, v) :: rest
    else (x, w) :: putCell a v rest

/-- Takes a byte off the list. -/
def dropCell (a : Nat) (cells : List Host.Cell) : List Host.Cell := cells.filter fun c => c.1 != a

/-- The event whose free values stand at an offset: the latest region that covers it. -/
def holeAt : List (Nat × Nat) → Nat → Option Nat
  | [], _ => none
  | (bound, draw) :: rest, a => if a < bound then some draw else holeAt rest a

/-- What an unlisted offset reads as: the free byte of the latest event that left it at any value (R78, R241), else zero
(DESIGN CHOICE, log entry 2: the spec gives IN and OUT no contents after power-on). -/
def Memory.unlisted (m : Memory) (a : Nat) : Byte :=
  match holeAt m.holes a with
  | some draw => Config.anyByte draw a
  | none => 0

/-- `MemRead` of one byte (R11). -/
def Memory.read (m : Memory) (a : Nat) : Byte :=
  match findCell m.cells a with
  | some v => v
  | none => m.unlisted a

/-- `MemWrite` of one byte (R11). Outside the free regions a zero is not listed, since an unlisted offset reads as zero
there. -/
def Memory.write (m : Memory) (a : Nat) (v : Byte) : Memory :=
  if v = 0 ∧ holeAt m.holes a = none then { m with cells := dropCell a m.cells }
  else { m with cells := putCell a v m.cells }

/-- `MemRead(buffer, a, n)` (R11): n bytes, lowest offset first. -/
def Memory.readBytes (m : Memory) (a : Nat) : Nat → List Byte
  | 0 => []
  | n + 1 => m.read a :: m.readBytes (a + 1) n

/-- `MemWrite(buffer, a, n, bs)` (R11): in increasing offset order (R73). -/
def Memory.writeBytes (m : Memory) (a : Nat) : List Byte → Memory
  | [] => m
  | v :: rest => (m.write a v).writeBytes (a + 1) rest

/-- Offsets 0 to bound - 1 are left at any value by the event numbered `draw` (U1, U2). -/
def Memory.forget (m : Memory) (bound draw : Nat) : Memory :=
  if bound = 0 then m
  else { cells := m.cells.filter fun c => decide (bound ≤ c.1),
         holes := (bound, draw) :: m.holes.filter fun h => decide (bound < h.1) }

/-- Offsets strictly rising. -/
def rising : List Nat → Bool
  | [] => true
  | [_] => true
  | a :: b :: rest => decide (a < b) && rising (b :: rest)

/-- The canonical form: offsets strictly rising, the bounds of the free regions strictly rising and positive, and no
listed byte equal to what its offset would read as unlisted. (A free byte is a value nothing can be compared with, so a
byte written over one stays listed.) -/
def Memory.wf (m : Memory) : Bool :=
  rising (m.cells.map Prod.fst) && rising (m.holes.map Prod.fst) && m.holes.all (fun h => decide (0 < h.1)) &&
    m.cells.all fun c => c.2 != 0 || (holeAt m.holes c.1).isSome

/-! ### The color cache (41_color_cache.md) -/

/-- R130: `index(p) = (3r + 5g + 7b + 11a) mod 64`. -/
def cacheIndex (p : Pixel) : BitVec 6 :=
  BitVec.ofNat 6 (3 * p.r.toNat + 5 * p.g.toNat + 7 * p.b.toNat + 11 * p.a.toNat)

/-- R131: `lookup(s)`. -/
def lookup (cache : Vector Pixel 64) (slot : BitVec 6) : Pixel := cache[slot.toFin]

/-- R132: `store(s, p)`, an unconditional overwrite of one slot. -/
def store (cache : Vector Pixel 64) (slot : BitVec 6) (p : Pixel) : Vector Pixel 64 := cache.set slot.toFin p

/-- R140: the non-run update, in either direction. -/
def State.nonRunUpdate (s : State) (px : Pixel) : State :=
  { s with cache := store s.cache (cacheIndex px) px, prev := px }

/-! ### Ending a pass -/

/-- TAKING AN ERROR (R222): the error is recorded in STATUS, the counters as they were at the start of the failing step,
and the pass ends. `s` is the state at the start of the step, so nothing the step would have written takes effect (R223).
OUT offsets 0 to OUT_CAP - 1 are left at any value (R78). There is no return from an error (R225): only the next START
or a reset leaves the phase. -/
def State.raise (s : State) (e : ErrCode) : State :=
  { s with
    csr := { s.csr with status := statusError e, outLen := s.outPos, inPos := s.inPos, pixPos := s.pixPos }
    phase := .error
    outBuf := s.outBuf.forget s.job.outCap.toNat s.draws
    draws := s.draws + 1 }

/-- R113, R223: a decode pass's header error other than OUT_OVERFLOW leaves WIDTH, HEIGHT, CHANNELS and COLORSPACE at any
value (U4); otherwise it is R222's error. -/
def State.raiseDecHeader (s : State) (e : ErrCode) : State :=
  { s with
    csr := { s.csr with
      width := (Config.anyCsr s.draws 2).setWidth 32
      height := (Config.anyCsr s.draws 3).setWidth 32
      channels := (Config.anyCsr s.draws 4).setWidth 8
      colorspace := (Config.anyCsr s.draws 5).setWidth 8 } }.raise e

/-- R177, R197: the pass completes: the counters are copied to their CSRs and STATUS becomes DONE. The datapath registers
keep their values (R235, log entry 10). -/
def State.complete (s : State) : State :=
  { s with
    csr := { s.csr with status := statusDone, outLen := s.outPos, inPos := s.inPos, pixPos := s.pixPos }
    phase := .done }

/-! ### The bit-packer (R95, R175) -/

/-- R175: `commit()`. `sb` is the step buffer, `s` the state at the start of the step and `t` the state with the step's
datapath writes. Either the whole buffer is written at `out_pos`, or none of it and OUT_OVERFLOW is raised (R176). -/
def State.commit (s t : State) (sb : List Byte) : State :=
  if s.outPos.toNat + sb.length > s.job.outCap.toNat then s.raise .outOverflow
  else { t with outBuf := t.outBuf.writeBytes s.outPos.toNat sb, outPos := s.outPos + BitVec.ofNat 64 sb.length }

end Sys2Proof.Machine
end

