-- ==== Sys2Proof/Machine/Operands.lean ====
section
/-! DEFINITION. The operands of the chunks: the pixel an encoder reads (R63, R172), the pixel bytes a decoder writes (R64,
R195), the deltas (R141), the pixel each chunk form stands for (R145 to R153) and the encoder's tag dispatcher (R154). -/

namespace Sys2Proof.Machine

/-! ### Pixels in the raw buffer -/

/-- R63: a pixel from its bytes; alpha is 255 when the image has 3 channels. -/
def pixelOfBytes (c : Byte) (bs : List Byte) : Pixel :=
  ⟨bs.getD 0 0, bs.getD 1 0, bs.getD 2 0, if c = 3 then 255 else bs.getD 3 0⟩

/-- R64: the bytes of a pixel; alpha is dropped when the image has 3 channels. -/
def bytesOfPixel (c : Byte) (p : Pixel) : List Byte :=
  if c = 3 then [p.r, p.g, p.b] else [p.r, p.g, p.b, p.a]

/-- R172: `read_pixel(pix_pos)`, C bytes at offset pix_pos × C of IN. -/
def State.readPixel (s : State) : Pixel :=
  pixelOfBytes s.job.c (s.inBuf.readBytes (s.pixPos.toNat * s.job.c.toNat) s.job.c.toNat)

/-- R195: `write_pixel(p)`, C bytes at offset pix_pos × C of OUT, and R143, R145: the pixel count grows by one. -/
def State.writePixel (s : State) (p : Pixel) : State :=
  { s with
    outBuf := s.outBuf.writeBytes (s.pixPos.toNat * s.job.c.toNat) (bytesOfPixel s.job.c p)
    outPos := s.outPos + BitVec.ofNat 64 s.job.c.toNat
    pixPos := s.pixPos + 1 }

/-- R143: `write_pixel(p)` k times. -/
def State.writePixels (s : State) (p : Pixel) : Nat → State
  | 0 => s
  | k + 1 => (s.writePixel p).writePixels p k

/-! ### Deltas (R141) -/

/-- R9: `s8(v)`, the two's-complement reading of an 8-bit value, in [-128, 127]. -/
def s8 (v : Byte) : Int := v.toInt

/-- R141: ΔR, wrapped mod 256 into the signed range. -/
def deltaR (px prev : Pixel) : Int := s8 (px.r - prev.r)

/-- R141: ΔG. -/
def deltaG (px prev : Pixel) : Int := s8 (px.g - prev.g)

/-- R141: ΔB. -/
def deltaB (px prev : Pixel) : Int := s8 (px.b - prev.b)

/-- R141: ΔR - ΔG, with no further wrap. -/
def deltaRG (px prev : Pixel) : Int := deltaR px prev - deltaG px prev

/-- R141: ΔB - ΔG, with no further wrap. -/
def deltaBG (px prev : Pixel) : Int := deltaB px prev - deltaG px prev

/-- R89: a biased field: the bias is added to the signed value and the sum kept in the field's width. -/
def biased (width : Nat) (v bias : Int) : BitVec width := BitVec.ofInt width (v + bias)

/-! ### The pixel a chunk stands for, given the previous pixel and the cache -/

/-- R147. -/
def diffPixel (prev : Pixel) (dr2 dg2 db2 : BitVec 2) : Pixel :=
  ⟨prev.r + dr2.setWidth 8 - 2, prev.g + dg2.setWidth 8 - 2, prev.b + db2.setWidth 8 - 2, prev.a⟩

/-- R149. -/
def lumaPixel (prev : Pixel) (dg32 : BitVec 6) (drg8 dbg8 : BitVec 4) : Pixel :=
  let vg : Byte := dg32.setWidth 8 - 32
  ⟨prev.r + vg - 8 + drg8.setWidth 8, prev.g + vg, prev.b + vg - 8 + dbg8.setWidth 8, prev.a⟩

/-- R151: alpha is kept from the previous pixel. -/
def rgbPixel (prev : Pixel) (r g b : Byte) : Pixel := ⟨r, g, b, prev.a⟩

/-! ### The tag dispatcher (R154) -/

/-- The tiers of R154. -/
inductive Tier where
  | run
  | index (h : BitVec 6)
  | rgba
  | diff
  | luma
  | rgb
deriving DecidableEq, Repr

/-- R154: the first tier, in strict priority order, whose test the pixel passes. -/
def classify (px prev : Pixel) (cache : Vector Pixel 64) : Tier :=
  if px = prev then .run
  else if lookup cache (cacheIndex px) = px then .index (cacheIndex px)
  else if px.a ≠ prev.a then .rgba
  else if (-2 ≤ deltaR px prev ∧ deltaR px prev ≤ 1) ∧ (-2 ≤ deltaG px prev ∧ deltaG px prev ≤ 1) ∧
      (-2 ≤ deltaB px prev ∧ deltaB px prev ≤ 1) then .diff
  else if (-32 ≤ deltaG px prev ∧ deltaG px prev ≤ 31) ∧ (-8 ≤ deltaRG px prev ∧ deltaRG px prev ≤ 7) ∧
      (-8 ≤ deltaBG px prev ∧ deltaBG px prev ≤ 7) then .luma
  else .rgb

/-- R146: the OP_DIFF chunk of a pixel. -/
def diffChunk (px prev : Pixel) : Instr :=
  .opDiff (biased 2 (deltaR px prev) 2) (biased 2 (deltaG px prev) 2) (biased 2 (deltaB px prev) 2)

/-- R148: the OP_LUMA chunk of a pixel. -/
def lumaChunk (px prev : Pixel) : Instr :=
  .opLuma (biased 6 (deltaG px prev) 32) (biased 4 (deltaRG px prev) 8) (biased 4 (deltaBG px prev) 8)

/-- R144 to R152: the chunk of a pixel that does not equal the previous one; a run pixel has none of its own. -/
def chunkOf (px prev : Pixel) (cache : Vector Pixel 64) : Option Instr :=
  match classify px prev cache with
  | .run => none
  | .index h => some (.opIndex h)
  | .rgba => some (.opRgba px.r px.g px.b px.a)
  | .diff => some (diffChunk px prev)
  | .luma => some (lumaChunk px prev)
  | .rgb => some (.opRgb px.r px.g px.b)

/-- R173: the pixel step's pixel is the image's last. -/
def State.lastPixel (s : State) : Bool := decide (s.pixPos.toNat + 1 = s.job.n)

/-- R173, R174: the chunk that the pixel step emits for its own pixel. For a pixel of a run it is the OP_RUN that flushes
the run when the run reaches 62 or the pixel is the last; otherwise none. (The flush of a broken run, which may precede
the chunk in the same step, is `flushBytes`; log entry 18.) -/
def State.nextChunk (s : State) : Option Instr :=
  let px := s.readPixel
  if px = s.prev then
    if s.run.toNat + 1 = Config.runMax ∨ s.lastPixel = true then some (.opRun s.run) else none
  else chunkOf px s.prev s.cache

/-- R142, R174 case 3: the byte of the pending run, which the pixel breaks; nothing when no run is pending. -/
def State.flushBytes (s : State) : List Byte :=
  if s.run = 0 then [] else encode (.opRun (s.run - 1))

end Sys2Proof.Machine
end

