-- ==== Sys2Proof/Machine/Chunks.lean ====
section
/-! DEFINITION. The six chunk forms (42_chunk_codec.md). A chunk has two directions: in DEC_CHUNKS the decoder applies it
(R193), in ENC_PIXELS the encoder emits it for the current pixel (R173). In IDLE, DONE and ERROR the engine makes no step
and keeps all state (R225, R235). -/

namespace Sys2Proof.Machine

/-! ### Shared operations -/

/-- R173, the end of the pixel step: `prev`, the counters, the commit, and the phase. `t` carries the step's writes to
`run`, `cache` and `prev`. -/
def State.endPixelStep (s t : State) (px : Pixel) (sb : List Byte) : State :=
  s.commit
    { t with
      prev := px
      pixPos := s.pixPos + 1
      inPos := s.inPos + BitVec.ofNat 64 s.job.c.toNat
      phase := if s.lastPixel = true then .encTrailer else .encPixels }
    sb

/-- R142 in R173: the run's last pixel joins it and the run is flushed; neither `cache` nor `prev` changes. -/
def State.encodeRun (s : State) (len1 : BitVec 6) : State :=
  s.endPixelStep { s with run := 0 } s.readPixel (encode (.opRun len1))

/-- R173, a pixel that joins the run without a flush: nothing is emitted. -/
def State.encodeRunOn (s : State) : State :=
  s.endPixelStep { s with run := s.run + 1 } s.readPixel []

/-- R144, R146, R148, R150, R152 in R173: a pending run is flushed first, then the chunk is emitted, the cache and `prev`
updated (R140). -/
def State.encodeChunk (s : State) (i : Instr) : State :=
  s.endPixelStep ({ s with run := 0 }.nonRunUpdate s.readPixel) s.readPixel (s.flushBytes ++ encode i)

/-- R193's last line: the pass completes when all N pixels are written. -/
def State.completeIfFull (s : State) : State := if s.pixPos.toNat = s.job.n then s.complete else s

/-- R145, R147, R149, R151, R153 in R193: the chunk of `len` bytes that stands for the pixel `px` is applied. -/
def State.decodePixel (s : State) (px : Pixel) (len : Nat) : State :=
  { (s.nonRunUpdate px).writePixel px with inPos := s.inPos + BitVec.ofNat 64 len }.completeIfFull

/-- R143 in R193: an OP_RUN of n pixels is applied, cut to the pixels that remain. -/
def State.decodeRun (s : State) (n : Nat) : State :=
  { s.writePixels s.prev (min n (s.job.n - s.pixPos.toNat)) with inPos := s.inPos + 1 }.completeIfFull

/-- A chunk's meaning from its two directions. In ENC_PIXELS it has one only when the dispatcher selects it for the
current pixel (R154, R173); a phase that runs no chunk has no such transition (log entry 7). -/
def runChunk (i : Instr) (applied emitted : State) (s : State) : Host.Outcome State Fault Refusal :=
  match s.phase with
  | .decChunks => .next applied
  | .encPixels => if s.pixPos.toNat < s.job.n ∧ s.nextChunk = some i then .next emitted else .fault .noTransition
  | .idle => .next s
  | .done => .next s
  | .error => .next s
  | .encHeader => .fault .noTransition
  | .encTrailer => .fault .noTransition
  | .decHeader => .fault .noTransition

/-! ### The meanings -/

/-- OP_INDEX: R145 decode, R144 encode. -/
def execOpIndex (idx : BitVec 6) (s : State) : Host.Outcome State Fault Refusal :=
  runChunk (.opIndex idx) (s.decodePixel (lookup s.cache idx) 1) (s.encodeChunk (.opIndex idx)) s

/-- OP_DIFF: R147 decode, R146 encode. -/
def execOpDiff (dr2 dg2 db2 : BitVec 2) (s : State) : Host.Outcome State Fault Refusal :=
  runChunk (.opDiff dr2 dg2 db2) (s.decodePixel (diffPixel s.prev dr2 dg2 db2) 1)
    (s.encodeChunk (.opDiff dr2 dg2 db2)) s

/-- OP_LUMA: R149 decode, R148 encode. -/
def execOpLuma (dg32 : BitVec 6) (drg8 dbg8 : BitVec 4) (s : State) : Host.Outcome State Fault Refusal :=
  runChunk (.opLuma dg32 drg8 dbg8) (s.decodePixel (lumaPixel s.prev dg32 drg8 dbg8) 2)
    (s.encodeChunk (.opLuma dg32 drg8 dbg8)) s

/-- OP_RUN: R143 decode, R142 encode. -/
def execOpRun (len1 : BitVec 6) (s : State) : Host.Outcome State Fault Refusal :=
  runChunk (.opRun len1) (s.decodeRun (len1.toNat + 1)) (s.encodeRun len1) s

/-- OP_RGB: R151 decode, R150 encode. -/
def execOpRgb (r g b : Byte) (s : State) : Host.Outcome State Fault Refusal :=
  runChunk (.opRgb r g b) (s.decodePixel (rgbPixel s.prev r g b) 4) (s.encodeChunk (.opRgb r g b)) s

/-- OP_RGBA: R153 decode, R152 encode. -/
def execOpRgba (r g b a : Byte) (s : State) : Host.Outcome State Fault Refusal :=
  runChunk (.opRgba r g b a) (s.decodePixel ⟨r, g, b, a⟩ 5) (s.encodeChunk (.opRgba r g b a)) s

end Sys2Proof.Machine
end

