-- ==== Sys2Proof/Machine/Framer.lean ====
section
/-! DEFINITION. The stream framer (40_stream_framer.md): the header and the end marker, in both directions. -/

namespace Sys2Proof.Machine

/-- R110 with the order of R111, R113 and R224: the first field check that fails. Products are exact. -/
def fieldError (p : Config.Params) (w h : Word32) (c cs : Byte) : Option ErrCode :=
  if w = 0 ∨ h = 0 then some .dimZero
  else if w.toNat * h.toNat > p.maxPixels then some .dimOverflow
  else if ¬(c = 3 ∨ c = 4) then some .badChannels
  else if ¬(cs = 0 ∨ cs = 1) then some .badColorspace
  else none

/-- R111: job validation; ENC_LEN_MISMATCH is the last check. -/
def jobError (p : Config.Params) (j : Job) : Option ErrCode :=
  match fieldError p j.w j.h j.c j.cs with
  | some e => some e
  | none => if j.inLen.toNat ≠ j.w.toNat * j.h.toNat * j.c.toNat then some .encLenMismatch else none

/-- R111, R112: the ENC_HEADER step. -/
def State.encodeHeader (s : State) (w h : Word32) (c cs : Byte) : State :=
  match jobError s.params s.job with
  | some e => s.raise e
  | none =>
    s.commit { s with job := { s.job with n := s.job.w.toNat * s.job.h.toNat }, phase := .encPixels }
      (encode (.header w h c cs))

/-- R113: the CSR writes of a header that passes every check. -/
def State.reportHeader (s : State) (w h : Word32) (c cs : Byte) : State :=
  { s with csr := { s.csr with width := w, height := h, channels := c, colorspace := cs } }

/-- R113, R192: the rest of the DEC_HEADER step, for a header that passes and fits. -/
def State.acceptHeader (s : State) (w h : Word32) (c cs : Byte) : State :=
  { s.reportHeader w h c cs with
    job := { s.job with w := w, h := h, c := c, cs := cs, n := w.toNat * h.toNat }
    inPos := 14
    phase := .decChunks }

/-- R113, R192: the DEC_HEADER step once the record is read. A header that does not fit OUT raises OUT_OVERFLOW with the
CSR writes standing (R223). -/
def State.decodeHeader (s : State) (w h : Word32) (c cs : Byte) : State :=
  match fieldError s.params w h c cs with
  | some e => s.raiseDecHeader e
  | none =>
    if s.job.outCap.toNat < w.toNat * h.toNat * c.toNat then (s.reportHeader w h c cs).raise .outOverflow
    else s.acceptHeader w h c cs

/-- R115, R177: the ENC_TRAILER step. -/
def State.encodeEnd (s : State) : State :=
  if s.outPos.toNat + endBytes.length > s.job.outCap.toNat then s.raise .outOverflow
  else (s.commit s (encode .endMarker)).complete

/-- HEADER: R113 decode, R111 and R112 encode. The encoder's header is the job's own (R112), so in ENC_HEADER no other one
has a transition (log entry 7). -/
def execHeader (w h : Word32) (c cs : Byte) (s : State) : Host.Outcome State Fault Refusal :=
  match s.phase with
  | .decHeader => .next (s.decodeHeader w h c cs)
  | .encHeader =>
    if w = s.job.w ∧ h = s.job.h ∧ c = s.job.c ∧ cs = s.job.cs then .next (s.encodeHeader w h c cs)
    else .fault .noTransition
  | .idle => .next s
  | .done => .next s
  | .error => .next s
  | .encPixels => .fault .noTransition
  | .encTrailer => .fault .noTransition
  | .decChunks => .fault .noTransition

/-- END: R115 encode. On decode it is never read as a record (R116): the decoder has ended its pass, and bytes after the
last chunk change nothing. -/
def execEndMarker (s : State) : Host.Outcome State Fault Refusal :=
  match s.phase with
  | .encTrailer => .next s.encodeEnd
  | .idle => .next s
  | .done => .next s
  | .error => .next s
  | .encHeader => .fault .noTransition
  | .encPixels => .fault .noTransition
  | .decHeader => .fault .noTransition
  | .decChunks => .fault .noTransition

end Sys2Proof.Machine
end

