-- ==== Sys2Proof/Machine/Dispatch.lean ====
section
/-! DEFINITION. One arm per constructor of Instr, each one call of its meaning. -/

namespace Sys2Proof.Machine

def exec (i : Instr) (s : State) : Host.Outcome State Fault Refusal :=
  match i with
  | .opIndex idx => Sys2Proof.Machine.execOpIndex idx s
  | .opDiff dr2 dg2 db2 => Sys2Proof.Machine.execOpDiff dr2 dg2 db2 s
  | .opLuma dg32 drg8 dbg8 => Sys2Proof.Machine.execOpLuma dg32 drg8 dbg8 s
  | .opRun len1 => Sys2Proof.Machine.execOpRun len1 s
  | .opRgb r g b => Sys2Proof.Machine.execOpRgb r g b s
  | .opRgba r g b a => Sys2Proof.Machine.execOpRgba r g b a s
  | .header w h c cs => Sys2Proof.Machine.execHeader w h c cs s
  | .endMarker => Sys2Proof.Machine.execEndMarker s

end Sys2Proof.Machine
end

