-- ==== Sys2Proof/Machine/Registers.lean ====
section
/-! DEFINITION. The CSR block as the host reaches it (R30 to R41, R46), START (R170, R190) and reset during operation
(R240, R241). -/

namespace Sys2Proof.Machine

/-! ### START -/

/-- R170, R190: the state every accepted START gives the datapath (R44, R242), with STATUS = BUSY. -/
def State.openPass (s : State) (j : Job) (ph : Phase) : State :=
  { s with
    job := j
    csr := { s.csr with status := statusBusy }
    prev := Pixel.start
    cache := Vector.replicate 64 Pixel.zero
    run := 0
    pixPos := 0
    inPos := 0
    outPos := 0
    phase := ph }

/-- R170: the job of an encode pass; R29: its pixel count is exact. -/
def State.encodeJob (s : State) : Job :=
  { mode := .enc, w := s.csr.width, h := s.csr.height, c := s.csr.channels, cs := s.csr.colorspace,
    inLen := s.csr.inLen, outCap := s.csr.outCap, n := s.csr.width.toNat * s.csr.height.toNat }

/-- R190: the job of a decode pass. START does not write the parts that come from the header
(log entry 14). -/
def State.decodeJob (s : State) : Job :=
  { s.job with mode := .dec, inLen := s.csr.inLen, outCap := s.csr.outCap }

/-- R170, R190: an accepted START. -/
def State.start (s : State) : Mode → State
  | .enc => s.openPass s.encodeJob .encHeader
  | .dec => s.openPass s.decodeJob .decHeader

/-! ### CSR access -/

/-- R31: a write of CTRL. MODE is kept, bit 0 starts a pass with the mode just written, the rest is ignored. -/
def State.writeCtrl (s : State) (v : Word32) : State :=
  let s' := { s with csr := { s.csr with ctrl := v &&& 2 } }
  if v.getLsbD 0 then s'.start (if v.getLsbD 1 then .dec else .enc) else s'

/-- R30, R46: a host write of CSR `reg`. While BUSY it is ignored; a register that is read-only or reserved ignores it.
A 32-bit register takes the low 32 bits of the value, an 8-bit field the low 8 (log entry 8). -/
def State.writeCsr (s : State) (reg : BitVec 4) (v : BitVec 64) : State :=
  if s.busy then s
  else match reg.toNat with
    | 0 => s.writeCtrl (v.setWidth 32)
    | 2 => { s with csr := { s.csr with width := v.setWidth 32 } }
    | 3 => { s with csr := { s.csr with height := v.setWidth 32 } }
    | 4 => { s with csr := { s.csr with channels := v.setWidth 8 } }
    | 5 => { s with csr := { s.csr with colorspace := v.setWidth 8 } }
    | 6 => { s with csr := { s.csr with inLen := v } }
    | 7 => { s with csr := { s.csr with outCap := v } }
    | _ => s

/-- R30: the value a CSR holds, reserved bits and reserved registers reading 0. -/
def State.csrValue (s : State) (reg : BitVec 4) : BitVec 64 :=
  match reg.toNat with
  | 0 => s.csr.ctrl.setWidth 64
  | 1 => s.csr.status.setWidth 64
  | 2 => s.csr.width.setWidth 64
  | 3 => s.csr.height.setWidth 64
  | 4 => s.csr.channels.setWidth 64
  | 5 => s.csr.colorspace.setWidth 64
  | 6 => s.csr.inLen
  | 7 => s.csr.outCap
  | 8 => s.csr.outLen
  | 9 => s.csr.inPos
  | 10 => s.csr.pixPos.setWidth 64
  | _ => 0

/-- R46, U3, U4: the CSRs that read any value now: OUT_LEN, IN_POS and PIX_POS while BUSY, and WIDTH to COLORSPACE while
a decode pass is BUSY. -/
def State.csrUnspecified (s : State) (reg : BitVec 4) : Bool :=
  s.busy && (decide (8 ≤ reg.toNat ∧ reg.toNat ≤ 10) ||
    (decide (s.job.mode = .dec) && decide (2 ≤ reg.toNat ∧ reg.toNat ≤ 5)))

/-- The bits a CSR has in use (R30, R35, R36): a reserved bit reads 0 whatever the rest reads. -/
def csrMask (reg : BitVec 4) : BitVec 64 :=
  match reg.toNat with
  | 2 | 3 | 10 => 0xFFFFFFFF
  | 4 | 5 => 0xFF
  | _ => 0xFFFFFFFFFFFFFFFF

/-- A host read of CSR `reg`: always allowed (R46). A CSR that reads any value gives a free one, a new one at each read
(log entry 4). -/
def State.readCsr (s : State) (reg : BitVec 4) : State :=
  if s.csrUnspecified reg then
    { s with readData := Config.anyCsr s.draws reg.toNat &&& csrMask reg, draws := s.draws + 1 }
  else { s with readData := s.csrValue reg }

/-! ### Reset -/

/-- R240, R241: reset. Everything returns to its reset value but IN, OUT, the parameter and the host's own side; if a pass
was running, OUT offsets 0 to OUT_CAP - 1 are left at any value. -/
def State.hostReset (s : State) : State :=
  { State.reset with
    inBuf := s.inBuf
    outBuf := if s.busy then s.outBuf.forget s.job.outCap.toNat s.draws else s.outBuf
    params := s.params
    draws := s.draws + 1
    host := s.host
    readData := s.readData }

end Sys2Proof.Machine
end

