-- ==== Sys2Proof/Machine/Engine.lean ====
section
/-! DEFINITION. The two agents of D1: the engine, which fetches a record or selects one and executes it (R171, R191,
R246), and the host, which makes one move at a time (R243, R245). -/

namespace Sys2Proof.Machine

/-! ### Fetch -/

/-- R113: the DEC_HEADER step's read of the header record, or the error of its first two checks. -/
def State.fetchHeader (s : State) : Except ErrCode Instr :=
  if s.job.inLen.toNat < Config.headerLen then .error .decTruncHeader
  else match decode .header (s.inBuf.readBytes 0 Config.headerLen) with
    | .ok (i, _) => .ok i
    | .error _ => .error .badMagic

/-- R193, R194: the DEC_CHUNKS step's read of one chunk at `in_pos`, or the truncation it meets. The last line is R220's
unknown tag, which no byte reaches. -/
def State.fetchChunk (s : State) : Except ErrCode Instr :=
  if s.inPos.toNat ≥ s.job.inLen.toNat then .error .decTruncStream
  else
    let len := chunkLen (s.inBuf.read s.inPos.toNat)
    if s.inPos.toNat + len > s.job.inLen.toNat then .error .decTruncChunk
    else match decode .chunk (s.inBuf.readBytes s.inPos.toNat len) with
      | .ok (i, _) => .ok i
      | .error _ => .error .decBadTag

/-! ### The engine -/

/-- One engine step (R246). In IDLE, DONE and ERROR there is none and all state is kept (R235). The pixel and the chunk
steps run while fewer than N pixels are done (R173, R193; log entry 15). -/
def engineStep (s : State) : Host.Outcome State Fault Refusal :=
  match s.phase with
  | .idle => .next s
  | .done => .next s
  | .error => .next s
  | .encHeader => exec (.header s.job.w s.job.h s.job.c s.job.cs) s
  | .encPixels =>
    if s.pixPos.toNat < s.job.n then
      match s.nextChunk with
      | some i => exec i s
      | none => .next s.encodeRunOn
    else .next s
  | .encTrailer => exec .endMarker s
  | .decHeader =>
    match s.fetchHeader with
    | .ok i => exec i s
    | .error e => .next (s.raiseDecHeader e)
  | .decChunks =>
    if s.pixPos.toNat < s.job.n then
      match s.fetchChunk with
      | .ok i => exec i s
      | .error e => .next (s.raise e)
    else .next s

/-! ### The host -/

/-- An access of the host to IN or OUT that leaves `t`. In a pass the engine is the only agent that touches the buffers and
the host observes neither (R69, R73, R75), so the access is refused (U6, log entry 11). -/
def State.bufferAccess (s t : State) : Host.Outcome State Fault Refusal :=
  if s.busy then .refused .hostDutyBroken else .next t

/-- One move of the host. -/
def hostStep (m : HostMove) (s : State) : Host.Outcome State Fault Refusal :=
  match m with
  | .wait => engineStep s
  | .writeCsr reg v => .next (s.writeCsr reg v)
  | .readCsr reg => .next (s.readCsr reg)
  | .writeIn a v => s.bufferAccess { s with inBuf := s.inBuf.write a.toNat v }
  | .readIn a => s.bufferAccess { s with readData := (s.inBuf.read a.toNat).setWidth 64 }
  | .writeOut a v => s.bufferAccess { s with outBuf := s.outBuf.write a.toNat v }
  | .readOut a => s.bufferAccess { s with readData := (s.outBuf.read a.toNat).setWidth 64 }
  | .assertReset => .next s.hostReset

end Sys2Proof.Machine
end

