-- ==== Sys2Proof/Machine/Load.lean ====
section
/-! DEFINITION. How one record of the opcode table is put where the engine runs its next one (log entry 9). Each loader
leaves the machine in a state that a host reaches through the CSRs and IN. -/

namespace Sys2Proof.Machine

/-- An OUT_CAP that holds any decoded image: 4 × (2^32 - 1). -/
def roomyCap : Addr := 0x3FFFFFFFC

/-- The host's writes before a decode pass of the bytes `bs`, and its START (R243). -/
def State.startDecodeOf (s : State) (bs : List Byte) : State :=
  { s with
    csr := { s.csr with ctrl := 2, inLen := BitVec.ofNat 64 bs.length, outCap := roomyCap }
    inBuf := s.inBuf.writeBytes 0 bs
    host := [] }.start .dec

/-- A decode pass whose header (64 × 1 pixels, 4 channels) has been accepted and whose next chunk begins with `bs`. -/
def State.openChunks (s : State) (bs : List Byte) : State :=
  (s.startDecodeOf (encode (.header 64 1 4 0) ++ bs)).acceptHeader 64 1 4 0

/-- The chunk bytes at `in_pos` of the running decode pass, or of a new one where none runs. -/
def State.placeChunk (s : State) (bs : List Byte) : State :=
  if s.phase = .decChunks ∧ s.pixPos.toNat < s.job.n ∧ s.inPos.toNat + longestRecord < 2 ^ 64 then
    let len : Addr := if s.job.inLen.toNat < s.inPos.toNat + longestRecord then s.inPos + 14 else s.job.inLen
    { s with
      inBuf := s.inBuf.writeBytes s.inPos.toNat bs
      job := { s.job with inLen := len }
      csr := { s.csr with inLen := len }
      host := [] }
  else s.openChunks bs

/-- The header bytes at IN offset 0 of a decode pass about to read them. -/
def State.placeHeader (s : State) (bs : List Byte) : State :=
  if s.phase = .decHeader then
    let len : Addr := if s.job.inLen.toNat < longestRecord then 14 else s.job.inLen
    { s with
      inBuf := s.inBuf.writeBytes 0 bs
      job := { s.job with inLen := len }
      csr := { s.csr with inLen := len }
      host := [] }
  else s.startDecodeOf bs

/-- The end marker is not fetched: the encoder's trailer step writes it (R115). The state is one whose next step is that
step: the running one's, or that of an encode pass of one black pixel. -/
def State.placeEnd (s : State) : State :=
  if s.phase = .encTrailer then { s with host := [] }
  else
    let t := { s with
      csr := { s.csr with ctrl := 0, width := 1, height := 1, channels := 3, colorspace := 0, inLen := 3, outCap := 64 }
      inBuf := s.inBuf.writeBytes 0 [0, 0, 0]
      host := [] }.start .enc
    (t.encodeHeader 1 1 3 0).encodeRun 0

/-- The record of a table word, put where the next step runs it. -/
def State.placeTableWord (s : State) (nbits w : Nat) : State :=
  match tableSlot nbits w with
  | .chunk => s.placeChunk (tableBytes nbits w)
  | .header => s.placeHeader (tableBytes nbits w)
  | .trailer => s.placeEnd

end Sys2Proof.Machine
end

