-- ==== Sys2Proof/Machine/Step.lean ====
section
/-! DEFINITION. One step of the machine: the host's next move if it has one, else the engine's step (D1, R246). -/

namespace Sys2Proof.Machine

/-- The list `host` decides how the two agents interleave; with no move left the engine runs on
(log entry 13). -/
def step (s : State) : Host.Outcome State Fault Refusal :=
  match s.host with
  | [] => engineStep s
  | m :: rest => hostStep m { s with host := rest }

/-- The record of an opcode-table word stored where `step` runs its next one, so that the next step runs exactly it. -/
def State.withFetchWord (s : State) (nbits w : Nat) : State := s.placeTableWord nbits w

end Sys2Proof.Machine
end

