-- ==== Sys2Proof/WellFormed.lean ====
section
/-! DEFINITION. Which instructions are legal: the run length of R85 and R91, and the header's legal values of R93. Every
other field is legal at every value of its width (R90). -/

namespace Sys2Proof

/-- R85, R91: run lengths 1 to 62 only, because the bytes of 63 and 64 are OP_RGB and OP_RGBA. -/
def legalRun (len1 : BitVec 6) : Bool := decide (len1.toNat ≤ 61)

/-- R93 and R114: dimensions of at least 1, at most `MAX_PIXELS` pixels, 3 or 4 channels, colorspace 0 or 1. -/
def legalHeader (p : Config.Params) (w h : Word32) (c cs : Byte) : Bool :=
  w != 0 && h != 0 && decide (w.toNat * h.toNat ≤ p.maxPixels) && (c == 3 || c == 4) && (cs == 0 || cs == 1)

/-- The legality check of an instruction. -/
def Instr.wellFormed (p : Config.Params) : Instr → Bool
  | .opIndex _ => true
  | .opDiff _ _ _ => true
  | .opLuma _ _ _ => true
  | .opRun len1 => legalRun len1
  | .opRgb _ _ _ => true
  | .opRgba _ _ _ _ => true
  | .header w h c cs => legalHeader p w h c cs
  | .endMarker => true

end Sys2Proof
end

