-- ==== Sys2Proof/Safety.lean ====
section
/-! DEFINITION. What the claims say: the invariants of a run, and what a chunk, a pass and a stream leave behind, in terms of
single bytes and registers. -/

namespace Sys2Proof.Safety

open Sys2Proof.Machine

/-! ### Pixels in the raw buffer -/

/-- R62: pixel number `k` of a raw buffer with `c` channels is `p`: its samples stand at `k × c` on, in the order R, G, B
and, when there are 4 channels, A. -/
def PixelAt (m : Memory) (c k : Nat) (p : Pixel) : Prop :=
  m.read (k * c) = p.r ∧ m.read (k * c + 1) = p.g ∧ m.read (k * c + 2) = p.b ∧ (c = 4 → m.read (k * c + 3) = p.a)

/-! ### What a chunk leaves behind -/

/-- A decode pass is about to apply a chunk (R193). -/
structure ChunkReady (s : State) : Prop where
  phase    : s.phase = .decChunks
  pixels   : s.pixPos.toNat < s.job.n
  count    : s.job.n ≤ 4294967295
  channels : s.job.c = 3 ∨ s.job.c = 4

/-- What a decoded chunk of `len` bytes leaves beside `prev` and `cache`, when it writes `k` copies of `p`: the pixels
written, every other byte of OUT kept, the counters advanced, and the pass completed exactly when N pixels are done (R193,
R195, R197). -/
structure Decoded (s t : State) (p : Pixel) (k len : Nat) : Prop where
  pixPos  : t.pixPos.toNat = s.pixPos.toNat + k
  inPos   : t.inPos = s.inPos + BitVec.ofNat 64 len
  outPos  : t.outPos = s.outPos + BitVec.ofNat 64 (k * s.job.c.toNat)
  written : ∀ j, j < k → PixelAt t.outBuf s.job.c.toNat (s.pixPos.toNat + j) p
  outside : ∀ a, a < s.pixPos.toNat * s.job.c.toNat ∨ (s.pixPos.toNat + k) * s.job.c.toNat ≤ a →
    t.outBuf.read a = s.outBuf.read a
  kept    : t.run = s.run ∧ t.job = s.job ∧ t.inBuf = s.inBuf ∧ t.params = s.params ∧ t.draws = s.draws ∧
    t.host = s.host ∧ t.readData = s.readData
  goesOn  : s.pixPos.toNat + k < s.job.n → t.phase = .decChunks ∧ t.csr = s.csr
  ends    : s.pixPos.toNat + k = s.job.n → t.phase = .done ∧
    t.csr = { s.csr with status := 0x00000002, outLen := t.outPos, inPos := t.inPos, pixPos := t.pixPos }

/-- R140: the non-run update by `px`: `prev` is `px`, the slot of `px` holds it, and no other slot changes. -/
structure NonRun (s t : State) (px : Pixel) : Prop where
  prev   : t.prev = px
  slot   : lookup t.cache (cacheIndex px) = px
  others : ∀ i, i ≠ cacheIndex px → lookup t.cache i = lookup s.cache i

/-- An encode pass is about to code a pixel (R173). -/
structure PixelReady (s : State) : Prop where
  phase  : s.phase = .encPixels
  pixels : s.pixPos.toNat < s.job.n
  count  : s.job.n ≤ 4294967295

/-- What a pixel step that emits the bytes `sb` leaves beside `prev`, `cache` and `run`: the bytes at `out_pos`, every
other byte of OUT kept, and the counters advanced (R173, R175). -/
structure Emitted (s t : State) (sb : List Byte) : Prop where
  bytes   : t.outBuf.readBytes s.outPos.toNat sb.length = sb
  outside : ∀ a, a < s.outPos.toNat ∨ s.outPos.toNat + sb.length ≤ a → t.outBuf.read a = s.outBuf.read a
  outPos  : t.outPos.toNat = s.outPos.toNat + sb.length
  pixPos  : t.pixPos.toNat = s.pixPos.toNat + 1
  inPos   : t.inPos = s.inPos + BitVec.ofNat 64 s.job.c.toNat
  phase   : t.phase = if s.pixPos.toNat + 1 = s.job.n then .encTrailer else .encPixels
  kept    : t.job = s.job ∧ t.csr = s.csr ∧ t.inBuf = s.inBuf ∧ t.params = s.params ∧ t.draws = s.draws ∧
    t.host = s.host ∧ t.readData = s.readData

/-- The bytes fit below OUT_CAP (R68, R175). -/
def Fits (s : State) (sb : List Byte) : Prop := s.outPos.toNat + sb.length ≤ s.job.outCap.toNat

/-- What taking the error numbered `code` of class `cls` leaves (R222, R223), beside the CSRs WIDTH to COLORSPACE: STATUS,
the three counters as they were, the phase, and nothing else written but OUT below OUT_CAP, which holds any value. -/
structure Failed (s t : State) (cls code : Nat) : Prop where
  status   : t.csr.status = BitVec.ofNat 32 (cls * 65536 + code * 256 + 4)
  counters : t.csr.outLen = s.outPos ∧ t.csr.inPos = s.inPos ∧ t.csr.pixPos = s.pixPos
  csrs     : t.csr.ctrl = s.csr.ctrl ∧ t.csr.inLen = s.csr.inLen ∧ t.csr.outCap = s.csr.outCap
  phase    : t.phase = .error
  precise  : t.prev = s.prev ∧ t.cache = s.cache ∧ t.run = s.run ∧ t.pixPos = s.pixPos ∧ t.inPos = s.inPos ∧
    t.outPos = s.outPos ∧ t.job = s.job
  outside  : ∀ a, s.job.outCap.toNat ≤ a → t.outBuf.read a = s.outBuf.read a
  kept     : t.inBuf = s.inBuf ∧ t.params = s.params ∧ t.host = s.host ∧ t.readData = s.readData

/-- The CSRs WIDTH to COLORSPACE hold these values. -/
def HeaderCsrs (s : State) (w h : Word32) (c cs : Byte) : Prop :=
  s.csr.width = w ∧ s.csr.height = h ∧ s.csr.channels = c ∧ s.csr.colorspace = cs

/-- `Failed`, with WIDTH to COLORSPACE as they were: every error but a decode pass's header error (R222, R223). -/
def FailedKeepingCsrs (s t : State) (cls code : Nat) : Prop :=
  Failed s t cls code ∧ HeaderCsrs t s.csr.width s.csr.height s.csr.channels s.csr.colorspace

/-- R30 to R41: the value each CSR holds, register by register. The bits above a register's width, and the reserved
registers, are 0. -/
def CsrMap (s : State) : Prop :=
  s.csrValue 0 = s.csr.ctrl.setWidth 64 ∧ s.csrValue 1 = s.csr.status.setWidth 64 ∧
  s.csrValue 2 = s.csr.width.setWidth 64 ∧ s.csrValue 3 = s.csr.height.setWidth 64 ∧
  s.csrValue 4 = s.csr.channels.setWidth 64 ∧ s.csrValue 5 = s.csr.colorspace.setWidth 64 ∧
  s.csrValue 6 = s.csr.inLen ∧ s.csrValue 7 = s.csr.outCap ∧ s.csrValue 8 = s.csr.outLen ∧
  s.csrValue 9 = s.csr.inPos ∧ s.csrValue 10 = s.csr.pixPos.setWidth 64 ∧
  ∀ reg : BitVec 4, 11 ≤ reg.toNat → s.csrValue reg = 0

/-! ### The invariants of a run -/

/-- R28, R32, R42: STATUS tells the phase: 0 after reset, BUSY alone in a pass, DONE alone after one, and ERR with a code
that some step raises and its class after a failed one. -/
def StatusFollowsPhase (s : State) : Prop :=
  match s.phase with
  | .idle => s.csr.status = 0
  | .encHeader | .encPixels | .encTrailer | .decHeader | .decChunks => s.csr.status = statusBusy
  | .done => s.csr.status = statusDone
  | .error => ∃ e, e ≠ .decBadTag ∧ s.csr.status = statusError e

/-- R242: the per-pass initial state. -/
def Fresh (s : State) : Prop :=
  s.prev = Pixel.start ∧ s.cache = Vector.replicate 64 Pixel.zero ∧ s.run = 0 ∧ s.pixPos = 0 ∧ s.inPos = 0 ∧ s.outPos = 0

/-- The job is a legal image and its pixel count is exact (R29, R111, R113). -/
def LegalJob (s : State) : Prop :=
  legalHeader s.params s.job.w s.job.h s.job.c s.job.cs = true ∧ s.job.n = s.job.w.toNat * s.job.h.toNat

/-- What holds between two steps of an encode pass once its header is written: R26 for `in_pos`, R37 for IN_LEN, R68 for
`out_pos`, R180 for alpha, and R179's bounds on what has been written for the pixels done so far. -/
structure EncodeFacts (s : State) : Prop where
  mode     : s.job.mode = .enc
  legal    : LegalJob s
  inLen    : s.job.inLen.toNat = s.job.n * s.job.c.toNat
  inPos    : s.inPos.toNat = s.pixPos.toNat * s.job.c.toNat
  room     : s.outPos.toNat ≤ s.job.outCap.toNat
  alpha    : s.job.c = 3 → s.prev.a = 255
  run      : s.run.toNat ≤ 61
  pending  : s.run.toNat ≤ s.pixPos.toNat
  sizeLow  : 14 ≤ s.outPos.toNat ∧ s.pixPos.toNat ≤ 62 * (s.outPos.toNat - 14) + s.run.toNat
  sizeHigh : s.outPos.toNat ≤ 14 + (s.pixPos.toNat - s.run.toNat) * (s.job.c.toNat + 1)

/-- What holds between two steps of a decode pass once its header is accepted: R24 for `run`, R195 for `out_pos`, R192 for
the capacity, and the bounds of `in_pos`. -/
structure DecodeFacts (s : State) : Prop where
  mode   : s.job.mode = .dec
  legal  : LegalJob s
  fits   : s.job.n * s.job.c.toNat ≤ s.job.outCap.toNat
  outPos : s.outPos.toNat = s.pixPos.toNat * s.job.c.toNat
  inPos  : 14 ≤ s.inPos.toNat ∧ s.inPos.toNat ≤ s.job.inLen.toNat
  run    : s.run = 0

/-- R39 to R41: after a pass the counters stand in their CSRs. -/
def Ended (s : State) : Prop := s.csr.outLen = s.outPos ∧ s.csr.inPos = s.inPos ∧ s.csr.pixPos = s.pixPos

/-- What holds in each phase. In an ended encode pass OUT_LEN obeys R179; in an ended decode pass it is N × C (R39). -/
def PhaseFacts (s : State) : Prop :=
  match s.phase with
  | .idle => True
  | .encHeader => s.job.mode = .enc ∧ Fresh s ∧ HeaderCsrs s s.job.w s.job.h s.job.c s.job.cs
  | .encPixels => EncodeFacts s ∧ HeaderCsrs s s.job.w s.job.h s.job.c s.job.cs ∧ s.pixPos.toNat < s.job.n
  | .encTrailer => EncodeFacts s ∧ HeaderCsrs s s.job.w s.job.h s.job.c s.job.cs ∧ s.pixPos.toNat = s.job.n ∧ s.run = 0
  | .decHeader => s.job.mode = .dec ∧ Fresh s
  | .decChunks => DecodeFacts s ∧ HeaderCsrs s s.job.w s.job.h s.job.c s.job.cs ∧ s.pixPos.toNat < s.job.n
  | .done => Ended s ∧ LegalJob s ∧ s.pixPos.toNat = s.job.n ∧
      (s.job.mode = .enc → s.inPos.toNat = s.job.n * s.job.c.toNat ∧ 22 ≤ s.outPos.toNat ∧
        s.job.n ≤ 62 * (s.outPos.toNat - 22) ∧ s.outPos.toNat ≤ 22 + s.job.n * (s.job.c.toNat + 1)) ∧
      (s.job.mode = .dec → s.outPos.toNat = s.job.n * s.job.c.toNat ∧ 14 ≤ s.inPos.toNat ∧
        s.inPos.toNat ≤ s.job.inLen.toNat)
  | .error => Ended s

/-- The invariant of a run: the parameter is legal, STATUS tells the phase, CTRL's reserved bits are 0 (R31), the job of a
running pass is what the CSRs held at START (R29), and the facts of the phase. -/
structure PassInv (s : State) : Prop where
  params : s.params.legal
  status : StatusFollowsPhase s
  ctrl   : s.csr.ctrl = 0 ∨ s.csr.ctrl = 2
  job    : s.csr.status = statusBusy → s.job.inLen = s.csr.inLen ∧ s.job.outCap = s.csr.outCap
  facts  : PhaseFacts s

/-- Both buffers are in canonical form, and the host's own buffer IN is nowhere left at any value. -/
def BuffersCanonical (s : State) : Prop := s.inBuf.wf = true ∧ s.outBuf.wf = true ∧ s.inBuf.holes = []

/-- R133, R134: every cache slot holds a zero pixel or a pixel that hashes to that slot. -/
def CacheAtHome (s : State) : Prop :=
  ∀ i : BitVec 6, lookup s.cache i = Pixel.zero ∨ cacheIndex (lookup s.cache i) = i

end Sys2Proof.Safety
end

