-- ==== Sys2Proof/Certificates/Slice0/Obligations.lean ====
section
/-! DEFINITION. The statements for the provers. Each docstring names the rules of spec/ it rests on. -/

open Sys2Proof Sys2Proof.Machine Sys2Proof.Safety

/-! ### Encoding (30_encoding.md) -/

/-- R82 to R87, R93, R94: the bytes of every legal instruction, in its own slot and before any other bytes, decode to that
instruction and leave the other bytes. -/
def Obligations.DecodeInvertsEncode : Prop :=
  ∀ (p : Config.Params) (i : Instr) (rest : List Byte), i.wellFormed p = true →
    decode i.slot (encode i ++ rest) = .ok (i, rest)

/-- The other direction: bytes that decode are the bytes of what they decode to, and it stands in that slot; so each byte
string has one meaning (R80, R90). -/
def Obligations.EncodeInvertsDecode : Prop :=
  ∀ (sl : Slot) (bs rest : List Byte) (i : Instr), decode sl bs = .ok (i, rest) → bs = encode i ++ rest ∧ i.slot = sl

/-- R90: every first byte selects exactly one chunk form, by these ranges and with these lengths, whatever bytes follow. -/
def Obligations.EveryFirstByteSelectsOneForm : Prop :=
  ∀ (b0 : Byte) (more : List Byte), 4 ≤ more.length →
    ∃ i rest, decode .chunk (b0 :: more) = .ok (i, rest) ∧ rest.length + chunkLen b0 = more.length + 1 ∧
      ((∃ x, i = .opIndex x) ↔ b0.toNat ≤ 0x3F) ∧
      ((∃ x y z, i = .opDiff x y z) ↔ 0x40 ≤ b0.toNat ∧ b0.toNat ≤ 0x7F) ∧
      ((∃ x y z, i = .opLuma x y z) ↔ 0x80 ≤ b0.toNat ∧ b0.toNat ≤ 0xBF) ∧
      ((∃ x, i = .opRun x) ↔ 0xC0 ≤ b0.toNat ∧ b0.toNat ≤ 0xFD) ∧
      ((∃ x y z, i = .opRgb x y z) ↔ b0.toNat = 0xFE) ∧
      ((∃ x y z u, i = .opRgba x y z u) ↔ b0.toNat = 0xFF) ∧
      chunkLen b0 = (if b0.toNat ≤ 0x7F then 1 else if b0.toNat ≤ 0xBF then 2 else if b0.toNat ≤ 0xFD then 1
        else if b0.toNat = 0xFE then 4 else 5)

/-- R82 to R87, R93, R94: words written out from the layouts decode to what they stand for. -/
def Obligations.WrittenOutWordsDecode : Prop :=
  decode .chunk [0b00110001] = .ok (.opIndex 49, []) ∧
  decode .chunk [0b01111001] = .ok (.opDiff 3 2 1, []) ∧
  decode .chunk [0b10101100, 0b01100001] = .ok (.opLuma 44 6 1, []) ∧
  decode .chunk [0b11000010] = .ok (.opRun 2, []) ∧
  decode .chunk [0xFE, 0x0A, 0x14, 0x1E] = .ok (.opRgb 10 20 30, []) ∧
  decode .chunk [0xFF, 0x01, 0x02, 0x03, 0x04] = .ok (.opRgba 1 2 3 4, []) ∧
  decode .header [0x71, 0x6F, 0x69, 0x66, 0, 0, 0, 2, 0, 0, 0, 1, 3, 0] = .ok (.header 2 1 3 0, []) ∧
  decode .trailer [0, 0, 0, 0, 0, 0, 0, 1] = .ok (.endMarker, [])

/-! ### Reset, START and the CSRs (10_state.md, 70_reset_and_hazards.md) -/

/-- R240: the machine after reset is in IDLE, every CSR reads 0 whatever the host read before, and `done_irq` is 0. -/
def Obligations.ResetStateReadsZero : Prop :=
  State.reset.phase = .idle ∧ State.reset.doneIrq = false ∧
    ∀ reg d, step { State.reset with host := [.readCsr reg], readData := d } = .next { State.reset with readData := 0 }

/-- R240, R241: a reset, from any state, ends any pass without DONE or ERR and leaves every CSR 0; it touches neither IN nor
OUT, but that OUT below OUT_CAP holds any value when a pass was running. -/
def Obligations.ResetAbandonsPass : Prop :=
  ∀ (s : State) (rest : List HostMove), s.host = .assertReset :: rest →
    ∃ t, step s = .next t ∧ t.phase = .idle ∧ t.csr = Csrs.reset ∧ t.doneIrq = false ∧ t.inBuf = s.inBuf ∧
      t.params = s.params ∧ t.host = rest ∧ (s.busy = false → t.outBuf = s.outBuf) ∧
      ∀ a, s.job.outCap.toNat ≤ a → t.outBuf.read a = s.outBuf.read a

/-- R170, R190: a write to CTRL with START = 1 while STATUS.BUSY = 0 starts a pass of the mode just written: the job is
taken from the CSRs, STATUS is BUSY alone, the codec state is the per-pass initial state, and IN, OUT and the other CSRs
stay. -/
def Obligations.StartOpensPass : Prop :=
  ∀ (s : State) (rest : List HostMove) (v : BitVec 64), s.host = .writeCsr 0 v :: rest → s.busy = false →
    v.getLsbD 0 = true →
    ∃ t, step s = .next t ∧ Fresh t ∧
      t.csr = { s.csr with ctrl := if v.getLsbD 1 then 2 else 0, status := 0x00000001 } ∧
      t.inBuf = s.inBuf ∧ t.outBuf = s.outBuf ∧ t.params = s.params ∧ t.host = rest ∧
      t.draws = s.draws ∧ t.readData = s.readData ∧
      t.job.inLen = s.csr.inLen ∧ t.job.outCap = s.csr.outCap ∧
      (v.getLsbD 1 = false → t.phase = .encHeader ∧ t.job.mode = .enc ∧ t.job.w = s.csr.width ∧
        t.job.h = s.csr.height ∧ t.job.c = s.csr.channels ∧ t.job.cs = s.csr.colorspace ∧
        t.job.n = s.csr.width.toNat * s.csr.height.toNat) ∧
      (v.getLsbD 1 = true → t.phase = .decHeader ∧ t.job.mode = .dec)

/-- R46, R30: while BUSY every CSR write is ignored, a START too; CSR reads are always allowed and change only the host's
read value and the count of free values. OUT_LEN, IN_POS and PIX_POS, and in decode mode WIDTH, HEIGHT, CHANNELS and
COLORSPACE, read a free value kept to the register's bits in use, which are 64 in OUT_LEN and IN_POS, 32 in WIDTH, HEIGHT
and PIX_POS, and 8 in CHANNELS and COLORSPACE (R35, R36); every other register reads what it holds, STATUS its true
value and the reserved registers 0. That the free value is a new one at each read, numbered by `draws`, is the model's
choice (log entry 4), and so are the 64 bits of a read (log entry 8). -/
def Obligations.BusyCsrAccess : Prop :=
  ∀ (s : State) (rest : List HostMove) (reg : BitVec 4), s.busy = true →
    (∀ v, s.host = .writeCsr reg v :: rest → step s = .next { s with host := rest }) ∧
    (s.host = .readCsr reg :: rest → step s =
      if 8 ≤ reg.toNat ∧ reg.toNat ≤ 10 ∨ s.job.mode = .dec ∧ 2 ≤ reg.toNat ∧ reg.toNat ≤ 5 then
        .next { s with
          host := rest, readData := Config.anyCsr s.draws reg.toNat &&& csrMask reg, draws := s.draws + 1 }
      else .next { s with host := rest, readData := s.csrValue reg }) ∧
    CsrMap s ∧
    (reg = 2 ∨ reg = 3 ∨ reg = 10 → csrMask reg = 0xFFFFFFFF) ∧ (reg = 4 ∨ reg = 5 → csrMask reg = 0xFF) ∧
    (reg = 8 ∨ reg = 9 → csrMask reg = 0xFFFFFFFFFFFFFFFF)

/-- R30 to R41: outside a pass a CSR write without START changes only the CSR it names, which then holds the bits
in use of the written value; STATUS, OUT_LEN, IN_POS, PIX_POS and the reserved registers ignore it. A read returns what
the CSR holds, register by register, reserved registers reading 0. That a bus value has 64 bits, of which a narrower register takes the low ones,
is the model's choice (log entry 8). -/
def Obligations.IdleCsrAccess : Prop :=
  ∀ (s : State) (rest : List HostMove) (reg : BitVec 4), s.busy = false →
    (∀ v, s.host = .writeCsr reg v :: rest → (reg = 0 → v.getLsbD 0 = false) →
      ∃ t, step s = .next t ∧ t = { s with host := rest, csr := t.csr } ∧
        (∀ other, other ≠ reg → t.csrValue other = s.csrValue other) ∧
        t.csrValue reg =
          (if reg = 0 then v &&& 2
           else if reg = 2 ∨ reg = 3 then v &&& 0xFFFFFFFF
           else if reg = 4 ∨ reg = 5 then v &&& 0xFF
           else if reg = 6 ∨ reg = 7 then v
           else s.csrValue reg) ∧ CsrMap t) ∧
    (s.host = .readCsr reg :: rest → step s = .next { s with host := rest, readData := s.csrValue reg }) ∧
    CsrMap s

/-- R69, R73, R75, U6: the host's access to the buffers. Outside a pass it writes and reads single bytes of both; in a pass
the engine is the only agent that touches them, and every access of the host is refused. That a broken duty is answered by
a refusal is the model's reading of U6 (log entry 11). -/
def Obligations.HostBufferAccess : Prop :=
  ∀ (s : State) (rest : List HostMove) (a : Addr) (v : Byte),
    (s.busy = false →
      (s.host = .readIn a :: rest →
        step s = .next { s with host := rest, readData := (s.inBuf.read a.toNat).setWidth 64 }) ∧
      (s.host = .writeIn a v :: rest → ∃ t, step s = .next t ∧ t.inBuf.read a.toNat = v ∧
        (∀ b, b ≠ a.toNat → t.inBuf.read b = s.inBuf.read b) ∧ t = { s with host := rest, inBuf := t.inBuf }) ∧
      (s.host = .writeOut a v :: rest → ∃ t, step s = .next t ∧ t.outBuf.read a.toNat = v ∧
        (∀ b, b ≠ a.toNat → t.outBuf.read b = s.outBuf.read b) ∧ t = { s with host := rest, outBuf := t.outBuf }) ∧
      (s.host = .readOut a :: rest →
        step s = .next { s with host := rest, readData := (s.outBuf.read a.toNat).setWidth 64 })) ∧
    (s.busy = true →
      (s.host = .writeIn a v :: rest → step s = .refused .hostDutyBroken) ∧
      (s.host = .readIn a :: rest → step s = .refused .hostDutyBroken) ∧
      (s.host = .writeOut a v :: rest → step s = .refused .hostDutyBroken) ∧
      (s.host = .readOut a :: rest → step s = .refused .hostDutyBroken))

/-! ### A step runs an instruction -/

/-- R193: with no host move waiting, a decode pass's chunk step is the execution of the chunk whose bytes stand at
`in_pos`. -/
def Obligations.StepRunsChunkAtInPos : Prop :=
  ∀ (s : State) (i : Instr), s.host = [] → s.phase = .decChunks → s.pixPos.toNat < s.job.n →
    s.inPos.toNat + (encode i).length ≤ s.job.inLen.toNat → i.slot = .chunk → i.wellFormed s.params = true →
    s.inBuf.readBytes s.inPos.toNat (encode i).length = encode i → step s = exec i s

/-- R113: with no host move waiting, a decode pass's header step is the execution of the header whose bytes stand at IN
offset 0, legal or not. -/
def Obligations.StepRunsHeaderAtZero : Prop :=
  ∀ (s : State) (w h : Word32) (c cs : Byte), s.host = [] → s.phase = .decHeader → 14 ≤ s.job.inLen.toNat →
    s.inBuf.readBytes 0 14 = encode (.header w h c cs) → step s = exec (.header w h c cs) s

/-- R171, R173: with no host move waiting, an encode pass's step is the execution of the job's header, of the chunk the
pixel step emits for its pixel, or of the end marker. A pixel that joins a run without a flush is no instruction: the run
grows by one and nothing is emitted. Which instruction a pixel step is said to execute, and that a run that goes on is none,
is the model's choice (log entry 18); the bytes and the state are R173's. -/
def Obligations.StepRunsEncoderRecord : Prop :=
  ∀ s : State, s.host = [] →
    (s.phase = .encHeader → step s = exec (.header s.job.w s.job.h s.job.c s.job.cs) s) ∧
    (s.phase = .encTrailer → step s = exec .endMarker s) ∧
    (PixelReady s → ∀ i, s.nextChunk = some i → step s = exec i s) ∧
    (PixelReady s → s.nextChunk = none → Fits s [] →
      ∃ t, step s = .next t ∧ Emitted s t [] ∧ t.run = s.run + 1 ∧ t.prev = s.prev ∧ t.cache = s.cache)

/-- R171, R191: the phases have no other transitions. Handed to `exec` in a phase of a pass that does not run it, or to an
encoder that does not select it, an instruction stops by name (the model's choice, log entry 7; `step` never does this); in
IDLE, DONE and ERROR it changes nothing (R225, R235). -/
def Obligations.ExecOutsideItsPhase : Prop :=
  ∀ (s : State) (i : Instr),
    (s.phase = .idle ∨ s.phase = .done ∨ s.phase = .error → exec i s = .next s) ∧
    (i.slot = .chunk → s.phase = .encHeader ∨ s.phase = .encTrailer ∨ s.phase = .decHeader →
      exec i s = .fault .noTransition) ∧
    (i.slot = .chunk → s.phase = .encPixels → s.nextChunk ≠ some i → exec i s = .fault .noTransition) ∧
    (i.slot = .header → s.phase = .encPixels ∨ s.phase = .encTrailer ∨ s.phase = .decChunks →
      exec i s = .fault .noTransition) ∧
    (i.slot = .header → s.phase = .encHeader → i ≠ .header s.job.w s.job.h s.job.c s.job.cs →
      exec i s = .fault .noTransition) ∧
    (i = .endMarker → s.phase = .encHeader ∨ s.phase = .encPixels ∨ s.phase = .decHeader ∨ s.phase = .decChunks →
      exec i s = .fault .noTransition)

/-! ### Decoding a chunk (42_chunk_codec.md) -/

/-- R145: OP_INDEX, decode side. -/
def Obligations.IndexDecodes : Prop :=
  ∀ (s : State) (idx : BitVec 6), ChunkReady s →
    ∃ t, exec (.opIndex idx) s = .next t ∧ NonRun s t (lookup s.cache idx) ∧ Decoded s t (lookup s.cache idx) 1 1

/-- R147: OP_DIFF, decode side. -/
def Obligations.DiffDecodes : Prop :=
  ∀ (s : State) (dr2 dg2 db2 : BitVec 2), ChunkReady s →
    let px : Pixel := ⟨BitVec.ofInt 8 (s.prev.r.toNat + dr2.toNat - 2), BitVec.ofInt 8 (s.prev.g.toNat + dg2.toNat - 2),
      BitVec.ofInt 8 (s.prev.b.toNat + db2.toNat - 2), s.prev.a⟩
    ∃ t, exec (.opDiff dr2 dg2 db2) s = .next t ∧ NonRun s t px ∧ Decoded s t px 1 1

/-- R149: OP_LUMA, decode side. -/
def Obligations.LumaDecodes : Prop :=
  ∀ (s : State) (dg32 : BitVec 6) (drg8 dbg8 : BitVec 4), ChunkReady s →
    let vg : Int := dg32.toNat - 32
    let px : Pixel := ⟨BitVec.ofInt 8 (s.prev.r.toNat + vg - 8 + drg8.toNat), BitVec.ofInt 8 (s.prev.g.toNat + vg),
      BitVec.ofInt 8 (s.prev.b.toNat + vg - 8 + dbg8.toNat), s.prev.a⟩
    ∃ t, exec (.opLuma dg32 drg8 dbg8) s = .next t ∧ NonRun s t px ∧ Decoded s t px 1 2

/-- R143: OP_RUN, decode side. The run is cut to the pixels that remain; neither `prev` nor `cache` changes. -/
def Obligations.RunDecodes : Prop :=
  ∀ (s : State) (len1 : BitVec 6), ChunkReady s →
    ∃ t, exec (.opRun len1) s = .next t ∧ t.prev = s.prev ∧ t.cache = s.cache ∧
      Decoded s t s.prev (min (len1.toNat + 1) (s.job.n - s.pixPos.toNat)) 1

/-- R151: OP_RGB, decode side. -/
def Obligations.RgbDecodes : Prop :=
  ∀ (s : State) (r g b : Byte), ChunkReady s →
    ∃ t, exec (.opRgb r g b) s = .next t ∧ NonRun s t ⟨r, g, b, s.prev.a⟩ ∧ Decoded s t ⟨r, g, b, s.prev.a⟩ 1 4

/-- R153: OP_RGBA, decode side. -/
def Obligations.RgbaDecodes : Prop :=
  ∀ (s : State) (r g b a : Byte), ChunkReady s →
    ∃ t, exec (.opRgba r g b a) s = .next t ∧ NonRun s t ⟨r, g, b, a⟩ ∧ Decoded s t ⟨r, g, b, a⟩ 1 5

/-- R194, R218, R219: a chunk step with no byte left raises DEC_TRUNC_STREAM; one whose chunk passes IN_LEN raises
DEC_TRUNC_CHUNK, and no part of the chunk is applied. -/
def Obligations.TruncationRaises : Prop :=
  ∀ s : State, s.host = [] → s.phase = .decChunks → s.pixPos.toNat < s.job.n →
    (s.job.inLen.toNat ≤ s.inPos.toNat → ∃ t, step s = .next t ∧ FailedKeepingCsrs s t 4 8) ∧
    (s.inPos.toNat < s.job.inLen.toNat →
      s.job.inLen.toNat < s.inPos.toNat + chunkLen (s.inBuf.read s.inPos.toNat) →
      ∃ t, step s = .next t ∧ FailedKeepingCsrs s t 4 9)

/-- R220: no step raises DEC_BAD_TAG: STATUS.ERRCODE is 10 after a step only if it was before. -/
def Obligations.NoStepRaisesBadTag : Prop :=
  ∀ s t : State, step s = .next t → t.errCodeField = 10 → s.errCodeField = 10

/-! ### Encoding a pixel (42_chunk_codec.md, 43_encoder.md) -/

/-- R63, R172: the pixel the encoder reads, with alpha 255 when the image has 3 channels. -/
def Obligations.EncoderReadsPixel : Prop :=
  ∀ s : State, (s.job.c = 3 → s.readPixel.a = 255) ∧
    (s.job.c = 3 ∨ s.job.c = 4 → PixelAt s.inBuf s.job.c.toNat s.pixPos.toNat s.readPixel)

/-- R154 with R144, R146, R148, R150 and R152: the encoder's tiers in strict priority order, each with the fields of its
chunk; the deltas are R141's. A pixel equal to `prev` has no chunk of its own. -/
def Obligations.DispatcherPriority : Prop :=
  ∀ (px prev : Pixel) (cache : Vector Pixel 64),
    let dr := (px.r - prev.r).toInt
    let dg := (px.g - prev.g).toInt
    let db := (px.b - prev.b).toInt
    chunkOf px prev cache =
      if px = prev then none
      else if lookup cache (cacheIndex px) = px then some (.opIndex (cacheIndex px))
      else if px.a ≠ prev.a then some (.opRgba px.r px.g px.b px.a)
      else if (dr = -2 ∨ dr = -1 ∨ dr = 0 ∨ dr = 1) ∧ (dg = -2 ∨ dg = -1 ∨ dg = 0 ∨ dg = 1) ∧
          (db = -2 ∨ db = -1 ∨ db = 0 ∨ db = 1) then
        some (.opDiff (BitVec.ofNat 2 (dr + 2).toNat) (BitVec.ofNat 2 (dg + 2).toNat) (BitVec.ofNat 2 (db + 2).toNat))
      else if (-32 ≤ dg ∧ dg < 32) ∧ (-8 ≤ dr - dg ∧ dr - dg < 8) ∧ (-8 ≤ db - dg ∧ db - dg < 8) then
        some (.opLuma (BitVec.ofNat 6 (dg + 32).toNat) (BitVec.ofNat 4 (dr - dg + 8).toNat)
          (BitVec.ofNat 4 (db - dg + 8).toNat))
      else some (.opRgb px.r px.g px.b)

/-- R144, R146, R148, R150, R152 in R173: the chunk the dispatcher selects for a pixel that differs from `prev` is emitted,
after the byte of the pending run if there is one (R174 case 3), and the non-run update follows. -/
def Obligations.ChunkEmits : Prop :=
  ∀ (s : State) (i : Instr), PixelReady s → s.readPixel ≠ s.prev → chunkOf s.readPixel s.prev s.cache = some i →
    let sb := (if s.run.toNat = 0 then [] else [BitVec.ofNat 8 (0xC0 + (s.run.toNat - 1))]) ++ encode i
    Fits s sb → ∃ t, exec i s = .next t ∧ NonRun s t s.readPixel ∧ t.run = 0 ∧ Emitted s t sb

/-- R142, R174 cases 1 and 2: a pixel equal to `prev` that makes the run 62 long, or is the image's last, flushes the run as
one OP_RUN byte; `run` is 0 after it, and neither `prev` nor `cache` changes. -/
def Obligations.RunFlushes : Prop :=
  ∀ s : State, PixelReady s → s.readPixel = s.prev → s.run.toNat < 62 →
    s.run.toNat + 1 = 62 ∨ s.pixPos.toNat + 1 = s.job.n →
    let sb : List Byte := [BitVec.ofNat 8 (0xC0 + s.run.toNat)]
    Fits s sb → ∃ t, exec (.opRun s.run) s = .next t ∧ t.run = 0 ∧ t.prev = s.prev ∧ t.cache = s.cache ∧ Emitted s t sb

/-- R175, R176, R221, R223: an encode step whose bytes would pass OUT_CAP raises OUT_OVERFLOW and writes none of them. -/
def Obligations.EncodeOverflowRaises : Prop :=
  ∀ s : State, s.host = [] →
    (PixelReady s → s.job.outCap.toNat < s.outPos.toNat +
        (if s.readPixel = s.prev then (match s.nextChunk with | some i => (encode i).length | none => 0)
         else (if s.run = 0 then 0 else 1) + (match s.nextChunk with | some i => (encode i).length | none => 0)) →
      ∃ t, step s = .next t ∧ FailedKeepingCsrs s t 5 11) ∧
    (s.phase = .encTrailer → s.job.outCap.toNat < s.outPos.toNat + 8 → ∃ t, step s = .next t ∧ FailedKeepingCsrs s t 5 11)

/-! ### The stream framer (40_stream_framer.md) -/

/-- R111, R112, R114: the ENC_HEADER step. The checks run in R111's order; a job that passes writes its 14 bytes. -/
def Obligations.HeaderEncodes : Prop :=
  ∀ s : State, s.phase = .encHeader →
    let w := s.job.w.toNat
    let h := s.job.h.toNat
    let c := s.job.c.toNat
    ∃ t, exec (.header s.job.w s.job.h s.job.c s.job.cs) s = .next t ∧
      if w = 0 ∨ h = 0 then FailedKeepingCsrs s t 2 4
      else if w * h > s.params.maxPixels then FailedKeepingCsrs s t 2 5
      else if c ≠ 3 ∧ c ≠ 4 then FailedKeepingCsrs s t 1 2
      else if s.job.cs.toNat ≠ 0 ∧ s.job.cs.toNat ≠ 1 then FailedKeepingCsrs s t 1 3
      else if s.job.inLen.toNat ≠ w * h * c then FailedKeepingCsrs s t 3 6
      else if s.outPos.toNat + 14 > s.job.outCap.toNat then FailedKeepingCsrs s t 5 11
      else t.phase = .encPixels ∧ t.job = { s.job with n := w * h } ∧ t.outPos.toNat = s.outPos.toNat + 14 ∧
        t.outBuf.readBytes s.outPos.toNat 14 =
          [0x71, 0x6F, 0x69, 0x66, BitVec.ofNat 8 (w / 16777216), BitVec.ofNat 8 (w / 65536), BitVec.ofNat 8 (w / 256),
           BitVec.ofNat 8 w, BitVec.ofNat 8 (h / 16777216), BitVec.ofNat 8 (h / 65536), BitVec.ofNat 8 (h / 256),
           BitVec.ofNat 8 h, s.job.c, s.job.cs] ∧
        (∀ a, a < s.outPos.toNat ∨ s.outPos.toNat + 14 ≤ a → t.outBuf.read a = s.outBuf.read a) ∧
        t.csr = s.csr ∧ t.inBuf = s.inBuf ∧ t.prev = s.prev ∧ t.cache = s.cache ∧ t.run = s.run ∧
        t.pixPos = s.pixPos ∧ t.inPos = s.inPos ∧ t.params = s.params ∧ t.host = s.host ∧
        t.draws = s.draws ∧ t.readData = s.readData

/-- R113, R192, R223: the DEC_HEADER step once the record is read. The checks run in R113's order; a header that fails
leaves STATUS and the counters (R222) and WIDTH to COLORSPACE at any value (nothing is said of them); one that does not fit
OUT fails with the CSRs written; one that fits opens the chunk loop. -/
def Obligations.HeaderDecodes : Prop :=
  ∀ (s : State) (w h : Word32) (c cs : Byte), s.phase = .decHeader →
    let n := w.toNat * h.toNat
    ∃ t, exec (.header w h c cs) s = .next t ∧
      if w.toNat = 0 ∨ h.toNat = 0 then Failed s t 2 4
      else if n > s.params.maxPixels then Failed s t 2 5
      else if c.toNat ≠ 3 ∧ c.toNat ≠ 4 then Failed s t 1 2
      else if cs.toNat ≠ 0 ∧ cs.toNat ≠ 1 then Failed s t 1 3
      else HeaderCsrs t w h c cs ∧
        if s.job.outCap.toNat < n * c.toNat then Failed s t 5 11
        else t.phase = .decChunks ∧ t.job = { s.job with w := w, h := h, c := c, cs := cs, n := n } ∧ t.inPos = 14 ∧
          t.csr = { s.csr with width := w, height := h, channels := c, colorspace := cs } ∧
          t.outBuf = s.outBuf ∧ t.inBuf = s.inBuf ∧ t.prev = s.prev ∧ t.cache = s.cache ∧ t.run = s.run ∧
          t.pixPos = s.pixPos ∧ t.outPos = s.outPos ∧ t.params = s.params ∧ t.host = s.host ∧ t.draws = s.draws ∧
          t.readData = s.readData

/-- R113, R211, R217: the first two checks of the DEC_HEADER step: fewer than 14 bytes raise DEC_TRUNC_HEADER, and bytes 0
to 3 other than "qoif" raise BAD_MAGIC. -/
def Obligations.HeaderRecordChecks : Prop :=
  ∀ s : State, s.host = [] → s.phase = .decHeader →
    (s.job.inLen.toNat < 14 → ∃ t, step s = .next t ∧ Failed s t 4 7) ∧
    (14 ≤ s.job.inLen.toNat → s.inBuf.readBytes 0 4 ≠ [0x71, 0x6F, 0x69, 0x66] →
      ∃ t, step s = .next t ∧ Failed s t 1 1)

/-- R115, R177: the ENC_TRAILER step writes the marker and completes the pass. -/
def Obligations.EndMarkerEncodes : Prop :=
  ∀ s : State, s.phase = .encTrailer → s.outPos.toNat + 8 ≤ s.job.outCap.toNat →
    ∃ t, exec .endMarker s = .next t ∧ t.phase = .done ∧ t.outPos.toNat = s.outPos.toNat + 8 ∧
      t.outBuf.readBytes s.outPos.toNat 8 = [0, 0, 0, 0, 0, 0, 0, 1] ∧
      (∀ a, a < s.outPos.toNat ∨ s.outPos.toNat + 8 ≤ a → t.outBuf.read a = s.outBuf.read a) ∧
      t.csr = { s.csr with status := 0x00000002, outLen := t.outPos, inPos := s.inPos, pixPos := s.pixPos } ∧
      t.job = s.job ∧ t.inBuf = s.inBuf ∧ t.prev = s.prev ∧ t.cache = s.cache ∧ t.run = s.run ∧
      t.pixPos = s.pixPos ∧ t.inPos = s.inPos ∧ t.params = s.params ∧ t.host = s.host ∧
      t.draws = s.draws ∧ t.readData = s.readData

/-! ### The color cache and the codec's properties -/

/-- R130: the hash, with the corner cases and the example the rule gives. -/
def Obligations.CacheIndexIsHash : Prop :=
  (∀ p : Pixel, (cacheIndex p).toNat = (3 * p.r.toNat + 5 * p.g.toNat + 7 * p.b.toNat + 11 * p.a.toNat) % 64 ∧
    3 * p.r.toNat + 5 * p.g.toNat + 7 * p.b.toNat + 11 * p.a.toNat ≤ 6630) ∧
  cacheIndex ⟨0, 0, 0, 0⟩ = 0 ∧ cacheIndex ⟨0, 0, 0, 255⟩ = 53 ∧ cacheIndex ⟨255, 255, 255, 255⟩ = 38 ∧
  cacheIndex ⟨128, 128, 128, 255⟩ = 53 ∧ cacheIndex ⟨10, 20, 30, 255⟩ = 9

/-- R158: the chunk the encoder codes a pixel with, decoded with the same `prev` and `cache`, yields exactly that pixel. -/
def Obligations.CodecIsExact : Prop :=
  ∀ (px : Pixel) (s : State) (i : Instr), ChunkReady s → chunkOf px s.prev s.cache = some i →
    ∃ t, exec i s = .next t ∧ t.prev = px ∧ PixelAt t.outBuf s.job.c.toNat s.pixPos.toNat px

/-- R157: a decoded chunk changes alpha only if it is OP_RGBA or OP_INDEX, and a pixel whose alpha differs is coded with
one of these two. -/
def Obligations.OnlyRgbaAndIndexChangeAlpha : Prop :=
  (∀ (s t : State) (i : Instr), s.phase = .decChunks → exec i s = .next t → t.prev.a ≠ s.prev.a →
    (∃ x, i = .opIndex x) ∨ ∃ r g b a, i = .opRgba r g b a) ∧
  ∀ (px prev : Pixel) (cache : Vector Pixel 64) (i : Instr), px.a ≠ prev.a → chunkOf px prev cache = some i →
    (∃ x, i = .opIndex x) ∨ ∃ r g b a, i = .opRgba r g b a

/-- R180: an encode pass of a 3-channel image never emits OP_RGBA. -/
def Obligations.ThreeChannelsNeverRgba : Prop :=
  ∀ (s : State) (r g b a : Byte), PassInv s → s.phase = .encPixels → s.job.c = 3 → s.nextChunk ≠ some (.opRgba r g b a)

/-! ### Whole-machine rules -/

/-- The machine stops only when the host touches IN or OUT in a pass (R69, R73, R75): `step` never faults, and it refuses
nothing else. The refusal is log entry 11's. -/
def Obligations.StepStopsOnlyOnBrokenDuty : Prop :=
  ∀ s : State, (∀ f, step s ≠ .fault f) ∧
    ∀ r, step s = .refused r → r = .hostDutyBroken ∧ s.busy = true ∧
      ∃ a v rest, s.host = .writeIn a v :: rest ∨ s.host = .readIn a :: rest ∨ s.host = .writeOut a v :: rest ∨
        s.host = .readOut a :: rest

/-- R246: the host makes no access and the engine takes one step: the move `wait` comes off the list, and that is all it
does itself. With no move left the engine steps on (that order is the model's choice, log entry 13). -/
def Obligations.WaitIsOneEngineStep : Prop :=
  ∀ (s : State) (rest : List HostMove),
    (s.host = .wait :: rest → step s = engineStep { s with host := rest }) ∧ (s.host = [] → step s = engineStep s)

/-- R246, R228: an engine step is the same whatever moves the host has still to make and whatever it last read; so what the
statements say of a step with no move waiting holds of every engine step that a `wait` grants. -/
def Obligations.EngineStepIgnoresHost : Prop :=
  ∀ (s : State) (moves : List HostMove) (d : BitVec 64), ∃ t, engineStep s = .next t ∧
    engineStep { s with host := moves, readData := d } = .next { t with host := moves, readData := d }

/-- R225, R235: in IDLE, DONE and ERROR the engine keeps all state, its step and a `wait` of the host alike, and each of the
three lasts until an accepted START or a reset. -/
def Obligations.EndedPhasesLast : Prop :=
  ∀ s t : State, s.phase = .idle ∨ s.phase = .done ∨ s.phase = .error → step s = .next t →
    (s.host = [] → t = s) ∧ (∀ rest, s.host = .wait :: rest → t = { s with host := rest }) ∧
    (t.phase = s.phase ∨ ∃ rest, s.host = .assertReset :: rest ∨
      ∃ v, s.host = .writeCsr 0 v :: rest ∧ v.getLsbD 0 = true ∧ s.busy = false)

/-- R60: the engine never writes IN; only the host does. -/
def Obligations.OnlyHostWritesIn : Prop :=
  ∀ s t : State, step s = .next t → t.inBuf = s.inBuf ∨ ∃ a v rest, s.host = .writeIn a v :: rest

/-- R60: the engine never reads OUT: with other bytes in OUT it does the same to everything else. -/
def Obligations.EngineNeverReadsOut : Prop :=
  ∀ (s : State) (m : Memory), ∃ t t', engineStep s = .next t ∧ engineStep { s with outBuf := m } = .next t' ∧
    { t' with outBuf := t.outBuf } = t

/-- R68: the engine reads IN only below IN_LEN, in either direction: with other bytes at and beyond it, the engine does the
same to everything else. -/
def Obligations.EngineReadsBelowInLen : Prop :=
  ∀ (s : State) (m : Memory), PassInv s → (∀ a, a < s.job.inLen.toNat → m.read a = s.inBuf.read a) →
    ∃ t, engineStep s = .next t ∧ engineStep { s with inBuf := m } = .next { t with inBuf := m }

/-- R193, R196: a chunk step reads the bytes of its own chunk alone: no other byte of IN, within IN_LEN or beyond it, changes
anything it does. -/
def Obligations.ChunkStepReadsItsChunk : Prop :=
  ∀ (s : State) (m : Memory), s.phase = .decChunks →
    (∀ a, s.inPos.toNat ≤ a → a < s.inPos.toNat + chunkLen (s.inBuf.read s.inPos.toNat) → m.read a = s.inBuf.read a) →
    ∃ t, engineStep s = .next t ∧ engineStep { s with inBuf := m } = .next { t with inBuf := m }

/-- R68: the engine writes OUT only below OUT_CAP. -/
def Obligations.EngineWritesBelowCap : Prop :=
  ∀ s t : State, PassInv s → engineStep s = .next t → ∀ a, s.job.outCap.toNat ≤ a → t.outBuf.read a = s.outBuf.read a

/-- R27: within a pass `out_pos` never decreases, and bytes already written stay while the pass does not fail. -/
def Obligations.OutPosNeverDecreases : Prop :=
  ∀ s t : State, PassInv s → engineStep s = .next t → s.outPos.toNat ≤ t.outPos.toNat ∧
    (t.phase ≠ .error → ∀ a, a < s.outPos.toNat → t.outBuf.read a = s.outBuf.read a)

/-- Every step keeps both buffers in canonical form, which is the model's own (log entries 2 and 3). -/
def Obligations.StepKeepsBuffersCanonical : Prop :=
  ∀ s t : State, BuffersCanonical s → step s = .next t → BuffersCanonical t

/-- R133, R134: every step keeps each cache slot at a zero pixel or a pixel that hashes to it. R44 and R45 leave the cache
unspecified outside a pass: for a reset step the statement rests on the zero cache of log entry 1, and after a pass on the
kept cache of log entry 10, both the model's choice. -/
def Obligations.StepKeepsCacheAtHome : Prop :=
  ∀ s t : State, CacheAtHome s → step s = .next t → CacheAtHome t

/-- Every step keeps the invariant of a run: STATUS follows the phase, the counters stay in their ranges, the run counter
below 62, and an ended pass has its counters in the CSRs. What it says of `job` and the counters in DONE and ERROR rests on
log entry 10, the model's choice: R44 and U5 leave them unspecified after a pass. -/
def Obligations.StepKeepsPassInv : Prop :=
  ∀ s t : State, PassInv s → step s = .next t → PassInv t

/-- The three invariants hold after reset. This rests on the values the model names there (log entries 1, 2 and 5). -/
def Obligations.ResetMeetsInvariants : Prop :=
  PassInv State.reset ∧ BuffersCanonical State.reset ∧ CacheAtHome State.reset

/-- R28, R32, R227: in a run BUSY is 1 exactly in the five working phases, `done_irq` is 1 exactly in DONE and ERROR, and at
most one of BUSY, DONE and ERR is 1. -/
def Obligations.StatusFlagsTellPhase : Prop :=
  ∀ s : State, PassInv s →
    (s.busy = true ↔ s.phase = .encHeader ∨ s.phase = .encPixels ∨ s.phase = .encTrailer ∨ s.phase = .decHeader ∨
      s.phase = .decChunks) ∧
    (s.isDone = true ↔ s.phase = .done) ∧ (s.isErr = true ↔ s.phase = .error) ∧
    (s.doneIrq = true ↔ s.phase = .done ∨ s.phase = .error)

/-! ### Whole passes -/

/-- R171, R176, R177, R179: an encode pass of a legal image whose OUT_CAP is large enough takes exactly N + 2 steps, the
pass being BUSY before that, and ends in DONE with OUT_LEN in R179's bounds. -/
def Obligations.EncodePassCompletes : Prop :=
  ∀ s : State, PassInv s → s.host = [] → s.phase = .encHeader →
    let n := s.job.w.toNat * s.job.h.toNat
    let c := s.job.c.toNat
    legalHeader s.params s.job.w s.job.h s.job.c s.job.cs = true → s.job.inLen.toNat = n * c →
    14 + n * (c + 1) + 8 ≤ s.job.outCap.toNat →
    (∀ k, k < n + 2 → ∃ u, Sys2Proof.core.run k s = .next u ∧ u.busy = true) ∧
    ∃ t, Sys2Proof.core.run (n + 2) s = .next t ∧ t.phase = .done ∧ t.csr.pixPos.toNat = n ∧
      t.csr.inPos.toNat = n * c ∧ 22 + (n + 61) / 62 ≤ t.csr.outLen.toNat ∧ t.csr.outLen.toNat ≤ 22 + n * (c + 1) ∧
      t.outBuf.readBytes (t.csr.outLen.toNat - 8) 8 = [0, 0, 0, 0, 0, 0, 0, 1] ∧
      ∀ a, t.csr.outLen.toNat ≤ a → t.outBuf.read a = s.outBuf.read a

/-- R249: every pass reaches DONE or ERROR: an encode pass within N + 2 steps, a decode pass within 1 + N steps on an IN
stream of any content, N being the pixel count its header names. -/
def Obligations.EveryPassEnds : Prop :=
  ∀ s : State, PassInv s → s.host = [] →
    let n := (be32 (s.inBuf.read 4) (s.inBuf.read 5) (s.inBuf.read 6) (s.inBuf.read 7)).toNat *
      (be32 (s.inBuf.read 8) (s.inBuf.read 9) (s.inBuf.read 10) (s.inBuf.read 11)).toNat
    (s.phase = .encHeader → ∃ k t, k ≤ s.job.w.toNat * s.job.h.toNat + 2 ∧ Sys2Proof.core.run k s = .next t ∧
      (t.phase = .done ∨ t.phase = .error)) ∧
    (s.phase = .decHeader → ∃ k t, k ≤ 1 + n ∧ Sys2Proof.core.run k s = .next t ∧
      (t.phase = .done ∨ t.phase = .error))

/-- R178: the output bytes, OUT_LEN and the error outcome of an encode pass are a function of the job and the IN bytes
below IN_LEN alone: two passes that agree on these agree at every step, whatever OUT, the other CSRs and the free values
are; and no free value is drawn in an encode pass that does not fail. -/
def Obligations.EncodePassIsDeterministic : Prop :=
  ∀ (s s' : State) (k : Nat) (t t' : State), PassInv s → PassInv s' → s.host = [] → s'.host = [] →
    s.phase = .encHeader → s'.phase = .encHeader → s.job = s'.job → s.params = s'.params →
    (∀ a, a < s.job.inLen.toNat → s.inBuf.read a = s'.inBuf.read a) →
    Sys2Proof.core.run k s = .next t → Sys2Proof.core.run k s' = .next t' →
    t.phase = t'.phase ∧ t.csr.status = t'.csr.status ∧ t.outPos = t'.outPos ∧
      (t.phase ≠ .error → t.draws = s.draws ∧ ∀ a, a < t.outPos.toNat → t.outBuf.read a = t'.outBuf.read a) ∧
      (t.phase = .done ∨ t.phase = .error → t.csr.outLen = t'.csr.outLen ∧ t.csr.inPos = t'.csr.inPos ∧
        t.csr.pixPos = t'.csr.pixPos)

/-- R116, R196: the decoder stops exactly when N pixels are done and never reads on: take a decode pass that ends in DONE, and
the same pass with any other bytes of IN from its last `in_pos` on, and with any IN_LEN that reaches that far. The end
marker may be there, corrupted, followed by more bytes, or missing. The second pass takes the same steps to the same state,
but for the IN and the IN_LEN it was given. -/
def Obligations.BytesAfterLastChunkIgnored : Prop :=
  ∀ (s t : State) (k : Nat) (m : Memory) (len : Addr), PassInv s → s.host = [] → s.phase = .decHeader →
    Sys2Proof.core.run k s = .next t → t.phase = .done → t.csr.inPos.toNat ≤ len.toNat →
    (∀ a, a < t.csr.inPos.toNat → m.read a = s.inBuf.read a) →
    Sys2Proof.core.run k
        { s with inBuf := m, job := { s.job with inLen := len }, csr := { s.csr with inLen := len } } =
      .next { t with inBuf := m, job := { t.job with inLen := len }, csr := { t.csr with inLen := len } }

/-- R199, R118: take an encode pass that ends in DONE and a decode pass whose IN is the encoder's OUT bytes 0 to
OUT_LEN - 1, with enough OUT_CAP. The decode ends in DONE, its OUT is the encoder's IN, and its header CSRs are the
encoder's. -/
def Obligations.DecodeInvertsEncodePass : Prop :=
  ∀ (s t d : State) (k : Nat), PassInv s → s.host = [] → s.phase = .encHeader →
    Sys2Proof.core.run k s = .next t → t.phase = .done →
    PassInv d → d.host = [] → d.phase = .decHeader → d.params = s.params → d.job.inLen = t.csr.outLen →
    (∀ a, a < t.csr.outLen.toNat → d.inBuf.read a = t.outBuf.read a) →
    t.job.n * t.job.c.toNat ≤ d.job.outCap.toNat →
    ∃ m u, Sys2Proof.core.run m d = .next u ∧ u.phase = .done ∧
      HeaderCsrs u s.job.w s.job.h s.job.c s.job.cs ∧ u.csr.outLen.toNat = t.job.n * t.job.c.toNat ∧
      ∀ a, a < t.job.n * t.job.c.toNat → u.outBuf.read a = s.inBuf.read a

/-- R135: in the same two passes, after the same number of pixels done, from none to all N, the encoder and the decoder have
the same cache and the same previous pixel, while the decode has not failed; and so it is for each pixel that one decoder
step covers, those inside an OP_RUN too. With all N done, where the decoder, and the encoder once past its trailer, stand in
DONE, it rests on the kept registers of log entry 10, the model's choice. -/
def Obligations.CachesStayInStep : Prop :=
  ∀ (s t d : State) (k : Nat), PassInv s → s.host = [] → s.phase = .encHeader →
    Sys2Proof.core.run k s = .next t → t.phase = .done →
    PassInv d → d.host = [] → d.phase = .decHeader → d.params = s.params → d.job.inLen = t.csr.outLen →
    (∀ a, a < t.csr.outLen.toNat → d.inBuf.read a = t.outBuf.read a) →
    ∀ (j m : Nat) (e u : State), Sys2Proof.core.run j s = .next e → Sys2Proof.core.run m d = .next u →
      (u.phase ≠ .error → e.pixPos = u.pixPos → u.cache = e.cache ∧ u.prev = e.prev) ∧
      ∀ v, step u = .next v → u.pixPos.toNat < e.pixPos.toNat → e.pixPos.toNat ≤ v.pixPos.toNat →
        v.cache = e.cache ∧ v.prev = e.prev
end

