-- ==== Sys2Proof/Laws/Codec.lean ====
section
/-! SUPPORT. The encodings, field by field and form by form: what the tag bits tell (R81, R90), and that a chunk's fields are
put together and taken apart alike (R82 to R87). -/

namespace Sys2Proof

/-! ### Tag bits -/

theorem tag_index : ∀ x : BitVec 6, (0b00#2 ++ x : Byte).extractLsb' 6 2 = 0b00 ∧ (0b00#2 ++ x : Byte).extractLsb' 0 6 = x ∧
    (0b00#2 ++ x : Byte) ≠ 0xFE ∧ (0b00#2 ++ x : Byte) ≠ 0xFF := by decide

theorem tag_diff : ∀ x y z : BitVec 2, (0b01#2 ++ x ++ y ++ z : Byte).extractLsb' 6 2 = 0b01 ∧
    (0b01#2 ++ x ++ y ++ z : Byte).extractLsb' 4 2 = x ∧ (0b01#2 ++ x ++ y ++ z : Byte).extractLsb' 2 2 = y ∧
    (0b01#2 ++ x ++ y ++ z : Byte).extractLsb' 0 2 = z ∧
    (0b01#2 ++ x ++ y ++ z : Byte) ≠ 0xFE ∧ (0b01#2 ++ x ++ y ++ z : Byte) ≠ 0xFF := by decide

theorem tag_luma : ∀ x : BitVec 6, (0b10#2 ++ x : Byte).extractLsb' 6 2 = 0b10 ∧ (0b10#2 ++ x : Byte).extractLsb' 0 6 = x ∧
    (0b10#2 ++ x : Byte) ≠ 0xFE ∧ (0b10#2 ++ x : Byte) ≠ 0xFF := by decide

theorem nibbles : ∀ x y : BitVec 4, (x ++ y : Byte).extractLsb' 4 4 = x ∧ (x ++ y : Byte).extractLsb' 0 4 = y := by decide

theorem tag_run : ∀ x : BitVec 6, x.toNat ≤ 61 → (0b11#2 ++ x : Byte).extractLsb' 6 2 = 0b11 ∧
    (0b11#2 ++ x : Byte).extractLsb' 0 6 = x ∧ (0b11#2 ++ x : Byte) ≠ 0xFE ∧ (0b11#2 ++ x : Byte) ≠ 0xFF := by decide

/-- The two bytes that lie in the run tag's space (R88). -/
theorem tag_run_top : (0b11#2 ++ (62 : BitVec 6) : Byte) = 0xFE ∧ (0b11#2 ++ (63 : BitVec 6) : Byte) = 0xFF := by decide

/-- A byte is put together again from its tag and its 6-bit field. -/
theorem join_tag6 : ∀ b : Byte, (b.extractLsb' 6 2 ++ b.extractLsb' 0 6 : Byte) = b := by decide

theorem join_diff : ∀ b : Byte,
    (b.extractLsb' 6 2 ++ b.extractLsb' 4 2 ++ b.extractLsb' 2 2 ++ b.extractLsb' 0 2 : Byte) = b := by decide

theorem join_nibbles : ∀ b : Byte, (b.extractLsb' 4 4 ++ b.extractLsb' 0 4 : Byte) = b := by decide

/-- The four values of the tag bits. -/
theorem tag_cases : ∀ t : BitVec 2, t = 0b00 ∨ t = 0b01 ∨ t = 0b10 ∨ t = 0b11 := by decide

/-! ### Lengths -/

/-- R96: a chunk has 1, 2, 4 or 5 bytes. -/
theorem chunkLen_bounds (b : Byte) : 1 ≤ chunkLen b ∧ chunkLen b ≤ 5 := by
  unfold chunkLen; split_ifs <;> omega

/-! ### Decoding, form by form (R81, R88) -/

theorem decodeChunk_rgb (r g b : Byte) (rest : List Byte) :
    decodeChunk (0xFE :: r :: g :: b :: rest) = .ok (.opRgb r g b, rest) := rfl

theorem decodeChunk_rgba (r g b a : Byte) (rest : List Byte) :
    decodeChunk (0xFF :: r :: g :: b :: a :: rest) = .ok (.opRgba r g b a, rest) := rfl

theorem decodeChunk_index {b0 : Byte} (h1 : b0 ≠ 0xFE) (h2 : b0 ≠ 0xFF) (h : b0.extractLsb' 6 2 = 0b00)
    (rest : List Byte) : decodeChunk (b0 :: rest) = .ok (.opIndex (b0.extractLsb' 0 6), rest) := by
  rw [decodeChunk, decodeForm, if_neg h1, if_neg h2, if_pos h]

theorem decodeChunk_diff {b0 : Byte} (h1 : b0 ≠ 0xFE) (h2 : b0 ≠ 0xFF) (h : b0.extractLsb' 6 2 = 0b01)
    (rest : List Byte) : decodeChunk (b0 :: rest) =
      .ok (.opDiff (b0.extractLsb' 4 2) (b0.extractLsb' 2 2) (b0.extractLsb' 0 2), rest) := by
  rw [decodeChunk, decodeForm, if_neg h1, if_neg h2, if_neg (by rw [h]; decide), if_pos h]

theorem decodeChunk_luma {b0 : Byte} (h1 : b0 ≠ 0xFE) (h2 : b0 ≠ 0xFF) (h : b0.extractLsb' 6 2 = 0b10)
    (b1 : Byte) (rest : List Byte) : decodeChunk (b0 :: b1 :: rest) =
      .ok (.opLuma (b0.extractLsb' 0 6) (b1.extractLsb' 4 4) (b1.extractLsb' 0 4), rest) := by
  rw [decodeChunk, decodeForm, if_neg h1, if_neg h2, if_neg (by rw [h]; decide), if_neg (by rw [h]; decide), if_pos h]
  rfl

theorem decodeChunk_run {b0 : Byte} (h1 : b0 ≠ 0xFE) (h2 : b0 ≠ 0xFF) (h : b0.extractLsb' 6 2 = 0b11)
    (rest : List Byte) : decodeChunk (b0 :: rest) = .ok (.opRun (b0.extractLsb' 0 6), rest) := by
  rw [decodeChunk, decodeForm, if_neg h1, if_neg h2, if_neg (by rw [h]; decide), if_neg (by rw [h]; decide),
    if_neg (by rw [h]; decide)]

/-- The length of a chunk whose first byte is neither 8-bit tag (R81). -/
theorem chunkLen_of_tag {b : Byte} {t : BitVec 2} (h : b.extractLsb' 6 2 = t) (h1 : b ≠ 0xFE) (h2 : b ≠ 0xFF) :
    chunkLen b = if t = 0b10 then 2 else 1 := by
  subst h
  rw [chunkLen, if_neg h1, if_neg h2]
  rcases tag_cases (b.extractLsb' 6 2) with ht | ht | ht | ht <;> rw [ht] <;> rfl

/-- The first byte of a chunk tells its length. -/
theorem chunkLen_encode_head (i : Instr) (hs : i.slot = .chunk) (hr : ∀ l, i = .opRun l → l.toNat ≤ 61) :
    ∃ b0 more, encode i = b0 :: more ∧ chunkLen b0 = (encode i).length := by
  cases i with
  | opIndex x => obtain ⟨h1, -, h3, h4⟩ := tag_index x; exact ⟨_, _, rfl, chunkLen_of_tag h1 h3 h4⟩
  | opDiff x y z => obtain ⟨h1, -, -, -, h3, h4⟩ := tag_diff x y z; exact ⟨_, _, rfl, chunkLen_of_tag h1 h3 h4⟩
  | opLuma x y z => obtain ⟨h1, -, h3, h4⟩ := tag_luma x; exact ⟨_, _, rfl, chunkLen_of_tag h1 h3 h4⟩
  | opRun x => obtain ⟨h1, -, h3, h4⟩ := tag_run x (hr x rfl); exact ⟨_, _, rfl, chunkLen_of_tag h1 h3 h4⟩
  | opRgb r g b => exact ⟨_, _, rfl, rfl⟩
  | opRgba r g b a => exact ⟨_, _, rfl, rfl⟩
  | header w h c cs => simp [Instr.slot] at hs
  | endMarker => simp [Instr.slot] at hs

/-- A chunk decodes when all the bytes its first byte asks for are there; it takes exactly those, and it stands in a
chunk slot (R81, R90). -/
theorem decodeChunk_total (b0 : Byte) (more : List Byte) (h : chunkLen b0 ≤ more.length + 1) :
    ∃ i rest, decodeChunk (b0 :: more) = .ok (i, rest) ∧ i.slot = .chunk ∧ (encode i).length = chunkLen b0 ∧
      rest.length + chunkLen b0 = more.length + 1 := by
  by_cases h1 : b0 = 0xFE
  · subst h1
    match more, h with
    | r :: g :: b :: rest, _ => exact ⟨_, _, decodeChunk_rgb r g b rest, rfl, rfl, rfl⟩
  by_cases h2 : b0 = 0xFF
  · subst h2
    match more, h with
    | r :: g :: b :: a :: rest, _ => exact ⟨_, _, decodeChunk_rgba r g b a rest, rfl, rfl, rfl⟩
  rcases tag_cases (b0.extractLsb' 6 2) with ht | ht | ht | ht <;> rw [chunkLen_of_tag ht h1 h2] at h ⊢
  · exact ⟨_, _, decodeChunk_index h1 h2 ht more, rfl, rfl, rfl⟩
  · exact ⟨_, _, decodeChunk_diff h1 h2 ht more, rfl, rfl, rfl⟩
  · match more, h with
    | b1 :: rest, _ => exact ⟨_, _, decodeChunk_luma h1 h2 ht b1 rest, rfl, rfl, rfl⟩
  · exact ⟨_, _, decodeChunk_run h1 h2 ht more, rfl, rfl, rfl⟩

/-! ### Big-endian fields (R65) -/

theorem bytesBe32_length (v : Word32) : (bytesBe32 v).length = 4 := rfl

/-- The four bytes of a field, put together, are the field. -/
theorem be32_bytes (v : Word32) :
    be32 (v.extractLsb' 24 8) (v.extractLsb' 16 8) (v.extractLsb' 8 8) (v.extractLsb' 0 8) = v := by
  unfold be32
  apply BitVec.eq_of_getLsbD_eq
  intro i hi
  simp only [BitVec.getLsbD_append, BitVec.getLsbD_extractLsb']
  by_cases h1 : i < 8
  · simp [h1]
  · by_cases h2 : i < 16
    · have : i - 8 < 8 := by omega
      simp [h1, this, show 8 + (i - 8) = i by omega]
    · by_cases h3 : i < 24
      · have a1 : ¬i - 8 < 8 := by omega
        have a2 : i - 8 - 8 < 8 := by omega
        simp [h1, a1, a2, show 16 + (i - 8 - 8) = i by omega]
      · have a1 : ¬i - 8 < 8 := by omega
        have a2 : ¬i - 8 - 8 < 8 := by omega
        have a3 : i - 8 - 8 - 8 < 8 := by omega
        simp [h1, a1, a2, a3, show 24 + (i - 8 - 8 - 8) = i by omega]

end Sys2Proof
end

