-- ==== Sys2Proof/Laws/Memory.lean ====
section
/-! SUPPORT. The laws of the byte buffers: read after write, the frame of a write, and the canonical form. -/

namespace Sys2Proof.Machine

/-! ### The list of written bytes -/

@[simp] theorem findCell_nil (a : Nat) : findCell [] a = none := rfl

theorem findCell_cons (x : Nat) (v : Byte) (rest : List Host.Cell) (a : Nat) :
    findCell ((x, v) :: rest) a = if x = a then some v else findCell rest a := rfl

theorem findCell_putCell_same (a : Nat) (v : Byte) (cells : List Host.Cell) :
    findCell (putCell a v cells) a = some v := by
  induction cells with
  | nil => simp [putCell, findCell]
  | cons c rest ih =>
    obtain ⟨x, w⟩ := c
    simp only [putCell]
    split
    · simp [findCell]
    · split
      · simp [findCell]
      · have hx : x ≠ a := by omega
        simp [findCell, hx, ih]

theorem findCell_putCell_other {a b : Nat} (h : b ≠ a) (v : Byte) (cells : List Host.Cell) :
    findCell (putCell a v cells) b = findCell cells b := by
  induction cells with
  | nil => simp [putCell, findCell, h.symm]
  | cons c rest ih =>
    obtain ⟨x, w⟩ := c
    simp only [putCell]
    split
    · simp [findCell, h.symm]
    · split
      · next hax => subst hax; simp [findCell, h.symm]
      · simp [findCell, ih]

theorem findCell_dropCell_same (a : Nat) (cells : List Host.Cell) : findCell (dropCell a cells) a = none := by
  induction cells with
  | nil => rfl
  | cons c rest ih =>
    obtain ⟨x, w⟩ := c
    by_cases hx : x = a
    · subst hx; simpa [dropCell] using ih
    · simpa [dropCell, hx, findCell] using ih

theorem findCell_dropCell_other {a b : Nat} (h : b ≠ a) (cells : List Host.Cell) :
    findCell (dropCell a cells) b = findCell cells b := by
  induction cells with
  | nil => rfl
  | cons c rest ih =>
    obtain ⟨x, w⟩ := c
    by_cases hx : x = a
    · subst hx; simpa [dropCell, findCell, h.symm] using ih
    · by_cases hb : x = b
      · subst hb; simp [dropCell, hx, findCell]
      · simpa [dropCell, hx, findCell, hb] using ih

/-! ### One byte -/

theorem Memory.read_write_same (m : Memory) (a : Nat) (v : Byte) : (m.write a v).read a = v := by
  unfold Memory.write
  split
  · next h => simp [Memory.read, Memory.unlisted, findCell_dropCell_same, h]
  · simp [Memory.read, findCell_putCell_same]

theorem Memory.read_write_other {a b : Nat} (h : b ≠ a) (m : Memory) (v : Byte) :
    (m.write a v).read b = m.read b := by
  unfold Memory.write
  split
  · simp [Memory.read, Memory.unlisted, findCell_dropCell_other h]
  · simp [Memory.read, Memory.unlisted, findCell_putCell_other h]

@[simp] theorem Memory.write_holes (m : Memory) (a : Nat) (v : Byte) : (m.write a v).holes = m.holes := by
  unfold Memory.write; split <;> rfl

/-! ### Byte strings -/

@[simp] theorem Memory.readBytes_length (m : Memory) (a n : Nat) : (m.readBytes a n).length = n := by
  induction n generalizing a with
  | zero => rfl
  | succ n ih => simp [Memory.readBytes, ih]

theorem Memory.readBytes_congr {m m' : Memory} {a n : Nat}
    (h : ∀ b, a ≤ b → b < a + n → m.read b = m'.read b) : m.readBytes a n = m'.readBytes a n := by
  induction n generalizing a with
  | zero => rfl
  | succ n ih =>
    simp only [Memory.readBytes]
    rw [h a (Nat.le_refl a) (by omega), ih fun b h1 h2 => h b (by omega) (by omega)]

@[simp] theorem Memory.writeBytes_holes (m : Memory) (a : Nat) (bs : List Byte) :
    (m.writeBytes a bs).holes = m.holes := by
  induction bs generalizing m a with
  | nil => rfl
  | cons v rest ih => simp [Memory.writeBytes, ih]

/-- A write of a byte string leaves every byte outside it alone. -/
theorem Memory.read_writeBytes_outside {a b : Nat} {bs : List Byte} (h : b < a ∨ a + bs.length ≤ b) (m : Memory) :
    (m.writeBytes a bs).read b = m.read b := by
  induction bs generalizing m a with
  | nil => rfl
  | cons v rest ih =>
    simp only [List.length_cons] at h
    rw [Memory.writeBytes, ih (by omega), Memory.read_write_other (by omega)]

/-- A byte string read back after it is written. -/
theorem Memory.readBytes_writeBytes (m : Memory) (a : Nat) (bs : List Byte) :
    (m.writeBytes a bs).readBytes a bs.length = bs := by
  induction bs generalizing m a with
  | nil => rfl
  | cons v rest ih =>
    simp only [Memory.writeBytes, List.length_cons, Memory.readBytes]
    rw [Memory.read_writeBytes_outside (by omega), Memory.read_write_same, ih]

theorem Memory.readBytes_append (m : Memory) (a n k : Nat) :
    m.readBytes a (n + k) = m.readBytes a n ++ m.readBytes (a + n) k := by
  induction n generalizing a with
  | zero => simp [Memory.readBytes]
  | succ n ih => rw [Nat.succ_add, Memory.readBytes, ih, Memory.readBytes]; simp; congr 1; omega

theorem Memory.writeBytes_append (m : Memory) (a : Nat) (bs cs : List Byte) :
    m.writeBytes a (bs ++ cs) = (m.writeBytes a bs).writeBytes (a + bs.length) cs := by
  induction bs generalizing m a with
  | nil => rfl
  | cons v rest ih => simp only [List.cons_append, Memory.writeBytes, List.length_cons, ih]; congr 1; omega

/-! ### Bytes left at any value -/

/-- An event that leaves `[0, bound)` at any value leaves every other byte alone. -/
theorem holeAt_filter {bound a : Nat} (h : bound ≤ a) (holes : List (Nat × Nat)) :
    holeAt (holes.filter fun x => decide (bound < x.1)) a = holeAt holes a := by
  induction holes with
  | nil => rfl
  | cons x rest ih =>
    obtain ⟨b, d⟩ := x
    by_cases hb : bound < b
    · by_cases ha : a < b <;> simp [hb, holeAt, ha, ih]
    · have ha : ¬a < b := by omega
      simp [hb, holeAt, ha, ih]

theorem findCell_filter {bound a : Nat} (h : bound ≤ a) (cells : List Host.Cell) :
    findCell (cells.filter fun x => decide (bound ≤ x.1)) a = findCell cells a := by
  induction cells with
  | nil => rfl
  | cons x rest ih =>
    obtain ⟨b, d⟩ := x
    by_cases hb : bound ≤ b
    · by_cases ha : b = a
      · subst ha; simp [hb, findCell]
      · simp [hb, findCell, ha, ih]
    · have ha : ¬b = a := by omega
      simp [hb, findCell, ha, ih]

theorem Memory.read_forget_outside {bound a : Nat} (h : bound ≤ a) (m : Memory) (draw : Nat) :
    (m.forget bound draw).read a = m.read a := by
  unfold Memory.forget
  split
  · rfl
  · have ha : ¬a < bound := by omega
    simp [Memory.read, Memory.unlisted, findCell_filter h, holeAt, ha, holeAt_filter h]

/-- A byte an event has left at any value reads as that event's free value. -/
theorem Memory.read_forget_inside {bound a : Nat} (h : a < bound) (m : Memory) (draw : Nat) :
    (m.forget bound draw).read a = Config.anyByte draw a := by
  have hn : findCell (m.cells.filter fun x => decide (bound ≤ x.1)) a = none := by
    induction m.cells with
    | nil => rfl
    | cons x rest ih =>
      obtain ⟨b, d⟩ := x
      by_cases hb : bound ≤ b
      · have hba : ¬b = a := by omega
        simp [hb, findCell, hba, ih]
      · simp [hb, ih]
  unfold Memory.forget
  rw [if_neg (by omega)]
  simp [Memory.read, Memory.unlisted, hn, holeAt, h]

/-! ### The canonical form -/

theorem rising_iff (l : List Nat) : rising l = true ↔ l.Pairwise (· < ·) := by
  induction l with
  | nil => simp [rising]
  | cons a rest ih =>
    cases rest with
    | nil => simp [rising]
    | cons b rest =>
      simp only [rising, Bool.and_eq_true, decide_eq_true_eq, ih, List.pairwise_cons]
      constructor
      · rintro ⟨hab, hb, hr⟩
        refine ⟨?_, hb, hr⟩
        rintro x (_ | ⟨_, hx⟩)
        · exact hab
        · exact Nat.lt_trans hab (hb x hx)
      · rintro ⟨ha, hb, hr⟩
        exact ⟨ha b List.mem_cons_self, hb, hr⟩

/-- The canonical form, clause by clause. -/
theorem Memory.wf_iff (m : Memory) : m.wf = true ↔
    (m.cells.map Prod.fst).Pairwise (· < ·) ∧ (m.holes.map Prod.fst).Pairwise (· < ·) ∧
      (∀ x ∈ m.holes, 0 < x.1) ∧ ∀ x ∈ m.cells, x.2 ≠ 0 ∨ (holeAt m.holes x.1).isSome = true := by
  simp [Memory.wf, rising_iff, and_assoc]

theorem mem_putCell {a : Nat} {v : Byte} {cells : List Host.Cell} {x : Host.Cell} (h : x ∈ putCell a v cells) :
    x = (a, v) ∨ x ∈ cells := by
  induction cells with
  | nil => simpa [putCell] using h
  | cons c rest ih =>
    obtain ⟨y, w⟩ := c
    simp only [putCell] at h
    split at h
    · simpa using h
    · split at h
      · simp only [List.mem_cons] at h ⊢
        tauto
      · simp only [List.mem_cons] at h ⊢
        rcases h with h | h
        · tauto
        · rcases ih h with h | h <;> tauto

theorem putCell_rising {a : Nat} {v : Byte} {cells : List Host.Cell}
    (h : (cells.map Prod.fst).Pairwise (· < ·)) : ((putCell a v cells).map Prod.fst).Pairwise (· < ·) := by
  induction cells with
  | nil => simp [putCell]
  | cons c rest ih =>
    obtain ⟨x, w⟩ := c
    simp only [List.map_cons, List.pairwise_cons, List.mem_map] at h
    obtain ⟨hx, hr⟩ := h
    simp only [putCell]
    split
    · next hax =>
      simp only [List.map_cons, List.pairwise_cons]
      refine ⟨?_, fun y hy => hx y (List.mem_map.1 hy), hr⟩
      rintro y (_ | ⟨_, hy⟩)
      · exact hax
      · exact Nat.lt_trans hax (hx y (List.mem_map.1 hy))
    · split
      · next hax =>
        subst hax
        simp only [List.map_cons, List.pairwise_cons]
        exact ⟨fun y hy => hx y (List.mem_map.1 hy), hr⟩
      · simp only [List.map_cons, List.pairwise_cons, List.mem_map]
        refine ⟨?_, ih hr⟩
        rintro y ⟨z, hz, rfl⟩
        rcases mem_putCell hz with rfl | hz
        · simp only; omega
        · exact hx _ ⟨z, hz, rfl⟩

theorem filter_rising {β : Type} {cells : List (Nat × β)} (p : Nat × β → Bool)
    (h : (cells.map Prod.fst).Pairwise (· < ·)) : ((cells.filter p).map Prod.fst).Pairwise (· < ·) :=
  h.sublist (List.filter_sublist.map _)

theorem Memory.wf_empty : Memory.empty.wf = true := rfl

/-- A write keeps the canonical form. -/
theorem Memory.wf_write {m : Memory} (h : m.wf = true) (a : Nat) (v : Byte) : (m.write a v).wf = true := by
  rw [Memory.wf_iff] at h ⊢
  obtain ⟨hc, hh, hp, hl⟩ := h
  unfold Memory.write
  split
  · exact ⟨filter_rising _ hc, hh, hp, fun x hx => hl x (List.mem_of_mem_filter hx)⟩
  · next hv =>
    refine ⟨putCell_rising hc, hh, hp, fun x hx => ?_⟩
    rcases mem_putCell hx with rfl | hx
    · by_cases hz : v = 0
      · exact .inr (Option.isSome_iff_ne_none.2 fun hn => hv ⟨hz, hn⟩)
      · exact .inl hz
    · exact hl x hx

theorem Memory.wf_writeBytes {m : Memory} (h : m.wf = true) (a : Nat) (bs : List Byte) :
    (m.writeBytes a bs).wf = true := by
  induction bs generalizing m a with
  | nil => exact h
  | cons v rest ih => exact ih (Memory.wf_write h a v) (a + 1)

/-- An event that leaves bytes at any value keeps the canonical form. -/
theorem Memory.wf_forget {m : Memory} (h : m.wf = true) (bound draw : Nat) : (m.forget bound draw).wf = true := by
  unfold Memory.forget
  split
  · exact h
  · next hb =>
    rw [Memory.wf_iff] at h ⊢
    obtain ⟨hc, hh, hp, hl⟩ := h
    refine ⟨filter_rising _ hc, ?_, ?_, ?_⟩
    · simp only [List.map_cons, List.pairwise_cons, List.mem_map, List.mem_filter, decide_eq_true_eq]
      refine ⟨?_, filter_rising _ hh⟩
      rintro y ⟨z, ⟨-, hz⟩, rfl⟩
      exact hz
    · rintro x (_ | ⟨_, hx⟩)
      · simp only; omega
      · exact hp x (List.mem_of_mem_filter hx)
    · intro x hx
      obtain ⟨hx, hbx⟩ := List.mem_filter.1 hx
      have hbx : bound ≤ x.1 := by simpa using hbx
      have : ¬x.1 < bound := by omega
      simpa [holeAt, this, holeAt_filter hbx] using hl x hx

end Sys2Proof.Machine
end

