-- ==== Sys2Proof/Laws/State.lean ====
section
/-! SUPPORT. What each named update of the state does to each field: one lemma per field per update, true by rfl. -/

namespace Sys2Proof.Machine

/-! ### The non-run update (R140) -/

@[simp] theorem State.nonRunUpdate_phase (s : State) (px : Pixel) : (s.nonRunUpdate px).phase = s.phase := rfl
@[simp] theorem State.nonRunUpdate_job (s : State) (px : Pixel) : (s.nonRunUpdate px).job = s.job := rfl
@[simp] theorem State.nonRunUpdate_prev (s : State) (px : Pixel) : (s.nonRunUpdate px).prev = px := rfl
@[simp] theorem State.nonRunUpdate_cache (s : State) (px : Pixel) : (s.nonRunUpdate px).cache = store s.cache (cacheIndex px) px := rfl
@[simp] theorem State.nonRunUpdate_run (s : State) (px : Pixel) : (s.nonRunUpdate px).run = s.run := rfl
@[simp] theorem State.nonRunUpdate_pixPos (s : State) (px : Pixel) : (s.nonRunUpdate px).pixPos = s.pixPos := rfl
@[simp] theorem State.nonRunUpdate_inPos (s : State) (px : Pixel) : (s.nonRunUpdate px).inPos = s.inPos := rfl
@[simp] theorem State.nonRunUpdate_outPos (s : State) (px : Pixel) : (s.nonRunUpdate px).outPos = s.outPos := rfl
@[simp] theorem State.nonRunUpdate_csr (s : State) (px : Pixel) : (s.nonRunUpdate px).csr = s.csr := rfl
@[simp] theorem State.nonRunUpdate_inBuf (s : State) (px : Pixel) : (s.nonRunUpdate px).inBuf = s.inBuf := rfl
@[simp] theorem State.nonRunUpdate_outBuf (s : State) (px : Pixel) : (s.nonRunUpdate px).outBuf = s.outBuf := rfl
@[simp] theorem State.nonRunUpdate_params (s : State) (px : Pixel) : (s.nonRunUpdate px).params = s.params := rfl
@[simp] theorem State.nonRunUpdate_draws (s : State) (px : Pixel) : (s.nonRunUpdate px).draws = s.draws := rfl
@[simp] theorem State.nonRunUpdate_host (s : State) (px : Pixel) : (s.nonRunUpdate px).host = s.host := rfl
@[simp] theorem State.nonRunUpdate_readData (s : State) (px : Pixel) : (s.nonRunUpdate px).readData = s.readData := rfl

/-! ### Writing a pixel (R195) -/

@[simp] theorem State.writePixel_phase (s : State) (p : Pixel) : (s.writePixel p).phase = s.phase := rfl
@[simp] theorem State.writePixel_job (s : State) (p : Pixel) : (s.writePixel p).job = s.job := rfl
@[simp] theorem State.writePixel_prev (s : State) (p : Pixel) : (s.writePixel p).prev = s.prev := rfl
@[simp] theorem State.writePixel_cache (s : State) (p : Pixel) : (s.writePixel p).cache = s.cache := rfl
@[simp] theorem State.writePixel_run (s : State) (p : Pixel) : (s.writePixel p).run = s.run := rfl
@[simp] theorem State.writePixel_pixPos (s : State) (p : Pixel) : (s.writePixel p).pixPos = s.pixPos + 1 := rfl
@[simp] theorem State.writePixel_inPos (s : State) (p : Pixel) : (s.writePixel p).inPos = s.inPos := rfl
@[simp] theorem State.writePixel_outPos (s : State) (p : Pixel) : (s.writePixel p).outPos = s.outPos + BitVec.ofNat 64 s.job.c.toNat := rfl
@[simp] theorem State.writePixel_csr (s : State) (p : Pixel) : (s.writePixel p).csr = s.csr := rfl
@[simp] theorem State.writePixel_inBuf (s : State) (p : Pixel) : (s.writePixel p).inBuf = s.inBuf := rfl
@[simp] theorem State.writePixel_outBuf (s : State) (p : Pixel) : (s.writePixel p).outBuf = s.outBuf.writeBytes (s.pixPos.toNat * s.job.c.toNat) (bytesOfPixel s.job.c p) := rfl
@[simp] theorem State.writePixel_params (s : State) (p : Pixel) : (s.writePixel p).params = s.params := rfl
@[simp] theorem State.writePixel_draws (s : State) (p : Pixel) : (s.writePixel p).draws = s.draws := rfl
@[simp] theorem State.writePixel_host (s : State) (p : Pixel) : (s.writePixel p).host = s.host := rfl
@[simp] theorem State.writePixel_readData (s : State) (p : Pixel) : (s.writePixel p).readData = s.readData := rfl

/-! ### Taking an error (R222) -/

@[simp] theorem State.raise_phase (s : State) (e : ErrCode) : (s.raise e).phase = .error := rfl
@[simp] theorem State.raise_job (s : State) (e : ErrCode) : (s.raise e).job = s.job := rfl
@[simp] theorem State.raise_prev (s : State) (e : ErrCode) : (s.raise e).prev = s.prev := rfl
@[simp] theorem State.raise_cache (s : State) (e : ErrCode) : (s.raise e).cache = s.cache := rfl
@[simp] theorem State.raise_run (s : State) (e : ErrCode) : (s.raise e).run = s.run := rfl
@[simp] theorem State.raise_pixPos (s : State) (e : ErrCode) : (s.raise e).pixPos = s.pixPos := rfl
@[simp] theorem State.raise_inPos (s : State) (e : ErrCode) : (s.raise e).inPos = s.inPos := rfl
@[simp] theorem State.raise_outPos (s : State) (e : ErrCode) : (s.raise e).outPos = s.outPos := rfl
@[simp] theorem State.raise_csr (s : State) (e : ErrCode) : (s.raise e).csr = 
      { s.csr with status := statusError e, outLen := s.outPos, inPos := s.inPos, pixPos := s.pixPos } := rfl
@[simp] theorem State.raise_inBuf (s : State) (e : ErrCode) : (s.raise e).inBuf = s.inBuf := rfl
@[simp] theorem State.raise_outBuf (s : State) (e : ErrCode) : (s.raise e).outBuf = s.outBuf.forget s.job.outCap.toNat s.draws := rfl
@[simp] theorem State.raise_params (s : State) (e : ErrCode) : (s.raise e).params = s.params := rfl
@[simp] theorem State.raise_draws (s : State) (e : ErrCode) : (s.raise e).draws = s.draws + 1 := rfl
@[simp] theorem State.raise_host (s : State) (e : ErrCode) : (s.raise e).host = s.host := rfl
@[simp] theorem State.raise_readData (s : State) (e : ErrCode) : (s.raise e).readData = s.readData := rfl

/-! ### A decode pass's header error (R113, R223) -/

@[simp] theorem State.raiseDecHeader_phase (s : State) (e : ErrCode) : (s.raiseDecHeader e).phase = .error := rfl
@[simp] theorem State.raiseDecHeader_job (s : State) (e : ErrCode) : (s.raiseDecHeader e).job = s.job := rfl
@[simp] theorem State.raiseDecHeader_prev (s : State) (e : ErrCode) : (s.raiseDecHeader e).prev = s.prev := rfl
@[simp] theorem State.raiseDecHeader_cache (s : State) (e : ErrCode) : (s.raiseDecHeader e).cache = s.cache := rfl
@[simp] theorem State.raiseDecHeader_run (s : State) (e : ErrCode) : (s.raiseDecHeader e).run = s.run := rfl
@[simp] theorem State.raiseDecHeader_pixPos (s : State) (e : ErrCode) : (s.raiseDecHeader e).pixPos = s.pixPos := rfl
@[simp] theorem State.raiseDecHeader_inPos (s : State) (e : ErrCode) : (s.raiseDecHeader e).inPos = s.inPos := rfl
@[simp] theorem State.raiseDecHeader_outPos (s : State) (e : ErrCode) : (s.raiseDecHeader e).outPos = s.outPos := rfl
@[simp] theorem State.raiseDecHeader_csr (s : State) (e : ErrCode) : (s.raiseDecHeader e).csr = 
      { s.csr with
        status := statusError e, outLen := s.outPos, inPos := s.inPos, pixPos := s.pixPos
        width := (Config.anyCsr s.draws 2).setWidth 32, height := (Config.anyCsr s.draws 3).setWidth 32
        channels := (Config.anyCsr s.draws 4).setWidth 8, colorspace := (Config.anyCsr s.draws 5).setWidth 8 } := rfl
@[simp] theorem State.raiseDecHeader_inBuf (s : State) (e : ErrCode) : (s.raiseDecHeader e).inBuf = s.inBuf := rfl
@[simp] theorem State.raiseDecHeader_outBuf (s : State) (e : ErrCode) : (s.raiseDecHeader e).outBuf = s.outBuf.forget s.job.outCap.toNat s.draws := rfl
@[simp] theorem State.raiseDecHeader_params (s : State) (e : ErrCode) : (s.raiseDecHeader e).params = s.params := rfl
@[simp] theorem State.raiseDecHeader_draws (s : State) (e : ErrCode) : (s.raiseDecHeader e).draws = s.draws + 1 := rfl
@[simp] theorem State.raiseDecHeader_host (s : State) (e : ErrCode) : (s.raiseDecHeader e).host = s.host := rfl
@[simp] theorem State.raiseDecHeader_readData (s : State) (e : ErrCode) : (s.raiseDecHeader e).readData = s.readData := rfl

/-! ### Completing a pass (R177, R197) -/

@[simp] theorem State.complete_phase (s : State) : (s.complete).phase = .done := rfl
@[simp] theorem State.complete_job (s : State) : (s.complete).job = s.job := rfl
@[simp] theorem State.complete_prev (s : State) : (s.complete).prev = s.prev := rfl
@[simp] theorem State.complete_cache (s : State) : (s.complete).cache = s.cache := rfl
@[simp] theorem State.complete_run (s : State) : (s.complete).run = s.run := rfl
@[simp] theorem State.complete_pixPos (s : State) : (s.complete).pixPos = s.pixPos := rfl
@[simp] theorem State.complete_inPos (s : State) : (s.complete).inPos = s.inPos := rfl
@[simp] theorem State.complete_outPos (s : State) : (s.complete).outPos = s.outPos := rfl
@[simp] theorem State.complete_csr (s : State) : (s.complete).csr = 
      { s.csr with status := statusDone, outLen := s.outPos, inPos := s.inPos, pixPos := s.pixPos } := rfl
@[simp] theorem State.complete_inBuf (s : State) : (s.complete).inBuf = s.inBuf := rfl
@[simp] theorem State.complete_outBuf (s : State) : (s.complete).outBuf = s.outBuf := rfl
@[simp] theorem State.complete_params (s : State) : (s.complete).params = s.params := rfl
@[simp] theorem State.complete_draws (s : State) : (s.complete).draws = s.draws := rfl
@[simp] theorem State.complete_host (s : State) : (s.complete).host = s.host := rfl
@[simp] theorem State.complete_readData (s : State) : (s.complete).readData = s.readData := rfl

/-! ### Reporting a header (R113) -/

@[simp] theorem State.reportHeader_phase (s : State) (w h : Word32) (c cs : Byte) : (s.reportHeader w h c cs).phase = s.phase := rfl
@[simp] theorem State.reportHeader_job (s : State) (w h : Word32) (c cs : Byte) : (s.reportHeader w h c cs).job = s.job := rfl
@[simp] theorem State.reportHeader_prev (s : State) (w h : Word32) (c cs : Byte) : (s.reportHeader w h c cs).prev = s.prev := rfl
@[simp] theorem State.reportHeader_cache (s : State) (w h : Word32) (c cs : Byte) : (s.reportHeader w h c cs).cache = s.cache := rfl
@[simp] theorem State.reportHeader_run (s : State) (w h : Word32) (c cs : Byte) : (s.reportHeader w h c cs).run = s.run := rfl
@[simp] theorem State.reportHeader_pixPos (s : State) (w h : Word32) (c cs : Byte) : (s.reportHeader w h c cs).pixPos = s.pixPos := rfl
@[simp] theorem State.reportHeader_inPos (s : State) (w h : Word32) (c cs : Byte) : (s.reportHeader w h c cs).inPos = s.inPos := rfl
@[simp] theorem State.reportHeader_outPos (s : State) (w h : Word32) (c cs : Byte) : (s.reportHeader w h c cs).outPos = s.outPos := rfl
@[simp] theorem State.reportHeader_csr (s : State) (w h : Word32) (c cs : Byte) : (s.reportHeader w h c cs).csr = 
      { s.csr with width := w, height := h, channels := c, colorspace := cs } := rfl
@[simp] theorem State.reportHeader_inBuf (s : State) (w h : Word32) (c cs : Byte) : (s.reportHeader w h c cs).inBuf = s.inBuf := rfl
@[simp] theorem State.reportHeader_outBuf (s : State) (w h : Word32) (c cs : Byte) : (s.reportHeader w h c cs).outBuf = s.outBuf := rfl
@[simp] theorem State.reportHeader_params (s : State) (w h : Word32) (c cs : Byte) : (s.reportHeader w h c cs).params = s.params := rfl
@[simp] theorem State.reportHeader_draws (s : State) (w h : Word32) (c cs : Byte) : (s.reportHeader w h c cs).draws = s.draws := rfl
@[simp] theorem State.reportHeader_host (s : State) (w h : Word32) (c cs : Byte) : (s.reportHeader w h c cs).host = s.host := rfl
@[simp] theorem State.reportHeader_readData (s : State) (w h : Word32) (c cs : Byte) : (s.reportHeader w h c cs).readData = s.readData := rfl

/-! ### Accepting a header (R113, R192) -/

@[simp] theorem State.acceptHeader_phase (s : State) (w h : Word32) (c cs : Byte) : (s.acceptHeader w h c cs).phase = .decChunks := rfl
@[simp] theorem State.acceptHeader_job (s : State) (w h : Word32) (c cs : Byte) : (s.acceptHeader w h c cs).job = 
      { s.job with w := w, h := h, c := c, cs := cs, n := w.toNat * h.toNat } := rfl
@[simp] theorem State.acceptHeader_prev (s : State) (w h : Word32) (c cs : Byte) : (s.acceptHeader w h c cs).prev = s.prev := rfl
@[simp] theorem State.acceptHeader_cache (s : State) (w h : Word32) (c cs : Byte) : (s.acceptHeader w h c cs).cache = s.cache := rfl
@[simp] theorem State.acceptHeader_run (s : State) (w h : Word32) (c cs : Byte) : (s.acceptHeader w h c cs).run = s.run := rfl
@[simp] theorem State.acceptHeader_pixPos (s : State) (w h : Word32) (c cs : Byte) : (s.acceptHeader w h c cs).pixPos = s.pixPos := rfl
@[simp] theorem State.acceptHeader_inPos (s : State) (w h : Word32) (c cs : Byte) : (s.acceptHeader w h c cs).inPos = 14 := rfl
@[simp] theorem State.acceptHeader_outPos (s : State) (w h : Word32) (c cs : Byte) : (s.acceptHeader w h c cs).outPos = s.outPos := rfl
@[simp] theorem State.acceptHeader_csr (s : State) (w h : Word32) (c cs : Byte) : (s.acceptHeader w h c cs).csr = 
      { s.csr with width := w, height := h, channels := c, colorspace := cs } := rfl
@[simp] theorem State.acceptHeader_inBuf (s : State) (w h : Word32) (c cs : Byte) : (s.acceptHeader w h c cs).inBuf = s.inBuf := rfl
@[simp] theorem State.acceptHeader_outBuf (s : State) (w h : Word32) (c cs : Byte) : (s.acceptHeader w h c cs).outBuf = s.outBuf := rfl
@[simp] theorem State.acceptHeader_params (s : State) (w h : Word32) (c cs : Byte) : (s.acceptHeader w h c cs).params = s.params := rfl
@[simp] theorem State.acceptHeader_draws (s : State) (w h : Word32) (c cs : Byte) : (s.acceptHeader w h c cs).draws = s.draws := rfl
@[simp] theorem State.acceptHeader_host (s : State) (w h : Word32) (c cs : Byte) : (s.acceptHeader w h c cs).host = s.host := rfl
@[simp] theorem State.acceptHeader_readData (s : State) (w h : Word32) (c cs : Byte) : (s.acceptHeader w h c cs).readData = s.readData := rfl

/-! ### START (R170, R190) -/

@[simp] theorem State.openPass_phase (s : State) (j : Job) (ph : Phase) : (s.openPass j ph).phase = ph := rfl
@[simp] theorem State.openPass_job (s : State) (j : Job) (ph : Phase) : (s.openPass j ph).job = j := rfl
@[simp] theorem State.openPass_prev (s : State) (j : Job) (ph : Phase) : (s.openPass j ph).prev = Pixel.start := rfl
@[simp] theorem State.openPass_cache (s : State) (j : Job) (ph : Phase) : (s.openPass j ph).cache = Vector.replicate 64 Pixel.zero := rfl
@[simp] theorem State.openPass_run (s : State) (j : Job) (ph : Phase) : (s.openPass j ph).run = 0 := rfl
@[simp] theorem State.openPass_pixPos (s : State) (j : Job) (ph : Phase) : (s.openPass j ph).pixPos = 0 := rfl
@[simp] theorem State.openPass_inPos (s : State) (j : Job) (ph : Phase) : (s.openPass j ph).inPos = 0 := rfl
@[simp] theorem State.openPass_outPos (s : State) (j : Job) (ph : Phase) : (s.openPass j ph).outPos = 0 := rfl
@[simp] theorem State.openPass_csr (s : State) (j : Job) (ph : Phase) : (s.openPass j ph).csr = { s.csr with status := statusBusy } := rfl
@[simp] theorem State.openPass_inBuf (s : State) (j : Job) (ph : Phase) : (s.openPass j ph).inBuf = s.inBuf := rfl
@[simp] theorem State.openPass_outBuf (s : State) (j : Job) (ph : Phase) : (s.openPass j ph).outBuf = s.outBuf := rfl
@[simp] theorem State.openPass_params (s : State) (j : Job) (ph : Phase) : (s.openPass j ph).params = s.params := rfl
@[simp] theorem State.openPass_draws (s : State) (j : Job) (ph : Phase) : (s.openPass j ph).draws = s.draws := rfl
@[simp] theorem State.openPass_host (s : State) (j : Job) (ph : Phase) : (s.openPass j ph).host = s.host := rfl
@[simp] theorem State.openPass_readData (s : State) (j : Job) (ph : Phase) : (s.openPass j ph).readData = s.readData := rfl

end Sys2Proof.Machine
end

