-- ==== Sys2Proof/Laws/Ops.lean ====
section
/-! SUPPORT. One lemma for each shared operation, saying once what it can do: the STATUS words, the cache, the pixel
bytes, the commit, and the ends of the pixel step and of the chunk step. -/

namespace Sys2Proof.Machine

open Sys2Proof.Safety

/-! ### STATUS words -/

@[simp] theorem State.busy_of_statusBusy {s : State} (h : s.csr.status = statusBusy) : s.busy = true := by
  simp [State.busy, h, statusBusy]

theorem statusError_busy (e : ErrCode) : (statusError e).getLsbD 0 = false := by cases e <;> decide

theorem statusError_done (e : ErrCode) : (statusError e).getLsbD 1 = false := by cases e <;> decide

theorem statusError_err (e : ErrCode) : (statusError e).getLsbD 2 = true := by cases e <;> decide

theorem statusError_code (e : ErrCode) : (statusError e).extractLsb' 8 8 = e.code := by cases e <;> decide

theorem statusError_errClass (e : ErrCode) : (statusError e).extractLsb' 16 4 = e.errClass := by cases e <;> decide

/-- The STATUS word of an error as a number: class, code, and ERR (R32). -/
theorem statusError_eq (e : ErrCode) :
    statusError e = BitVec.ofNat 32 (e.errClass.toNat * 65536 + e.code.toNat * 256 + 4) := by cases e <;> decide

/-! ### The color cache -/

@[simp] theorem lookup_store_same (cache : Vector Pixel 64) (i : BitVec 6) (p : Pixel) :
    lookup (store cache i p) i = p := by
  simp [lookup, store]

theorem lookup_store_other {i j : BitVec 6} (h : j ≠ i) (cache : Vector Pixel 64) (p : Pixel) :
    lookup (store cache i p) j = lookup cache j := by
  have hij : i.toNat ≠ j.toNat := fun e => h (BitVec.eq_of_toNat_eq e.symm)
  simp [lookup, store, hij]

@[simp] theorem lookup_replicate (i : BitVec 6) (p : Pixel) : lookup (Vector.replicate 64 p) i = p := by
  simp [lookup]

/-- Storing what the slot holds changes nothing (R132). -/
theorem store_lookup (cache : Vector Pixel 64) (i : BitVec 6) : store cache i (lookup cache i) = cache := by
  simp [lookup, store]

/-! ### Pixel bytes -/

theorem channels_toNat {c : Byte} (h : c = 3 ∨ c = 4) : c.toNat = 3 ∨ c.toNat = 4 := by
  rcases h with rfl | rfl <;> decide

/-- A pixel takes C bytes (R64). -/
theorem bytesOfPixel_length {c : Byte} (h : c = 3 ∨ c = 4) (p : Pixel) : (bytesOfPixel c p).length = c.toNat := by
  rcases h with rfl | rfl <;> rfl

/-- A pixel read back after it is written (R62, R64). -/
theorem pixelAt_writeBytes {c : Byte} (h : c = 3 ∨ c = 4) (m : Memory) (k : Nat) (p : Pixel) :
    PixelAt (m.writeBytes (k * c.toNat) (bytesOfPixel c p)) c.toNat k p := by
  rcases h with rfl | rfl
  · simp only [PixelAt, bytesOfPixel, Memory.writeBytes, if_true]
    simp (disch := omega) [Memory.read_write_same, Memory.read_write_other]
  · have h4 : ¬(4 : Byte) = 3 := by decide
    simp only [PixelAt, bytesOfPixel, Memory.writeBytes, if_neg h4]
    simp (disch := omega) [Memory.read_write_same, Memory.read_write_other]

/-- Bytes that do not change keep their pixel. -/
theorem pixelAt_congr {m m' : Memory} {c k : Nat} {p : Pixel} (hc : c = 3 ∨ c = 4) (h : PixelAt m c k p)
    (he : ∀ a, k * c ≤ a → a < (k + 1) * c → m'.read a = m.read a) : PixelAt m' c k p := by
  obtain ⟨h0, h1, h2, h3⟩ := h
  refine ⟨?_, ?_, ?_, fun h4 => ?_⟩
  · rw [he _ (by omega) (by rcases hc with rfl | rfl <;> omega), h0]
  · rw [he _ (by omega) (by rcases hc with rfl | rfl <;> omega), h1]
  · rw [he _ (by omega) (by rcases hc with rfl | rfl <;> omega), h2]
  · rw [he _ (by omega) (by subst h4; omega), h3 h4]

/-! ### Taking an error -/

/-- R222, R223: everything `raise` does. -/
theorem State.raise_failed (s : State) (e : ErrCode) : Failed s (s.raise e) e.errClass.toNat e.code.toNat where
  status := by simpa using statusError_eq e
  counters := ⟨rfl, rfl, rfl⟩
  csrs := ⟨rfl, rfl, rfl⟩
  phase := rfl
  precise := ⟨rfl, rfl, rfl, rfl, rfl, rfl, rfl⟩
  outside := fun a ha => Memory.read_forget_outside ha _ _
  kept := ⟨rfl, rfl, rfl, rfl⟩

/-- R113, R222, R223: everything a decode pass's header error does, beside WIDTH to COLORSPACE. -/
theorem State.raiseDecHeader_failed (s : State) (e : ErrCode) :
    Failed s (s.raiseDecHeader e) e.errClass.toNat e.code.toNat where
  status := by simpa using statusError_eq e
  counters := ⟨rfl, rfl, rfl⟩
  csrs := ⟨rfl, rfl, rfl⟩
  phase := rfl
  precise := ⟨rfl, rfl, rfl, rfl, rfl, rfl, rfl⟩
  outside := fun a ha => Memory.read_forget_outside ha _ _
  kept := ⟨rfl, rfl, rfl, rfl⟩

/-! ### The bit-packer -/

theorem State.commit_overflow {s : State} {sb : List Byte} (h : s.job.outCap.toNat < s.outPos.toNat + sb.length)
    (t : State) : s.commit t sb = s.raise .outOverflow := by
  rw [State.commit, if_pos h]

theorem State.commit_fits {s : State} {sb : List Byte} (h : Fits s sb) (t : State) :
    s.commit t sb =
      { t with outBuf := t.outBuf.writeBytes s.outPos.toNat sb, outPos := s.outPos + BitVec.ofNat 64 sb.length } := by
  rw [State.commit, if_neg (Nat.not_lt.2 h)]

/-- The two outcomes of a commit (R175, R176). -/
theorem State.commit_cases (s t : State) (sb : List Byte) :
    (s.job.outCap.toNat < s.outPos.toNat + sb.length ∧ s.commit t sb = s.raise .outOverflow) ∨
    (Fits s sb ∧ s.commit t sb =
      { t with outBuf := t.outBuf.writeBytes s.outPos.toNat sb, outPos := s.outPos + BitVec.ofNat 64 sb.length }) := by
  rcases Nat.lt_or_ge s.job.outCap.toNat (s.outPos.toNat + sb.length) with h | h
  · exact .inl ⟨h, State.commit_overflow h t⟩
  · exact .inr ⟨h, State.commit_fits h t⟩

/-- `out_pos` does not wrap while the bytes fit. -/
theorem outPos_toNat_add {s : State} {sb : List Byte} (h : Fits s sb) :
    (s.outPos + BitVec.ofNat 64 sb.length).toNat = s.outPos.toNat + sb.length := by
  have := s.job.outCap.isLt
  unfold Fits at h
  simp only [BitVec.toNat_add, BitVec.toNat_ofNat, Nat.add_mod_mod]
  exact Nat.mod_eq_of_lt (by omega)

/-- A 32-bit count below N does not wrap when it grows by one. -/
theorem pixPos_toNat_add {p : Word32} {k n : Nat} (h : p.toNat + k ≤ n) (hn : n ≤ 4294967295) :
    (p + BitVec.ofNat 32 k).toNat = p.toNat + k := by
  simp only [BitVec.toNat_add, BitVec.toNat_ofNat, Nat.add_mod_mod]
  exact Nat.mod_eq_of_lt (by omega)

/-! ### The end of the pixel step (R173) -/

theorem State.endPixelStep_overflow {s : State} {sb : List Byte}
    (h : s.job.outCap.toNat < s.outPos.toNat + sb.length) (t : State) (px : Pixel) :
    s.endPixelStep t px sb = s.raise .outOverflow :=
  State.commit_overflow h _

theorem State.endPixelStep_fits {s : State} {sb : List Byte} (h : Fits s sb) (t : State) (px : Pixel) :
    s.endPixelStep t px sb =
      { t with
        prev := px
        pixPos := s.pixPos + 1
        inPos := s.inPos + BitVec.ofNat 64 s.job.c.toNat
        phase := if s.pixPos.toNat + 1 = s.job.n then .encTrailer else .encPixels
        outBuf := t.outBuf.writeBytes s.outPos.toNat sb
        outPos := s.outPos + BitVec.ofNat 64 sb.length } := by
  rw [State.endPixelStep, State.commit_fits h]
  simp [State.lastPixel]

/-- The two outcomes of the end of a pixel step. -/
theorem State.endPixelStep_cases (s t : State) (px : Pixel) (sb : List Byte) :
    (s.job.outCap.toNat < s.outPos.toNat + sb.length ∧ s.endPixelStep t px sb = s.raise .outOverflow) ∨
    (Fits s sb ∧ s.endPixelStep t px sb =
      { t with
        prev := px
        pixPos := s.pixPos + 1
        inPos := s.inPos + BitVec.ofNat 64 s.job.c.toNat
        phase := if s.pixPos.toNat + 1 = s.job.n then .encTrailer else .encPixels
        outBuf := t.outBuf.writeBytes s.outPos.toNat sb
        outPos := s.outPos + BitVec.ofNat 64 sb.length }) := by
  rcases Nat.lt_or_ge s.job.outCap.toNat (s.outPos.toNat + sb.length) with h | h
  · exact .inl ⟨h, State.endPixelStep_overflow h t px⟩
  · exact .inr ⟨h, State.endPixelStep_fits h t px⟩

/-- What the end of a pixel step leaves, beside `run`, `cache` and `prev`. -/
theorem State.endPixelStep_emitted {s t : State} {sb : List Byte} (hr : PixelReady s) (h : Fits s sb)
    (hb : t.outBuf = s.outBuf) (hk : t.job = s.job ∧ t.csr = s.csr ∧ t.inBuf = s.inBuf ∧ t.params = s.params ∧
      t.draws = s.draws ∧ t.host = s.host ∧ t.readData = s.readData) (px : Pixel) :
    Emitted s (s.endPixelStep t px sb) sb := by
  rw [State.endPixelStep_fits h]
  refine ⟨?_, ?_, outPos_toNat_add h, ?_, rfl, rfl, hk⟩
  · simp [Memory.readBytes_writeBytes]
  · intro a ha
    simp only [hb]
    exact Memory.read_writeBytes_outside ha _
  · exact pixPos_toNat_add (k := 1) (n := s.job.n) hr.pixels hr.count

/-! ### The framer's checks -/

/-- What a legal header says (R93, R114). -/
theorem legalHeader_iff {p : Config.Params} {w h : Word32} {c cs : Byte} : legalHeader p w h c cs = true ↔
    w ≠ 0 ∧ h ≠ 0 ∧ w.toNat * h.toNat ≤ p.maxPixels ∧ (c = 3 ∨ c = 4) ∧ (cs = 0 ∨ cs = 1) := by
  simp only [legalHeader, Bool.and_eq_true, bne_iff_ne, ne_eq, decide_eq_true_eq, Bool.or_eq_true, beq_iff_eq, and_assoc]

/-- The field check passes exactly the legal headers (R110 to R114). -/
theorem fieldError_none_iff {p : Config.Params} {w h : Word32} {c cs : Byte} :
    fieldError p w h c cs = none ↔ legalHeader p w h c cs = true := by
  rw [legalHeader_iff]
  unfold fieldError
  split_ifs with h1 h2 h3 h4
  · exact ⟨fun e => (by cases e), fun ⟨a, b, _⟩ => absurd h1 (not_or.2 ⟨a, b⟩)⟩
  · exact ⟨fun e => (by cases e), fun ⟨_, _, a, _⟩ => absurd h2 (Nat.not_lt.2 a)⟩
  · exact ⟨fun _ => ⟨(not_or.1 h1).1, (not_or.1 h1).2, Nat.not_lt.1 h2, h3, h4⟩, fun _ => rfl⟩
  · exact ⟨fun e => (by cases e), fun ⟨_, _, _, _, a⟩ => absurd a h4⟩
  · exact ⟨fun e => (by cases e), fun ⟨_, _, _, a, _⟩ => absurd a h3⟩

/-- The field check raises no error of another step. -/
theorem fieldError_some {p : Config.Params} {w h : Word32} {c cs : Byte} {e : ErrCode}
    (hn : fieldError p w h c cs = some e) : e = .dimZero ∨ e = .dimOverflow ∨ e = .badChannels ∨ e = .badColorspace := by
  unfold fieldError at hn
  split_ifs at hn <;> cases hn <;> simp

/-- The outcomes of the ENC_HEADER step: an error, or the header written. -/
theorem State.encodeHeader_cases (s : State) (w h : Word32) (c cs : Byte) :
    (∃ e, e ≠ .decBadTag ∧ s.encodeHeader w h c cs = s.raise e) ∨
    (legalHeader s.params s.job.w s.job.h s.job.c s.job.cs = true ∧
      s.job.inLen.toNat = s.job.w.toNat * s.job.h.toNat * s.job.c.toNat ∧ Fits s (encode (.header w h c cs)) ∧
      s.encodeHeader w h c cs =
        { s with
          job := { s.job with n := s.job.w.toNat * s.job.h.toNat }
          phase := .encPixels
          outBuf := s.outBuf.writeBytes s.outPos.toNat (encode (.header w h c cs))
          outPos := s.outPos + BitVec.ofNat 64 (encode (.header w h c cs)).length }) := by
  unfold State.encodeHeader
  split
  · next e he =>
    refine .inl ⟨e, ?_, rfl⟩
    unfold jobError at he
    split at he
    · next e' he' =>
      cases he
      rcases fieldError_some he' with rfl | rfl | rfl | rfl <;> decide
    · split at he <;> cases he
      decide
  · next he =>
    unfold jobError at he
    split at he
    · cases he
    · next hf =>
      split at he
      · cases he
      · next hl =>
        rcases s.commit_cases { s with job := { s.job with n := s.job.w.toNat * s.job.h.toNat }, phase := .encPixels }
          (encode (.header w h c cs)) with ⟨-, hc⟩ | ⟨hfit, hc⟩
        · exact .inl ⟨.outOverflow, by decide, hc⟩
        · exact .inr ⟨fieldError_none_iff.1 hf, not_not.1 hl, hfit, hc⟩

/-- The outcomes of the DEC_HEADER step once the record is read. -/
theorem State.decodeHeader_cases (s : State) (w h : Word32) (c cs : Byte) :
    (∃ e, e ≠ .decBadTag ∧ s.decodeHeader w h c cs = s.raiseDecHeader e) ∨
    (legalHeader s.params w h c cs = true ∧ s.job.outCap.toNat < w.toNat * h.toNat * c.toNat ∧
      s.decodeHeader w h c cs = (s.reportHeader w h c cs).raise .outOverflow) ∨
    (legalHeader s.params w h c cs = true ∧ w.toNat * h.toNat * c.toNat ≤ s.job.outCap.toNat ∧
      s.decodeHeader w h c cs = s.acceptHeader w h c cs) := by
  unfold State.decodeHeader
  split
  · next e he =>
    refine .inl ⟨e, ?_, rfl⟩
    rcases fieldError_some he with rfl | rfl | rfl | rfl <;> decide
  · next he =>
    split
    · next hc => exact .inr (.inl ⟨fieldError_none_iff.1 he, hc, rfl⟩)
    · next hc => exact .inr (.inr ⟨fieldError_none_iff.1 he, Nat.not_lt.1 hc, rfl⟩)

/-- The two outcomes of the ENC_TRAILER step. -/
theorem State.encodeEnd_cases (s : State) :
    (s.job.outCap.toNat < s.outPos.toNat + 8 ∧ s.encodeEnd = s.raise .outOverflow) ∨
    (Fits s (encode .endMarker) ∧ s.encodeEnd =
      { s with
        outBuf := s.outBuf.writeBytes s.outPos.toNat endBytes
        outPos := s.outPos + BitVec.ofNat 64 8 }.complete) := by
  rcases Nat.lt_or_ge s.job.outCap.toNat (s.outPos.toNat + 8) with h | h
  · exact .inl ⟨h, if_pos h⟩
  · have hf : Fits s (encode .endMarker) := h
    refine .inr ⟨hf, ?_⟩
    rw [State.encodeEnd, if_neg (by exact Nat.not_lt.2 h), State.commit_fits hf]
    rfl

/-! ### The end of the chunk step (R193, R197) -/

theorem State.completeIfFull_full {s : State} (h : s.pixPos.toNat = s.job.n) : s.completeIfFull = s.complete := if_pos h

theorem State.completeIfFull_open {s : State} (h : s.pixPos.toNat ≠ s.job.n) : s.completeIfFull = s := if_neg h

/-- Completion changes nothing but the phase and the CSRs. -/
theorem State.completeIfFull_kept (s : State) :
    s.completeIfFull.job = s.job ∧ s.completeIfFull.prev = s.prev ∧ s.completeIfFull.cache = s.cache ∧
    s.completeIfFull.run = s.run ∧ s.completeIfFull.pixPos = s.pixPos ∧ s.completeIfFull.inPos = s.inPos ∧
    s.completeIfFull.outPos = s.outPos ∧ s.completeIfFull.inBuf = s.inBuf ∧ s.completeIfFull.outBuf = s.outBuf ∧
    s.completeIfFull.params = s.params ∧ s.completeIfFull.draws = s.draws ∧ s.completeIfFull.host = s.host ∧
    s.completeIfFull.readData = s.readData := by
  unfold State.completeIfFull
  split <;> simp

/-! ### Writing pixels (R143, R195) -/

/-- Writing pixels touches OUT and the two counters only. -/
theorem State.writePixels_kept (s : State) (p : Pixel) (k : Nat) :
    (s.writePixels p k).phase = s.phase ∧ (s.writePixels p k).job = s.job ∧ (s.writePixels p k).prev = s.prev ∧
    (s.writePixels p k).cache = s.cache ∧ (s.writePixels p k).run = s.run ∧ (s.writePixels p k).inPos = s.inPos ∧
    (s.writePixels p k).csr = s.csr ∧ (s.writePixels p k).inBuf = s.inBuf ∧ (s.writePixels p k).params = s.params ∧
    (s.writePixels p k).draws = s.draws ∧ (s.writePixels p k).host = s.host ∧
    (s.writePixels p k).readData = s.readData := by
  induction k generalizing s with
  | zero => simp [State.writePixels]
  | succ k ih => simpa [State.writePixels] using ih (s.writePixel p)

theorem State.writePixels_outPos (s : State) (p : Pixel) (k : Nat) :
    (s.writePixels p k).outPos = s.outPos + BitVec.ofNat 64 (k * s.job.c.toNat) := by
  induction k generalizing s with
  | zero => simp [State.writePixels]
  | succ k ih =>
    rw [State.writePixels, ih (s.writePixel p)]
    simp only [State.writePixel_outPos, State.writePixel_job, BitVec.add_assoc, Nat.succ_mul]
    rw [← BitVec.ofNat_add, Nat.add_comm]

theorem State.writePixels_pixPos (s : State) (p : Pixel) (k : Nat) :
    (s.writePixels p k).pixPos = s.pixPos + BitVec.ofNat 32 k := by
  induction k generalizing s with
  | zero => simp [State.writePixels]
  | succ k ih =>
    rw [State.writePixels, ih (s.writePixel p)]
    simp only [State.writePixel_pixPos, BitVec.add_assoc]
    rw [show (1 : Word32) = BitVec.ofNat 32 1 from rfl, ← BitVec.ofNat_add, Nat.add_comm]

/-- The written pixels, and every other byte of OUT as it was. -/
theorem State.writePixels_outBuf {s : State} {p : Pixel} {k : Nat} (hc : s.job.c = 3 ∨ s.job.c = 4)
    (hk : s.pixPos.toNat + k ≤ 4294967295) :
    (∀ j, j < k → PixelAt (s.writePixels p k).outBuf s.job.c.toNat (s.pixPos.toNat + j) p) ∧
    ∀ a, a < s.pixPos.toNat * s.job.c.toNat ∨ (s.pixPos.toNat + k) * s.job.c.toNat ≤ a →
      (s.writePixels p k).outBuf.read a = s.outBuf.read a := by
  induction k generalizing s with
  | zero => exact ⟨fun j hj => absurd hj (Nat.not_lt_zero j), fun _ _ => rfl⟩
  | succ k ih =>
    have hp : (s.writePixel p).pixPos.toNat = s.pixPos.toNat + 1 :=
      pixPos_toNat_add (k := 1) (n := 4294967295) (by omega) (Nat.le_refl _)
    obtain ⟨hin, hout⟩ := ih (s := s.writePixel p) (by simpa using hc) (by omega)
    simp only [State.writePixel_job, hp] at hin hout
    have hlen := bytesOfPixel_length hc p
    have hc' := channels_toNat hc
    refine ⟨fun j hj => ?_, fun a ha => ?_⟩
    · rcases Nat.eq_zero_or_pos j with rfl | hpos
      · refine pixelAt_congr hc' (pixelAt_writeBytes hc s.outBuf s.pixPos.toNat p) fun a _ ha2 => ?_
        exact hout a (.inl ha2)
      · have := hin (j - 1) (by omega)
        rwa [show s.pixPos.toNat + 1 + (j - 1) = s.pixPos.toNat + j by omega] at this
    · rw [State.writePixels, hout a (by rcases hc' with h | h <;> rw [h] at ha ⊢ <;> omega)]
      exact Memory.read_writeBytes_outside (by rw [hlen]; rcases hc' with h | h <;> rw [h] at ha ⊢ <;> omega) _

/-! ### A decoded chunk -/

/-- What a chunk leaves, from what is known of the state before its completion. -/
theorem decoded_of_open {s u : State} {p : Pixel} {k len : Nat} (hr : ChunkReady s) (hk : s.pixPos.toNat + k ≤ s.job.n)
    (hphase : u.phase = s.phase) (hcsr : u.csr = s.csr) (hjob : u.job = s.job)
    (hpix : u.pixPos = s.pixPos + BitVec.ofNat 32 k) (hin : u.inPos = s.inPos + BitVec.ofNat 64 len)
    (hout : u.outPos = s.outPos + BitVec.ofNat 64 (k * s.job.c.toNat))
    (hbuf : u.outBuf = (s.writePixels p k).outBuf)
    (hkept : u.run = s.run ∧ u.inBuf = s.inBuf ∧ u.params = s.params ∧ u.draws = s.draws ∧ u.host = s.host ∧
      u.readData = s.readData) :
    Decoded s u.completeIfFull p k len := by
  have hp : u.pixPos.toNat = s.pixPos.toNat + k := by rw [hpix]; exact pixPos_toNat_add hk hr.count
  obtain ⟨kjob, -, -, krun, kpix, kin, kout, kinb, koutb, kpar, kdr, khost, krd⟩ := u.completeIfFull_kept
  obtain ⟨hw, ho⟩ := State.writePixels_outBuf (p := p) hr.channels (Nat.le_trans hk hr.count)
  obtain ⟨h1, h2, h3, h4, h5, h6⟩ := hkept
  refine ⟨by rw [kpix, hp], by rw [kin, hin], by rw [kout, hout], ?_, ?_, ?_, ?_, ?_⟩
  · intro j hj; rw [koutb, hbuf]; exact hw j hj
  · intro a ha; rw [koutb, hbuf]; exact ho a ha
  · exact ⟨krun.trans h1, kjob.trans hjob, kinb.trans h2, kpar.trans h3, kdr.trans h4, khost.trans h5, krd.trans h6⟩
  · intro hlt
    rw [State.completeIfFull_open (by rw [hp, hjob]; omega)]
    exact ⟨hphase.trans hr.phase, hcsr⟩
  · intro heq
    rw [State.completeIfFull_full (by rw [hp, hjob]; exact heq)]
    exact ⟨rfl, by simp [hcsr, statusDone]⟩

/-- R145, R147, R149, R151, R153: everything a one-pixel chunk does. -/
theorem State.decodePixel_spec {s : State} (hr : ChunkReady s) (px : Pixel) (len : Nat) :
    NonRun s (s.decodePixel px len) px ∧ Decoded s (s.decodePixel px len) px 1 len := by
  constructor
  · obtain ⟨-, hprev, hcache, -⟩ :=
      State.completeIfFull_kept { (s.nonRunUpdate px).writePixel px with inPos := s.inPos + BitVec.ofNat 64 len }
    refine ⟨hprev.trans rfl, ?_, fun i hi => ?_⟩
    · rw [State.decodePixel, hcache]; simp
    · rw [State.decodePixel, hcache]; exact lookup_store_other hi _ _
  · exact decoded_of_open hr hr.pixels rfl rfl rfl rfl rfl (by simp) rfl ⟨rfl, rfl, rfl, rfl, rfl, rfl⟩

/-- R143: everything OP_RUN does. -/
theorem State.decodeRun_spec {s : State} (hr : ChunkReady s) (n : Nat) :
    (s.decodeRun n).prev = s.prev ∧ (s.decodeRun n).cache = s.cache ∧
      Decoded s (s.decodeRun n) s.prev (min n (s.job.n - s.pixPos.toNat)) 1 := by
  obtain ⟨kph, kjob, kprev, kcache, krun, -, kcsr, kinb, kpar, kdr, khost, krd⟩ :=
    s.writePixels_kept s.prev (min n (s.job.n - s.pixPos.toNat))
  obtain ⟨-, hprev, hcache, -⟩ :=
    State.completeIfFull_kept
      { s.writePixels s.prev (min n (s.job.n - s.pixPos.toNat)) with inPos := s.inPos + 1 }
  refine ⟨hprev.trans kprev, hcache.trans kcache, ?_⟩
  have := hr.pixels
  exact decoded_of_open hr (by omega) kph kcsr kjob (State.writePixels_pixPos _ _ _) rfl
    (State.writePixels_outPos _ _ _) rfl ⟨krun, kinb, kpar, kdr, khost, krd⟩

end Sys2Proof.Machine
end

