-- ==== Sys2Proof/Laws/Step.lean ====
section
/-! SUPPORT. What a step can do, said once: the fetch, the engine's moves, the host's moves. Later proofs go by cases on these
and unfold neither `exec` nor `engineStep`. -/

namespace Sys2Proof.Machine

open Sys2Proof.Safety

/-! ### The meanings in their phases -/

/-- What a chunk is to the decoder: the pixel it stands for and its length; an OP_RUN stands for no pixel of its own. -/
def chunkPixel (s : State) : Instr → Option (Pixel × Nat)
  | .opIndex idx => some (lookup s.cache idx, 1)
  | .opDiff dr2 dg2 db2 => some (diffPixel s.prev dr2 dg2 db2, 1)
  | .opLuma dg32 drg8 dbg8 => some (lumaPixel s.prev dg32 drg8 dbg8, 2)
  | .opRun _ => none
  | .opRgb r g b => some (rgbPixel s.prev r g b, 4)
  | .opRgba r g b a => some (⟨r, g, b, a⟩, 5)
  | .header _ _ _ _ => none
  | .endMarker => none

/-- A chunk's length is that of its encoding. -/
theorem chunkPixel_length {s : State} {i : Instr} {px : Pixel} {len : Nat} (h : chunkPixel s i = some (px, len)) :
    len = (encode i).length := by
  cases i <;> simp_all [chunkPixel, encode]

theorem exec_decChunks_pixel {s : State} {i : Instr} {px : Pixel} {len : Nat} (hp : s.phase = .decChunks)
    (h : chunkPixel s i = some (px, len)) : exec i s = .next (s.decodePixel px len) := by
  cases i <;> simp only [chunkPixel, Option.some.injEq, Prod.mk.injEq, reduceCtorEq] at h
  all_goals
    obtain ⟨rfl, rfl⟩ := h
    simp only [exec, execOpIndex, execOpDiff, execOpLuma, execOpRgb, execOpRgba, runChunk, hp]

theorem exec_decChunks_run {s : State} (hp : s.phase = .decChunks) (len1 : BitVec 6) :
    exec (.opRun len1) s = .next (s.decodeRun (len1.toNat + 1)) := by
  simp only [exec, execOpRun, runChunk, hp]

theorem exec_decHeader {s : State} (hp : s.phase = .decHeader) (w h : Word32) (c cs : Byte) :
    exec (.header w h c cs) s = .next (s.decodeHeader w h c cs) := by
  simp only [exec, execHeader, hp]

theorem exec_encHeader {s : State} (hp : s.phase = .encHeader) :
    exec (.header s.job.w s.job.h s.job.c s.job.cs) s =
      .next (s.encodeHeader s.job.w s.job.h s.job.c s.job.cs) := by
  simp only [exec, execHeader, hp, and_self, if_true]

theorem exec_encTrailer {s : State} (hp : s.phase = .encTrailer) : exec .endMarker s = .next s.encodeEnd := by
  simp only [exec, execEndMarker, hp]

/-- A run pixel's step: `nextChunk` is the flush or nothing. -/
theorem nextChunk_run {s : State} (h : s.readPixel = s.prev) :
    s.nextChunk = if s.run.toNat + 1 = 62 ∨ s.pixPos.toNat + 1 = s.job.n then some (.opRun s.run) else none := by
  simp [State.nextChunk, h, Config.runMax, State.lastPixel]

/-- Any other pixel's step: `nextChunk` is the dispatcher's choice. -/
theorem nextChunk_chunk {s : State} (h : s.readPixel ≠ s.prev) :
    s.nextChunk = chunkOf s.readPixel s.prev s.cache := by
  simp [State.nextChunk, h]

/-- The dispatcher always finds a chunk for a pixel that differs from `prev`, and it is neither an OP_RUN nor a framing
record. -/
theorem chunkOf_some {px prev : Pixel} (h : px ≠ prev) (cache : Vector Pixel 64) :
    ∃ i, chunkOf px prev cache = some i ∧ i.slot = .chunk ∧ ∀ l, i ≠ .opRun l := by
  unfold chunkOf classify
  rw [if_neg h]
  split_ifs
  all_goals exact ⟨_, rfl, rfl, fun l => Instr.noConfusion⟩

theorem exec_encPixels_chunk {s : State} {i : Instr} (hr : PixelReady s) (hne : s.readPixel ≠ s.prev)
    (h : chunkOf s.readPixel s.prev s.cache = some i) : exec i s = .next (s.encodeChunk i) := by
  have hg : s.pixPos.toNat < s.job.n ∧ s.nextChunk = some i := ⟨hr.pixels, (nextChunk_chunk hne).trans h⟩
  obtain ⟨j, hj, hs, hrun⟩ := chunkOf_some hne s.cache
  obtain rfl : i = j := by simpa [h] using hj
  cases i with
  | opRun l => exact absurd rfl (hrun l)
  | header w h c cs => simp [Instr.slot] at hs
  | endMarker => simp [Instr.slot] at hs
  | _ =>
    simp only [exec, execOpIndex, execOpDiff, execOpLuma, execOpRgb, execOpRgba, runChunk, hr.phase, if_pos hg]

theorem exec_encPixels_run {s : State} (hr : PixelReady s) (heq : s.readPixel = s.prev)
    (h : s.run.toNat + 1 = 62 ∨ s.pixPos.toNat + 1 = s.job.n) :
    exec (.opRun s.run) s = .next (s.encodeRun s.run) := by
  have hg : s.pixPos.toNat < s.job.n ∧ s.nextChunk = some (.opRun s.run) :=
    ⟨hr.pixels, by rw [nextChunk_run heq, if_pos h]⟩
  simp only [exec, execOpRun, runChunk, hr.phase, if_pos hg]

/-! ### The fetch -/

/-- What the chunk fetch answers: a truncation, or a chunk all of whose bytes lie below IN_LEN (R193, R194). The unknown
tag is not among the answers (R220). -/
theorem fetchChunk_cases (s : State) :
    (s.job.inLen.toNat ≤ s.inPos.toNat ∧ s.fetchChunk = .error .decTruncStream) ∨
    (s.inPos.toNat < s.job.inLen.toNat ∧
      s.job.inLen.toNat < s.inPos.toNat + chunkLen (s.inBuf.read s.inPos.toNat) ∧
      s.fetchChunk = .error .decTruncChunk) ∨
    ∃ i, s.fetchChunk = .ok i ∧ i.slot = .chunk ∧ (encode i).length = chunkLen (s.inBuf.read s.inPos.toNat) ∧
      s.inPos.toNat + (encode i).length ≤ s.job.inLen.toNat ∧ 1 ≤ (encode i).length ∧ (encode i).length ≤ 5 ∧
      ∃ rest, decodeChunk (s.inBuf.readBytes s.inPos.toNat (encode i).length) = .ok (i, rest) := by
  unfold State.fetchChunk
  by_cases h1 : s.inPos.toNat ≥ s.job.inLen.toNat
  · exact .inl ⟨h1, by rw [if_pos h1]⟩
  rw [if_neg h1]
  simp only
  by_cases h2 : s.inPos.toNat + chunkLen (s.inBuf.read s.inPos.toNat) > s.job.inLen.toNat
  · exact .inr (.inl ⟨by omega, h2, by rw [if_pos h2]⟩)
  rw [if_neg h2]
  refine .inr (.inr ?_)
  obtain ⟨hl1, hl5⟩ := chunkLen_bounds (s.inBuf.read s.inPos.toNat)
  obtain ⟨n, hn⟩ : ∃ n, chunkLen (s.inBuf.read s.inPos.toNat) = n + 1 := ⟨_, (Nat.sub_add_cancel hl1).symm⟩
  obtain ⟨i, rest, hd, hs, hlen, -⟩ :=
    decodeChunk_total (s.inBuf.read s.inPos.toNat) (s.inBuf.readBytes (s.inPos.toNat + 1) n) (by simp [hn])
  have hd' : decodeChunk (s.inBuf.readBytes s.inPos.toNat (chunkLen (s.inBuf.read s.inPos.toNat))) = .ok (i, rest) := by
    rw [hn]; exact hd
  refine ⟨i, ?_, hs, hlen, by omega, by omega, by omega, rest, by rw [hlen]; exact hd'⟩
  simp [decode, hd']

/-- What the header fetch answers (R113). -/
theorem fetchHeader_cases (s : State) :
    (s.job.inLen.toNat < 14 ∧ s.fetchHeader = .error .decTruncHeader) ∨
    (14 ≤ s.job.inLen.toNat ∧ s.inBuf.readBytes 0 4 ≠ magic ∧ s.fetchHeader = .error .badMagic) ∨
    (14 ≤ s.job.inLen.toNat ∧ s.inBuf.readBytes 0 4 = magic ∧ s.fetchHeader =
      .ok (.header (be32 (s.inBuf.read 4) (s.inBuf.read 5) (s.inBuf.read 6) (s.inBuf.read 7))
        (be32 (s.inBuf.read 8) (s.inBuf.read 9) (s.inBuf.read 10) (s.inBuf.read 11)) (s.inBuf.read 12)
        (s.inBuf.read 13))) := by
  unfold State.fetchHeader
  by_cases h1 : s.job.inLen.toNat < Config.headerLen
  · exact .inl ⟨h1, by rw [if_pos h1]⟩
  rw [if_neg h1]
  have h1' : 14 ≤ s.job.inLen.toNat := by simpa [Config.headerLen] using h1
  by_cases h2 : s.inBuf.readBytes 0 4 = magic
  · have h2' : [s.inBuf.read 0, s.inBuf.read 1, s.inBuf.read 2, s.inBuf.read 3] = magic := h2
    exact .inr (.inr ⟨h1', h2, by simp [Config.headerLen, Memory.readBytes, decode, Sys2Proof.decodeHeader, h2']⟩)
  · have h2' : ¬[s.inBuf.read 0, s.inBuf.read 1, s.inBuf.read 2, s.inBuf.read 3] = magic := h2
    exact .inr (.inl ⟨h1', h2, by simp [Config.headerLen, Memory.readBytes, decode, Sys2Proof.decodeHeader, h2']⟩)

/-! ### The engine's moves -/

/-- Everything one engine step can do, with what is known when it does it. -/
inductive EngineMove (s : State) : State → Prop
  /-- R225, R235. -/
  | rest (h : s.phase = .idle ∨ s.phase = .done ∨ s.phase = .error) : EngineMove s s
  /-- No pixel is left: no step of R173 or R193 runs. No run reaches this. -/
  | full (hp : s.phase = .encPixels ∨ s.phase = .decChunks) (h : s.job.n ≤ s.pixPos.toNat) : EngineMove s s
  /-- R111, R112. -/
  | encHeader (hp : s.phase = .encHeader) : EngineMove s (s.encodeHeader s.job.w s.job.h s.job.c s.job.cs)
  /-- R173, a run goes on. -/
  | encRunOn (hp : s.phase = .encPixels) (hn : s.pixPos.toNat < s.job.n) (heq : s.readPixel = s.prev)
      (h : s.run.toNat + 1 ≠ 62 ∧ s.pixPos.toNat + 1 ≠ s.job.n) : EngineMove s s.encodeRunOn
  /-- R174 cases 1 and 2. -/
  | encRun (hp : s.phase = .encPixels) (hn : s.pixPos.toNat < s.job.n) (heq : s.readPixel = s.prev)
      (h : s.run.toNat + 1 = 62 ∨ s.pixPos.toNat + 1 = s.job.n) : EngineMove s (s.encodeRun s.run)
  /-- R173, a pixel that differs from `prev`. -/
  | encChunk (hp : s.phase = .encPixels) (hn : s.pixPos.toNat < s.job.n) (hne : s.readPixel ≠ s.prev) (i : Instr)
      (hi : chunkOf s.readPixel s.prev s.cache = some i) : EngineMove s (s.encodeChunk i)
  /-- R115. -/
  | encEnd (hp : s.phase = .encTrailer) : EngineMove s s.encodeEnd
  /-- R113, the record itself is missing or wrong. -/
  | decHeaderBad (hp : s.phase = .decHeader) (e : ErrCode) (he : e = .decTruncHeader ∨ e = .badMagic) :
      EngineMove s (s.raiseDecHeader e)
  /-- R113, R192. -/
  | decHeader (hp : s.phase = .decHeader) (hl : 14 ≤ s.job.inLen.toNat) (w h : Word32) (c cs : Byte)
      (hw : w = be32 (s.inBuf.read 4) (s.inBuf.read 5) (s.inBuf.read 6) (s.inBuf.read 7))
      (hh : h = be32 (s.inBuf.read 8) (s.inBuf.read 9) (s.inBuf.read 10) (s.inBuf.read 11)) :
      EngineMove s (s.decodeHeader w h c cs)
  /-- R194. -/
  | decTrunc (hp : s.phase = .decChunks) (hn : s.pixPos.toNat < s.job.n) (e : ErrCode)
      (he : e = .decTruncStream ∨ e = .decTruncChunk) : EngineMove s (s.raise e)
  /-- R143. -/
  | decRun (hp : s.phase = .decChunks) (hn : s.pixPos.toNat < s.job.n)
      (hl : s.inPos.toNat + 1 ≤ s.job.inLen.toNat) (len1 : BitVec 6) : EngineMove s (s.decodeRun (len1.toNat + 1))
  /-- R145, R147, R149, R151, R153. -/
  | decPixel (hp : s.phase = .decChunks) (hn : s.pixPos.toNat < s.job.n) (px : Pixel) (len : Nat)
      (hl : s.inPos.toNat + len ≤ s.job.inLen.toNat) : EngineMove s (s.decodePixel px len)

/-- The engine always answers a next state, by one of its moves: it neither faults nor refuses. -/
theorem engineStep_cases (s : State) : ∃ t, engineStep s = .next t ∧ EngineMove s t := by
  cases hp : s.phase with
  | idle => exact ⟨s, by simp [engineStep, hp], .rest (.inl hp)⟩
  | done => exact ⟨s, by simp [engineStep, hp], .rest (.inr (.inl hp))⟩
  | error => exact ⟨s, by simp [engineStep, hp], .rest (.inr (.inr hp))⟩
  | encHeader => exact ⟨_, by simp only [engineStep, hp]; exact exec_encHeader hp, .encHeader hp⟩
  | encTrailer => exact ⟨_, by simp only [engineStep, hp]; exact exec_encTrailer hp, .encEnd hp⟩
  | encPixels =>
    simp only [engineStep, hp]
    by_cases hn : s.pixPos.toNat < s.job.n
    · rw [if_pos hn]
      by_cases heq : s.readPixel = s.prev
      · rw [nextChunk_run heq]
        by_cases hc : s.run.toNat + 1 = 62 ∨ s.pixPos.toNat + 1 = s.job.n
        · rw [if_pos hc]
          refine ⟨_, ?_, .encRun hp hn heq hc⟩
          have hg : s.pixPos.toNat < s.job.n ∧ s.nextChunk = some (.opRun s.run) :=
            ⟨hn, by rw [nextChunk_run heq, if_pos hc]⟩
          simp only [exec, execOpRun, runChunk, hp, if_pos hg]
        · rw [if_neg hc]
          exact ⟨_, rfl, .encRunOn hp hn heq (not_or.1 hc)⟩
      · rw [nextChunk_chunk heq]
        obtain ⟨i, hi, hs, hrun⟩ := chunkOf_some heq s.cache
        rw [hi]
        refine ⟨_, ?_, .encChunk hp hn heq i hi⟩
        have hg : s.pixPos.toNat < s.job.n ∧ s.nextChunk = some i := ⟨hn, (nextChunk_chunk heq).trans hi⟩
        cases i with
        | opRun l => exact absurd rfl (hrun l)
        | header w h c cs => simp [Instr.slot] at hs
        | endMarker => simp [Instr.slot] at hs
        | _ => simp only [exec, execOpIndex, execOpDiff, execOpLuma, execOpRgb, execOpRgba, runChunk, hp, if_pos hg]
    · rw [if_neg hn]
      exact ⟨s, rfl, .full (.inl hp) (by omega)⟩
  | decHeader =>
    simp only [engineStep, hp]
    rcases fetchHeader_cases s with ⟨-, hf⟩ | ⟨-, -, hf⟩ | ⟨hl, -, hf⟩ <;> rw [hf]
    · exact ⟨_, rfl, .decHeaderBad hp _ (.inl rfl)⟩
    · exact ⟨_, rfl, .decHeaderBad hp _ (.inr rfl)⟩
    · exact ⟨_, exec_decHeader hp _ _ _ _, .decHeader hp hl _ _ _ _ rfl rfl⟩
  | decChunks =>
    simp only [engineStep, hp]
    by_cases hn : s.pixPos.toNat < s.job.n
    · rw [if_pos hn]
      rcases fetchChunk_cases s with ⟨-, hf⟩ | ⟨-, -, hf⟩ | ⟨i, hf, hs, -, hl, -⟩ <;> rw [hf]
      · exact ⟨_, rfl, .decTrunc hp hn _ (.inl rfl)⟩
      · exact ⟨_, rfl, .decTrunc hp hn _ (.inr rfl)⟩
      · cases hcp : chunkPixel s i with
        | some q =>
          obtain ⟨px, len⟩ := q
          rw [← chunkPixel_length hcp] at hl
          exact ⟨_, exec_decChunks_pixel hp hcp, .decPixel hp hn px len hl⟩
        | none =>
          cases i with
          | opRun l => exact ⟨_, exec_decChunks_run hp l, .decRun hp hn hl l⟩
          | header w h c cs => simp [Instr.slot] at hs
          | endMarker => simp [Instr.slot] at hs
          | _ => simp [chunkPixel] at hcp
    · rw [if_neg hn]
      exact ⟨s, rfl, .full (.inr hp) (by omega)⟩

/-- An engine step that answers `t` made one of the moves. -/
theorem engineMove_of_next {s t : State} (h : engineStep s = .next t) : EngineMove s t := by
  obtain ⟨u, hu, hm⟩ := engineStep_cases s
  rw [hu] at h
  cases h
  exact hm

/-! ### A step of the machine -/

/-- Everything a step that answers a next state can be. `r` is the state with the host's move taken off its list. -/
theorem step_cases {s t : State} (h : step s = .next t) :
    (s.host = [] ∧ engineStep s = .next t) ∨
    ∃ m rest, s.host = m :: rest ∧ hostStep m { s with host := rest } = .next t := by
  unfold step at h
  split at h
  · next hh => exact .inl ⟨hh, h⟩
  · next m rest hh => exact .inr ⟨m, rest, hh, h⟩

theorem step_engine {s : State} (h : s.host = []) : step s = engineStep s := by
  rw [step, h]

theorem step_host {s : State} {m : HostMove} {rest : List HostMove} (h : s.host = m :: rest) :
    step s = hostStep m { s with host := rest } := by
  rw [step, h]

/-- Outside a pass a buffer access has its effect, and in one it is refused. -/
theorem bufferAccess_idle {s : State} (h : s.busy = false) (t : State) : s.bufferAccess t = .next t := by
  simp [State.bufferAccess, h]

theorem bufferAccess_busy {s : State} (h : s.busy = true) (t : State) : s.bufferAccess t = .refused .hostDutyBroken := by
  simp [State.bufferAccess, h]

theorem bufferAccess_next {s t u : State} (h : s.bufferAccess t = .next u) : s.busy = false ∧ u = t := by
  cases hb : s.busy
  · rw [bufferAccess_idle hb] at h; exact ⟨rfl, by cases h; rfl⟩
  · rw [bufferAccess_busy hb] at h; simp at h

/-- Everything a move of the host that is not refused can do. -/
inductive HostEffect (s : State) : HostMove → State → Prop
  | engine (t : State) (h : EngineMove s t) : HostEffect s .wait t
  | writeCsr (reg : BitVec 4) (v : BitVec 64) : HostEffect s (.writeCsr reg v) (s.writeCsr reg v)
  | readCsr (reg : BitVec 4) : HostEffect s (.readCsr reg) (s.readCsr reg)
  | writeIn (a : Addr) (v : Byte) (h : s.busy = false) :
      HostEffect s (.writeIn a v) { s with inBuf := s.inBuf.write a.toNat v }
  | readIn (a : Addr) (h : s.busy = false) :
      HostEffect s (.readIn a) { s with readData := (s.inBuf.read a.toNat).setWidth 64 }
  | writeOut (a : Addr) (v : Byte) (h : s.busy = false) :
      HostEffect s (.writeOut a v) { s with outBuf := s.outBuf.write a.toNat v }
  | readOut (a : Addr) (h : s.busy = false) :
      HostEffect s (.readOut a) { s with readData := (s.outBuf.read a.toNat).setWidth 64 }
  | reset : HostEffect s .assertReset s.hostReset

theorem hostEffect_of_next {s t : State} {m : HostMove} (h : hostStep m s = .next t) : HostEffect s m t := by
  cases m <;> simp only [hostStep] at h
  · exact .engine t (engineMove_of_next h)
  · cases h; exact .writeCsr _ _
  · cases h; exact .readCsr _
  · obtain ⟨hb, rfl⟩ := bufferAccess_next h; exact .writeIn _ _ hb
  · obtain ⟨hb, rfl⟩ := bufferAccess_next h; exact .readIn _ hb
  · obtain ⟨hb, rfl⟩ := bufferAccess_next h; exact .writeOut _ _ hb
  · obtain ⟨hb, rfl⟩ := bufferAccess_next h; exact .readOut _ hb
  · cases h; exact .reset

/-- R31: what CTRL keeps of a written word is its MODE bit. -/
theorem modeBit_eq (x : Word32) : x &&& 2 = if x.getLsbD 1 then 2 else 0 := by
  apply BitVec.eq_of_toNat_eq
  have h : x.toNat &&& 2 = (x.toNat.testBit 1).toNat * 2 := Nat.and_two_pow x.toNat 1
  rw [BitVec.toNat_and]
  show x.toNat &&& 2 = _
  rw [h, ← BitVec.getLsbD]
  cases x.getLsbD 1 <;> rfl

/-- R30 to R41: what each CSR number stands for, in every state. -/
theorem State.csrMap (s : State) : CsrMap s := by
  refine ⟨rfl, rfl, rfl, rfl, rfl, rfl, rfl, rfl, rfl, rfl, rfl, fun reg h => ?_⟩
  unfold State.csrValue
  split <;> first | omega | rfl

/-- Everything a CSR write can do: nothing, a value for one register, or MODE with or without an accepted START. -/
theorem writeCsr_cases (s : State) (reg : BitVec 4) (v : BitVec 64) :
    s.writeCsr reg v = s ∨
    (s.busy = false ∧ ∃ m, (m = 0 ∨ m = 2) ∧ s.writeCsr reg v = { s with csr := { s.csr with ctrl := m } }) ∨
    (s.busy = false ∧ ∃ m md, (m = 0 ∨ m = 2) ∧ reg = 0 ∧ v.getLsbD 0 = true ∧
      s.writeCsr reg v = { s with csr := { s.csr with ctrl := m } }.start md) ∨
    (s.busy = false ∧ ∃ w h c cs il oc, s.writeCsr reg v =
      { s with csr := { s.csr with width := w, height := h, channels := c, colorspace := cs, inLen := il, outCap := oc } })
    := by
  by_cases hb : s.busy = true
  · exact .inl (by simp [State.writeCsr, hb])
  have hb' : s.busy = false := by simpa using hb
  have hm : ∀ x : Word32, x &&& 2 = 0 ∨ x &&& 2 = 2 := by
    intro x; rw [modeBit_eq]; split <;> simp
  simp only [State.writeCsr, hb', Bool.false_eq_true, if_false]
  split
  · next hreg =>
    have hr : reg = 0 := BitVec.eq_of_toNat_eq hreg
    unfold State.writeCtrl
    simp only
    split
    · next hs => exact .inr (.inr (.inl ⟨trivial, _, _, hm _, hr, by simpa using hs, rfl⟩))
    · exact .inr (.inl ⟨trivial, _, hm _, rfl⟩)
  · exact .inr (.inr (.inr ⟨trivial, _, s.csr.height, s.csr.channels, s.csr.colorspace, s.csr.inLen, s.csr.outCap, rfl⟩))
  · exact .inr (.inr (.inr ⟨trivial, s.csr.width, _, s.csr.channels, s.csr.colorspace, s.csr.inLen, s.csr.outCap, rfl⟩))
  · exact .inr (.inr (.inr ⟨trivial, s.csr.width, s.csr.height, _, s.csr.colorspace, s.csr.inLen, s.csr.outCap, rfl⟩))
  · exact .inr (.inr (.inr ⟨trivial, s.csr.width, s.csr.height, s.csr.channels, _, s.csr.inLen, s.csr.outCap, rfl⟩))
  · exact .inr (.inr (.inr ⟨trivial, s.csr.width, s.csr.height, s.csr.channels, s.csr.colorspace, _, s.csr.outCap, rfl⟩))
  · exact .inr (.inr (.inr ⟨trivial, s.csr.width, s.csr.height, s.csr.channels, s.csr.colorspace, s.csr.inLen, _, rfl⟩))
  · exact .inl rfl

end Sys2Proof.Machine
end

