-- ==== Sys2Proof/Laws/Exact.lean ====
section
/-! SUPPORT. The fields of a chunk hold exactly what they stand for (R89, R141, R158): the deltas, the biased fields, and the
pixel a chosen chunk gives back. -/

namespace Sys2Proof.Machine

open Sys2Proof.Safety

/-! ### Biased fields -/

/-- A biased sum that is not negative is kept as a natural number (R89). -/
theorem biased_eq (width : Nat) (v bias : Int) (h : 0 ≤ v + bias) : biased width v bias = BitVec.ofNat width (v + bias).toNat := by
  obtain ⟨n, hn⟩ := Int.eq_ofNat_of_zero_le h
  rw [biased, hn]
  simp

/-- A biased field in its range holds the sum (R89). -/
theorem biased_toNat (width : Nat) (v bias : Int) (h0 : 0 ≤ v + bias) (h1 : v + bias < 2 ^ width) :
    ((biased width v bias).toNat : Int) = v + bias := by
  have h : (v + bias).toNat < 2 ^ width := by
    zify
    rw [Int.toNat_of_nonneg h0]
    exact_mod_cast h1
  rw [biased_eq _ _ _ h0, BitVec.toNat_ofNat, Nat.mod_eq_of_lt h, Int.toNat_of_nonneg h0]

/-! ### Deltas -/

/-- Two bytes equal mod 256 are equal. -/
theorem byte_eq_of_mod {x y : Byte} (h : (x.toNat : Int) % 256 = y.toNat % 256) : x = y := by
  apply BitVec.eq_of_toNat_eq
  have := x.isLt
  have := y.isLt
  omega

/-- R141: a delta is the difference of the samples, up to a multiple of 256. -/
theorem s8_sub (x p : Byte) : ∃ k : Int, s8 (x - p) = x.toNat - p.toNat + 256 * k := by
  have := x.isLt
  have := p.isLt
  rw [s8, BitVec.toInt_eq_toNat_cond, BitVec.toNat_sub]
  split <;> rcases Nat.lt_or_ge x.toNat p.toNat with h | h
  · exact ⟨1, by omega⟩
  · exact ⟨0, by omega⟩
  · exact ⟨0, by omega⟩
  · exact ⟨-1, by omega⟩

/-! ### What the decoder makes of a field -/

theorem diff_sample_exact {x p : Byte} (h0 : -2 ≤ s8 (x - p)) (h1 : s8 (x - p) ≤ 1) :
    p + (biased 2 (s8 (x - p)) 2).setWidth 8 - 2 = x := by
  have := biased_toNat 2 (s8 (x - p)) 2 (by omega) (by norm_num; omega)
  obtain ⟨k, _⟩ := s8_sub x p
  apply byte_eq_of_mod
  have := x.isLt
  have := p.isLt
  rw [BitVec.toNat_sub, BitVec.toNat_add, BitVec.toNat_setWidth]
  simp
  omega

theorem luma_green_exact {x p : Byte} (h0 : -32 ≤ s8 (x - p)) (h1 : s8 (x - p) ≤ 31) :
    p + ((biased 6 (s8 (x - p)) 32).setWidth 8 - 32) = x := by
  have := biased_toNat 6 (s8 (x - p)) 32 (by omega) (by norm_num; omega)
  obtain ⟨k, _⟩ := s8_sub x p
  apply byte_eq_of_mod
  have := x.isLt
  have := p.isLt
  rw [BitVec.toNat_add, BitVec.toNat_sub, BitVec.toNat_setWidth]
  simp
  omega

theorem luma_sample_exact {x p g q : Byte} (h0 : -32 ≤ s8 (g - q)) (h1 : s8 (g - q) ≤ 31)
    (h2 : -8 ≤ s8 (x - p) - s8 (g - q)) (h3 : s8 (x - p) - s8 (g - q) ≤ 7) :
    p + ((biased 6 (s8 (g - q)) 32).setWidth 8 - 32) - 8 + (biased 4 (s8 (x - p) - s8 (g - q)) 8).setWidth 8 = x := by
  have := biased_toNat 6 (s8 (g - q)) 32 (by omega) (by norm_num; omega)
  have := biased_toNat 4 (s8 (x - p) - s8 (g - q)) 8 (by omega) (by norm_num; omega)
  obtain ⟨k, _⟩ := s8_sub x p
  obtain ⟨k', _⟩ := s8_sub g q
  apply byte_eq_of_mod
  have := x.isLt
  have := p.isLt
  rw [BitVec.toNat_add, BitVec.toNat_sub, BitVec.toNat_add, BitVec.toNat_sub, BitVec.toNat_setWidth, BitVec.toNat_setWidth]
  simp
  omega

/-! ### The chosen chunk -/

/-- The chunk the dispatcher chooses for a pixel stands for that pixel, read with the same `prev` and cache. -/
theorem chunkOf_exact {px : Pixel} {s : State} {i : Instr} (h : chunkOf px s.prev s.cache = some i) :
    ∃ len, chunkPixel s i = some (px, len) := by
  unfold chunkOf classify at h
  by_cases h1 : px = s.prev
  · rw [if_pos h1] at h
    cases h
  rw [if_neg h1] at h
  by_cases h2 : lookup s.cache (cacheIndex px) = px
  · rw [if_pos h2] at h
    cases h
    exact ⟨1, by simp [chunkPixel, h2]⟩
  rw [if_neg h2] at h
  by_cases h3 : px.a ≠ s.prev.a
  · rw [if_pos h3] at h
    cases h
    exact ⟨5, rfl⟩
  rw [if_neg h3] at h
  rw [not_not] at h3
  split_ifs at h with h4 h5 <;> cases h
  · obtain ⟨⟨a, b⟩, ⟨c, d⟩, e, f⟩ := h4
    refine ⟨1, ?_⟩
    simp only [diffChunk, chunkPixel, diffPixel]
    rw [deltaR, deltaG, deltaB, diff_sample_exact a b, diff_sample_exact c d, diff_sample_exact e f, ← h3]
  · obtain ⟨⟨a, b⟩, ⟨c, d⟩, e, f⟩ := h5
    refine ⟨2, ?_⟩
    simp only [lumaChunk, chunkPixel, lumaPixel]
    rw [deltaRG, deltaBG, deltaR, deltaG, deltaB, luma_green_exact a b, luma_sample_exact a b c d,
      luma_sample_exact a b e f, ← h3]
  · exact ⟨4, by simp only [chunkPixel, rgbPixel]; rw [← h3]⟩

/-- A chunk the dispatcher chooses has at most C + 1 bytes, when alpha cannot change in a 3-channel image (R179, R180). -/
theorem chunkOf_length {px prev : Pixel} {cache : Vector Pixel 64} {i : Instr} (h : chunkOf px prev cache = some i)
    {c : Nat} (hc : c = 3 ∨ c = 4) (ha : c = 3 → px.a = prev.a) :
    1 ≤ (encode i).length ∧ (encode i).length ≤ c + 1 := by
  unfold chunkOf classify at h
  by_cases hne : px = prev
  · rw [if_pos hne] at h
    cases h
  rw [if_neg hne] at h
  split_ifs at h with h1 h2 h3 h4 <;> cases h
  · simp [encode]
  · rcases hc with rfl | rfl
    · exact absurd (ha rfl) h2
    · simp [encode]
  · simp [encode, diffChunk]
  · simp [encode, lumaChunk]
    omega
  · simp [encode]
    omega

/-! ### The run byte -/

/-- R85: the byte of an OP_RUN. -/
theorem run_byte : ∀ x : BitVec 6, (0b11#2 ++ x : Byte) = BitVec.ofNat 8 (0xC0 + x.toNat) := by decide

/-- R142: the byte of the pending run. -/
theorem flushBytes_eq (s : State) :
    s.flushBytes = if s.run.toNat = 0 then [] else [BitVec.ofNat 8 (0xC0 + (s.run.toNat - 1))] := by
  have hb : ∀ x : BitVec 6, x ≠ 0 → (0b11#2 ++ (x - 1) : Byte) = BitVec.ofNat 8 (0xC0 + (x.toNat - 1)) := by decide
  have hz : s.run = 0 ↔ s.run.toNat = 0 := ⟨fun h => by rw [h]; rfl, fun h => BitVec.eq_of_toNat_eq h⟩
  rw [State.flushBytes]
  by_cases h : s.run = 0
  · rw [if_pos h, if_pos (hz.1 h)]
  · rw [if_neg h, if_neg (mt hz.2 h), encode, hb _ h]

end Sys2Proof.Machine
end

