-- ==== Sys2Proof/Laws/Moves.lean ====
section
/-! SUPPORT. What an engine move does to each part of the state, said once for all moves, and how a run goes on. -/

namespace Sys2Proof.Machine

open Sys2Proof.Safety

/-! ### What no move touches -/

/-- R60: IN, the parameter and the host's own side are kept by every move of the engine. -/
theorem EngineMove.kept {s t : State} (h : EngineMove s t) :
    t.inBuf = s.inBuf ∧ t.params = s.params ∧ t.host = s.host ∧ t.readData = s.readData := by
  have ep : ∀ (v : State) px sb,
      v.inBuf = s.inBuf ∧ v.params = s.params ∧ v.host = s.host ∧ v.readData = s.readData →
      (s.endPixelStep v px sb).inBuf = s.inBuf ∧ (s.endPixelStep v px sb).params = s.params ∧
      (s.endPixelStep v px sb).host = s.host ∧ (s.endPixelStep v px sb).readData = s.readData := by
    intro v px sb hv
    rcases s.endPixelStep_cases v px sb with ⟨-, e⟩ | ⟨-, e⟩ <;> rw [e]
    · exact ⟨rfl, rfl, rfl, rfl⟩
    · exact hv
  cases h with
  | rest => exact ⟨rfl, rfl, rfl, rfl⟩
  | full => exact ⟨rfl, rfl, rfl, rfl⟩
  | encHeader hp =>
    rcases s.encodeHeader_cases s.job.w s.job.h s.job.c s.job.cs with ⟨e, he, h⟩ | ⟨-, -, -, h⟩ <;> rw [h] <;>
      exact ⟨rfl, rfl, rfl, rfl⟩
  | encRunOn => exact ep _ _ _ ⟨rfl, rfl, rfl, rfl⟩
  | encRun => exact ep _ _ _ ⟨rfl, rfl, rfl, rfl⟩
  | encChunk => exact ep _ _ _ ⟨rfl, rfl, rfl, rfl⟩
  | encEnd => rcases s.encodeEnd_cases with ⟨-, h⟩ | ⟨-, h⟩ <;> rw [h] <;> exact ⟨rfl, rfl, rfl, rfl⟩
  | decHeaderBad hp e he => exact ⟨rfl, rfl, rfl, rfl⟩
  | decHeader hp hl w h c cs =>
    rcases s.decodeHeader_cases w h c cs with ⟨e, he, h⟩ | ⟨-, -, h⟩ | ⟨-, -, h⟩ <;> rw [h] <;>
      exact ⟨rfl, rfl, rfl, rfl⟩
  | decTrunc hp hn e he => exact ⟨rfl, rfl, rfl, rfl⟩
  | decRun hp hn hl l =>
    obtain ⟨-, -, -, -, -, -, -, k1, k2, -, k3, k4⟩ :=
      s.writePixels_kept s.prev (min (l.toNat + 1) (s.job.n - s.pixPos.toNat))
    obtain ⟨-, -, -, -, -, -, -, j1, -, j2, -, j3, j4⟩ := State.completeIfFull_kept
      { s.writePixels s.prev (min (l.toNat + 1) (s.job.n - s.pixPos.toNat)) with inPos := s.inPos + 1 }
    exact ⟨j1.trans k1, j2.trans k2, j3.trans k3, j4.trans k4⟩
  | decPixel _ _ px len =>
    obtain ⟨-, -, -, -, -, -, -, j1, -, j2, -, j3, j4⟩ := State.completeIfFull_kept
      { (s.nonRunUpdate px).writePixel px with inPos := s.inPos + BitVec.ofNat 64 len }
    exact ⟨j1, j2, j3, j4⟩

/-! ### OUT -/

theorem State.writePixels_wf {s : State} {p : Pixel} {k : Nat} (h : s.outBuf.wf = true) :
    (s.writePixels p k).outBuf.wf = true := by
  induction k generalizing s with
  | zero => exact h
  | succ k ih => exact ih (Memory.wf_writeBytes h _ _)

/-! ### Legal jobs -/

/-- What a legal job says of its channels and its pixel count (R29, R114). -/
theorem legalJob_bounds {s : State} (hp : s.params.legal) (h : LegalJob s) :
    s.job.n ≤ 4294967295 ∧ (s.job.c = 3 ∨ s.job.c = 4) ∧ 0 < s.job.n := by
  obtain ⟨h1, h2⟩ := h
  obtain ⟨a, b, c, d, -⟩ := legalHeader_iff.1 h1
  have hz : ∀ x : Word32, x ≠ 0 → 0 < x.toNat :=
    fun x hx => Nat.pos_of_ne_zero fun e => hx (BitVec.eq_of_toNat_eq e)
  have := hp.2
  exact ⟨by omega, d, by rw [h2]; exact Nat.mul_pos (hz _ a) (hz _ b)⟩

/-- In a working phase STATUS is BUSY alone (R42). -/
theorem statusBusy_of_phase {s : State} (h : StatusFollowsPhase s) (hp : s.phase = .encHeader ∨ s.phase = .encPixels ∨
    s.phase = .encTrailer ∨ s.phase = .decHeader ∨ s.phase = .decChunks) : s.csr.status = statusBusy := by
  unfold StatusFollowsPhase at h
  rcases hp with hp | hp | hp | hp | hp <;> simpa only [hp] using h

/-- R170, R190: an accepted START opens a pass that meets the invariant. -/
theorem State.start_passInv {s : State} (hp : s.params.legal) (hc : s.csr.ctrl = 0 ∨ s.csr.ctrl = 2) (m : Mode) :
    PassInv (s.start m) := by
  cases m
  · exact ⟨hp, rfl, hc, fun _ => ⟨rfl, rfl⟩, rfl, ⟨rfl, rfl, rfl, rfl, rfl, rfl⟩, rfl, rfl, rfl, rfl⟩
  · exact ⟨hp, rfl, hc, fun _ => ⟨rfl, rfl⟩, rfl, rfl, rfl, rfl, rfl, rfl, rfl⟩

/-! ### Runs -/

/-- A run goes on from its first step. -/
theorem run_succ (k : Nat) {s t : State} (h : step s = .next t) :
    Sys2Proof.core.run (k + 1) s = Sys2Proof.core.run k t := by
  have h : Sys2Proof.core.step s = .next t := h
  simp only [Host.Core.run, h]

end Sys2Proof.Machine
end

