-- ==== Sys2Proof/Laws/Outside.lean ====
section
/-! SUPPORT. What an engine step takes from outside the engine: nothing of the host's side, and of IN only what it fetches.
One lemma says so for every step: where the fetch is the same, the step is the same. -/

namespace Sys2Proof.Machine

open Sys2Proof.Safety

/-- What lies outside the engine's datapath: IN, IN_LEN in the job and in its CSR, and the host's own side. -/
structure Outside where
  inBuf    : Memory
  inLen    : Addr
  csrInLen : Addr
  host     : List HostMove
  readData : BitVec 64
deriving DecidableEq, Repr

/-- The state with that around the datapath. -/
def State.outside (s : State) (f : Outside) : State :=
  { s with
    inBuf := f.inBuf
    job := { s.job with inLen := f.inLen }
    csr := { s.csr with inLen := f.csrInLen }
    host := f.host
    readData := f.readData }

/-- What lies around the datapath of `s`. -/
def State.surroundings (s : State) : Outside := ⟨s.inBuf, s.job.inLen, s.csr.inLen, s.host, s.readData⟩

@[simp] theorem State.outside_surroundings (s : State) : s.outside s.surroundings = s := rfl
@[simp] theorem State.surroundings_outside (s : State) (f : Outside) : (s.outside f).surroundings = f := rfl

@[simp] theorem State.outside_phase (s : State) (f : Outside) : (s.outside f).phase = s.phase := rfl
@[simp] theorem State.outside_pixPos (s : State) (f : Outside) : (s.outside f).pixPos = s.pixPos := rfl
@[simp] theorem State.outside_n (s : State) (f : Outside) : (s.outside f).job.n = s.job.n := rfl
@[simp] theorem State.outside_inPos (s : State) (f : Outside) : (s.outside f).inPos = s.inPos := rfl
@[simp] theorem State.outside_prev (s : State) (f : Outside) : (s.outside f).prev = s.prev := rfl
@[simp] theorem State.outside_params (s : State) (f : Outside) : (s.outside f).params = s.params := rfl

/-! ### Every operation leaves it alone -/

theorem State.raise_outside (s : State) (f : Outside) (e : ErrCode) : (s.outside f).raise e = (s.raise e).outside f := rfl

theorem State.raiseDecHeader_outside (s : State) (f : Outside) (e : ErrCode) :
    (s.outside f).raiseDecHeader e = (s.raiseDecHeader e).outside f := rfl

theorem State.commit_outside (s t : State) (f : Outside) (sb : List Byte) :
    (s.outside f).commit (t.outside f) sb = (s.commit t sb).outside f := by
  unfold State.commit
  by_cases hq : s.outPos.toNat + sb.length > s.job.outCap.toNat
  · exact (if_pos hq).trans (by simp only [if_pos hq]; rfl)
  · exact (if_neg hq).trans (by simp only [if_neg hq]; rfl)

theorem State.endPixelStep_outside (s t : State) (f : Outside) (px : Pixel) (sb : List Byte) :
    (s.outside f).endPixelStep (t.outside f) px sb = (s.endPixelStep t px sb).outside f :=
  State.commit_outside s
    { t with
      prev := px
      pixPos := s.pixPos + 1
      inPos := s.inPos + BitVec.ofNat 64 s.job.c.toNat
      phase := if s.lastPixel = true then .encTrailer else .encPixels } f sb

theorem State.completeIfFull_outside (s : State) (f : Outside) :
    (s.outside f).completeIfFull = s.completeIfFull.outside f := by
  unfold State.completeIfFull
  by_cases hq : s.pixPos.toNat = s.job.n
  · exact (if_pos hq).trans (by simp only [if_pos hq]; rfl)
  · exact (if_neg hq).trans (by simp only [if_neg hq])

theorem State.writePixels_outside (s : State) (f : Outside) (p : Pixel) (k : Nat) :
    (s.outside f).writePixels p k = (s.writePixels p k).outside f := by
  induction k generalizing s with
  | zero => rfl
  | succ k ih => exact ih (s.writePixel p)

theorem State.decodePixel_outside (s : State) (f : Outside) (px : Pixel) (len : Nat) :
    (s.outside f).decodePixel px len = (s.decodePixel px len).outside f :=
  State.completeIfFull_outside { (s.nonRunUpdate px).writePixel px with inPos := s.inPos + BitVec.ofNat 64 len } f

theorem State.decodeRun_outside (s : State) (f : Outside) (n : Nat) :
    (s.outside f).decodeRun n = (s.decodeRun n).outside f := by
  unfold State.decodeRun
  rw [State.outside_prev, State.outside_pixPos, State.outside_n, State.writePixels_outside]
  exact State.completeIfFull_outside
    { s.writePixels s.prev (min n (s.job.n - s.pixPos.toNat)) with inPos := s.inPos + 1 } f

theorem State.decodeHeader_outside (s : State) (f : Outside) (w h : Word32) (c cs : Byte) :
    (s.outside f).decodeHeader w h c cs = (s.decodeHeader w h c cs).outside f := by
  unfold State.decodeHeader
  rw [State.outside_params]
  cases fieldError s.params w h c cs with
  | some e => rfl
  | none =>
    by_cases hq : s.job.outCap.toNat < w.toNat * h.toNat * c.toNat
    · exact (if_pos hq).trans (by simp only [if_pos hq]; rfl)
    · exact (if_neg hq).trans (by simp only [if_neg hq]; rfl)

theorem State.encodeEnd_outside (s : State) (f : Outside) : (s.outside f).encodeEnd = s.encodeEnd.outside f := by
  unfold State.encodeEnd
  rw [State.commit_outside]
  by_cases hq : s.outPos.toNat + endBytes.length > s.job.outCap.toNat
  · exact (if_pos hq).trans (by simp only [if_pos hq]; rfl)
  · exact (if_neg hq).trans (by simp only [if_neg hq]; rfl)

/-- The encoder's header step reads IN_LEN (R111). -/
theorem State.encodeHeader_outside {s : State} {f : Outside} (hl : f.inLen = s.job.inLen) (w h : Word32)
    (c cs : Byte) : (s.outside f).encodeHeader w h c cs = (s.encodeHeader w h c cs).outside f := by
  unfold State.encodeHeader
  have hj : jobError (s.outside f).params (s.outside f).job = jobError s.params s.job := by
    simp only [State.outside, hl]
  rw [hj]
  cases jobError s.params s.job with
  | some e => rfl
  | none =>
    exact State.commit_outside s
      { s with job := { s.job with n := s.job.w.toNat * s.job.h.toNat }, phase := .encPixels } f _

/-! ### The fetch -/

/-- R113: the header fetch reads IN_LEN and the first 14 bytes of IN. -/
theorem fetchHeader_congr {s s' : State} (hl : s'.job.inLen.toNat < 14 ↔ s.job.inLen.toNat < 14)
    (h : 14 ≤ s.job.inLen.toNat → ∀ a, a < 14 → s'.inBuf.read a = s.inBuf.read a) : s'.fetchHeader = s.fetchHeader := by
  unfold State.fetchHeader
  rw [show Config.headerLen = 14 from rfl]
  by_cases h1 : s.job.inLen.toNat < 14
  · rw [if_pos h1, if_pos (hl.2 h1)]
  · rw [if_neg h1, if_neg fun e => h1 (hl.1 e),
      Memory.readBytes_congr (m' := s.inBuf) fun b _ hb => h (by omega) b (by omega)]

/-- R193, R194: the chunk fetch reads IN_LEN, the first byte at `in_pos` when it is there, and the rest of that chunk when it
is all there. -/
theorem fetchChunk_congr {s s' : State} (hp : s'.inPos = s.inPos) (hl : s'.job.inLen = s.job.inLen)
    (h : s.inPos.toNat < s.job.inLen.toNat → s'.inBuf.read s.inPos.toNat = s.inBuf.read s.inPos.toNat)
    (hc : s.inPos.toNat + chunkLen (s.inBuf.read s.inPos.toNat) ≤ s.job.inLen.toNat → ∀ a, s.inPos.toNat ≤ a →
      a < s.inPos.toNat + chunkLen (s.inBuf.read s.inPos.toNat) → s'.inBuf.read a = s.inBuf.read a) :
    s'.fetchChunk = s.fetchChunk := by
  unfold State.fetchChunk
  rw [hp, hl]
  by_cases h1 : s.inPos.toNat ≥ s.job.inLen.toNat
  · rw [if_pos h1, if_pos h1]
  rw [if_neg h1, if_neg h1]
  simp only [h (by omega)]
  by_cases h2 : s.inPos.toNat + chunkLen (s.inBuf.read s.inPos.toNat) > s.job.inLen.toNat
  · rw [if_pos h2, if_pos h2]
  · rw [if_neg h2, if_neg h2, Memory.readBytes_congr (m' := s.inBuf) (hc (by omega))]

/-! ### The step -/

/-- In ENC_PIXELS the selected chunk's meaning is its emission. -/
theorem exec_selected {s : State} {i : Instr} (hp : s.phase = .encPixels) (hn : s.pixPos.toNat < s.job.n)
    (hne : s.readPixel ≠ s.prev) (hi : chunkOf s.readPixel s.prev s.cache = some i) : exec i s = .next (s.encodeChunk i) := by
  have hg : s.pixPos.toNat < s.job.n ∧ s.nextChunk = some i := ⟨hn, (nextChunk_chunk hne).trans hi⟩
  obtain ⟨j, hj, hs, hrun⟩ := chunkOf_some hne s.cache
  obtain rfl : j = i := by rw [hi] at hj; exact (Option.some.inj hj).symm
  cases j with
  | opRun l => exact absurd rfl (hrun l)
  | header w h c cs => simp [Instr.slot] at hs
  | endMarker => simp [Instr.slot] at hs
  | _ => simp only [exec, execOpIndex, execOpDiff, execOpLuma, execOpRgb, execOpRgba, runChunk, hp, if_pos hg]

/-- In DEC_CHUNKS a chunk is applied the same whatever lies outside. -/
theorem exec_decChunks_outside {s : State} (f : Outside) {i : Instr} (hp : s.phase = .decChunks) (hs : i.slot = .chunk) :
    ∃ t, exec i s = .next t ∧ exec i (s.outside f) = .next (t.outside f) := by
  cases i with
  | header => cases hs
  | endMarker => cases hs
  | opRun l =>
    exact ⟨_, exec_decChunks_run hp l,
      (exec_decChunks_run (s := s.outside f) hp l).trans (congrArg _ (State.decodeRun_outside s f _))⟩
  | _ =>
    exact ⟨_, exec_decChunks_pixel hp rfl,
      (exec_decChunks_pixel (s := s.outside f) hp rfl).trans (congrArg _ (State.decodePixel_outside s f _ _))⟩

/-- A pixel step is the same where the pixel it reads is the same. -/
theorem pixelStep_outside {s : State} {f : Outside} (hp : s.phase = .encPixels) (hr : (s.outside f).readPixel = s.readPixel) :
    ∃ t, engineStep s = .next t ∧ engineStep (s.outside f) = .next (t.outside f) := by
  have hc : (s.outside f).nextChunk = s.nextChunk := by unfold State.nextChunk; rw [hr]; rfl
  simp only [engineStep, State.outside_phase, hp, State.outside_pixPos, State.outside_n, hc]
  by_cases hn : s.pixPos.toNat < s.job.n
  · rw [if_pos hn, if_pos hn]
    by_cases heq : s.readPixel = s.prev
    · rw [nextChunk_run heq]
      by_cases hf : s.run.toNat + 1 = 62 ∨ s.pixPos.toNat + 1 = s.job.n
      · rw [if_pos hf]
        have hg : s.pixPos.toNat < s.job.n ∧ s.nextChunk = some (.opRun s.run) :=
          ⟨hn, by rw [nextChunk_run heq, if_pos hf]⟩
        have hg' : (s.outside f).pixPos.toNat < (s.outside f).job.n ∧ (s.outside f).nextChunk = some (.opRun s.run) :=
          ⟨hn, hc.trans hg.2⟩
        refine ⟨s.encodeRun s.run, by simp only [exec, execOpRun, runChunk, hp, if_pos hg], ?_⟩
        simp only [exec, execOpRun, runChunk, State.outside_phase, hp, if_pos hg']
        unfold State.encodeRun
        rw [hr]
        exact congrArg _ (State.endPixelStep_outside s { s with run := 0 } f _ _)
      · rw [if_neg hf]
        refine ⟨_, rfl, ?_⟩
        show Host.Outcome.next _ = _
        unfold State.encodeRunOn
        rw [hr]
        exact congrArg _ (State.endPixelStep_outside s { s with run := s.run + 1 } f _ _)
    · rw [nextChunk_chunk heq]
      obtain ⟨i, hi, -⟩ := chunkOf_some heq s.cache
      rw [hi]
      have hs : exec i (s.outside f) = .next ((s.outside f).encodeChunk i) :=
        exec_selected hp hn (by rw [hr]; exact heq) (by rw [hr]; exact hi)
      refine ⟨s.encodeChunk i, exec_selected hp hn heq hi, hs.trans (congrArg _ ?_)⟩
      unfold State.encodeChunk
      rw [hr]
      exact State.endPixelStep_outside s ({ s with run := 0 }.nonRunUpdate s.readPixel) f _ _
  · rw [if_neg hn, if_neg hn]
    exact ⟨s, rfl, rfl⟩

/-- R246: where an engine step would fetch the same, it is the same whatever lies outside. -/
theorem engineStep_outside (s : State) (f : Outside)
    (hr : s.phase = .encPixels → (s.outside f).readPixel = s.readPixel)
    (he : s.phase = .encHeader → f.inLen = s.job.inLen)
    (hh : s.phase = .decHeader → (s.outside f).fetchHeader = s.fetchHeader)
    (hc : s.phase = .decChunks → s.pixPos.toNat < s.job.n → (s.outside f).fetchChunk = s.fetchChunk) :
    ∃ t, engineStep s = .next t ∧ engineStep (s.outside f) = .next (t.outside f) := by
  have hp' : (s.outside f).phase = s.phase := rfl
  cases hp : s.phase with
  | idle => exact ⟨s, by simp [engineStep, hp], by simp [engineStep, hp]⟩
  | done => exact ⟨s, by simp [engineStep, hp], by simp [engineStep, hp]⟩
  | error => exact ⟨s, by simp [engineStep, hp], by simp [engineStep, hp]⟩
  | encPixels => exact pixelStep_outside hp (hr hp)
  | encHeader =>
    simp only [engineStep, hp', hp]
    exact ⟨_, exec_encHeader hp,
      (exec_encHeader (s := s.outside f) hp).trans (congrArg _ (State.encodeHeader_outside (he hp) _ _ _ _))⟩
  | encTrailer =>
    simp only [engineStep, hp', hp]
    exact ⟨_, exec_encTrailer hp,
      (exec_encTrailer (s := s.outside f) hp).trans (congrArg _ (State.encodeEnd_outside s f))⟩
  | decHeader =>
    simp only [engineStep, hp', hp, hh hp]
    rcases fetchHeader_cases s with ⟨-, hf⟩ | ⟨-, -, hf⟩ | ⟨-, -, hf⟩ <;> rw [hf]
    · exact ⟨_, rfl, rfl⟩
    · exact ⟨_, rfl, rfl⟩
    · exact ⟨_, exec_decHeader hp _ _ _ _,
        (exec_decHeader (s := s.outside f) hp _ _ _ _).trans (congrArg _ (State.decodeHeader_outside s f _ _ _ _))⟩
  | decChunks =>
    simp only [engineStep, hp', hp]
    rw [State.outside_pixPos, State.outside_n]
    by_cases hn : s.pixPos.toNat < s.job.n
    · rw [if_pos hn, if_pos hn, hc hp hn]
      rcases fetchChunk_cases s with ⟨-, hf⟩ | ⟨-, -, hf⟩ | ⟨i, hf, hs, -⟩ <;> rw [hf]
      · exact ⟨_, rfl, rfl⟩
      · exact ⟨_, rfl, rfl⟩
      · exact exec_decChunks_outside f hp hs
    · rw [if_neg hn, if_neg hn]
      exact ⟨s, rfl, rfl⟩

/-- R60: an engine step keeps its surroundings. -/
theorem engineStep_surroundings {s t : State} (h : engineStep s = .next t) : t.surroundings = s.surroundings := by
  obtain ⟨u, hu, ho⟩ := engineStep_outside s s.surroundings (fun _ => rfl) (fun _ => rfl) (fun _ => rfl) (fun _ _ => rfl)
  rw [State.outside_surroundings, hu] at ho
  rw [hu] at h
  cases h
  rw [Host.Outcome.next.inj ho, State.surroundings_outside]

end Sys2Proof.Machine
end

