-- ==== Sys2Proof/Laws/PerInstr.lean ====
section
/-! SUPPORT. What is said of every instruction as syntax, one lemma per constructor. The family EncodedLength: a legal
instruction's bytes have the length its layout gives it, and the first byte of a chunk tells that length (R81, R96). -/

namespace Sys2Proof.Laws.EncodedLength

/-- The length of each layout, in bytes (R82 to R87, R93, R94). -/
def layoutLength : Instr → Nat
  | .opIndex _ => 1
  | .opDiff _ _ _ => 1
  | .opLuma _ _ _ => 2
  | .opRun _ => 1
  | .opRgb _ _ _ => 4
  | .opRgba _ _ _ _ => 5
  | .header _ _ _ _ => 14
  | .endMarker => 8

/-- The statement about one instruction. -/
def Statement (i : Instr) : Prop :=
  ∀ p : Config.Params, i.wellFormed p = true →
    (encode i).length = layoutLength i ∧ (i.slot = .chunk → ∃ b0 more, encode i = b0 :: more ∧ chunkLen b0 = layoutLength i)

theorem opIndex (idx : BitVec 6) : Statement (.opIndex idx) :=
  fun _ _ => ⟨rfl, fun hs => chunkLen_encode_head _ hs fun _ h => Instr.noConfusion h⟩

theorem opDiff (dr2 dg2 db2 : BitVec 2) : Statement (.opDiff dr2 dg2 db2) :=
  fun _ _ => ⟨rfl, fun hs => chunkLen_encode_head _ hs fun _ h => Instr.noConfusion h⟩

theorem opLuma (dg32 : BitVec 6) (drg8 dbg8 : BitVec 4) : Statement (.opLuma dg32 drg8 dbg8) :=
  fun _ _ => ⟨rfl, fun hs => chunkLen_encode_head _ hs fun _ h => Instr.noConfusion h⟩

theorem opRun (len1 : BitVec 6) : Statement (.opRun len1) :=
  fun _ hw => ⟨rfl, fun hs => chunkLen_encode_head _ hs fun l h => by
    cases h
    simpa [Instr.wellFormed, legalRun] using hw⟩

theorem opRgb (r g b : Byte) : Statement (.opRgb r g b) :=
  fun _ _ => ⟨rfl, fun hs => chunkLen_encode_head _ hs fun _ h => Instr.noConfusion h⟩

theorem opRgba (r g b a : Byte) : Statement (.opRgba r g b a) :=
  fun _ _ => ⟨rfl, fun hs => chunkLen_encode_head _ hs fun _ h => Instr.noConfusion h⟩

theorem header (w h : Word32) (c cs : Byte) : Statement (.header w h c cs) :=
  fun _ _ => ⟨rfl, fun hs => by simp [Instr.slot] at hs⟩

theorem endMarker : Statement .endMarker :=
  fun _ _ => ⟨rfl, fun hs => by simp [Instr.slot] at hs⟩

end Sys2Proof.Laws.EncodedLength
end

