-- ==== Sys2Proof/Tests/Slice0.lean ====
section
/-! SUPPORT. Tests of the model's own work, and a witness for each statement that has hypotheses. The expected values are the
spec's examples and tables, named in each docstring, or worked out by hand from its layouts. -/

namespace Sys2Proof.Tests

open Sys2Proof.Machine Sys2Proof.Safety

/-! ### Small states -/

/-- A test of the state a step answers; false where it answers none. -/
def onNext (o : Host.Outcome State Fault Refusal) (f : State → Bool) : Bool :=
  match o with
  | .next t => f t
  | .fault _ => false
  | .refused _ => false

/-- A decode pass of `n` pixels with `c` channels whose next chunk begins with `bs` at IN offset 0. -/
def decoding (prev : Pixel) (c : Byte) (n : Nat) (bs : List Byte) : State :=
  { State.reset with
    phase := .decChunks
    prev := prev
    job := { Job.reset with mode := .dec, c := c, n := n, inLen := BitVec.ofNat 64 bs.length, outCap := 64 }
    csr := { Csrs.reset with status := statusBusy, inLen := BitVec.ofNat 64 bs.length, outCap := 64 }
    inBuf := Memory.empty.writeBytes 0 bs }

/-- An encode pass of `n` pixels with `c` channels whose next pixel is at IN offset 0; `cap` bytes fit in OUT. -/
def encoding (prev : Pixel) (c : Byte) (n : Nat) (run : BitVec 6) (bs : List Byte) (cap : Addr) : State :=
  { State.reset with
    phase := .encPixels
    prev := prev
    run := run
    job := { Job.reset with c := c, n := n, outCap := cap }
    csr := { Csrs.reset with status := statusBusy, outCap := cap }
    inBuf := Memory.empty.writeBytes 0 bs }

/-- The example of R170: an encode pass of two pixels (10,20,30), just started. -/
def encodeStart : State :=
  { State.reset with
    csr := { Csrs.reset with width := 2, height := 1, channels := 3, inLen := 6, outCap := 64 }
    inBuf := Memory.empty.writeBytes 0 [10, 20, 30, 10, 20, 30] }.start .enc

/-- A decode pass of the bytes `bs`, just started. -/
def decodeStart (bs : List Byte) (cap : Addr) : State :=
  { State.reset with
    csr := { Csrs.reset with ctrl := 2, inLen := BitVec.ofNat 64 bs.length, outCap := cap }
    inBuf := Memory.empty.writeBytes 0 bs }.start .dec

/-- The state that a step, or a run, answers, with the machine after reset where it answers none. -/
def orReset (o : Host.Outcome State Fault Refusal) : State :=
  match o with
  | .next t => t
  | .fault _ => State.reset
  | .refused _ => State.reset

/-- The pass of `encodeStart` after its header, and at its end. -/
def encodeFirst : State := orReset (step encodeStart)
def encodeEnd : State := orReset (Sys2Proof.core.run 4 encodeStart)

/-- The decode pass of what that encode pass wrote (S7 of 95_test_vectors.md), just started, and after its header. -/
def decodeBack : State :=
  { State.reset with
    csr := { Csrs.reset with ctrl := 2, inLen := encodeEnd.csr.outLen, outCap := 6 }
    inBuf := encodeEnd.outBuf }.start .dec
def decodeFirst : State := orReset (step decodeBack)

/-! ### WellFormed: each check refuses an ill-formed term (R85, R91, R93, R114) -/

theorem test_wf_run_61 : (Instr.opRun 61).wellFormed Config.Params.default = true := by decide
theorem test_wf_run_62 : (Instr.opRun 62).wellFormed Config.Params.default = false := by decide
theorem test_wf_run_63 : (Instr.opRun 63).wellFormed Config.Params.default = false := by decide
theorem test_wf_header : (Instr.header 1 4294967295 4 1).wellFormed Config.Params.default = true := by decide
theorem test_wf_width_zero : (Instr.header 0 1 4 1).wellFormed Config.Params.default = false := by decide
theorem test_wf_height_zero : (Instr.header 1 0 4 1).wellFormed Config.Params.default = false := by decide
theorem test_wf_too_many_pixels : (Instr.header 65536 65536 4 1).wellFormed Config.Params.default = false := by decide
theorem test_wf_two_channels : (Instr.header 1 1 2 1).wellFormed Config.Params.default = false := by decide
theorem test_wf_five_channels : (Instr.header 1 1 5 1).wellFormed Config.Params.default = false := by decide
theorem test_wf_colorspace_two : (Instr.header 1 1 3 2).wellFormed Config.Params.default = false := by decide

/-! ### Decoding: words written out bit by bit from R82 to R87, R93 and R94 -/

theorem test_decode_index : decode .chunk [0b00110001] = .ok (.opIndex 49, []) := rfl
theorem test_decode_diff : decode .chunk [0b01111001] = .ok (.opDiff 3 2 1, []) := rfl
theorem test_decode_luma : decode .chunk [0b10101100, 0b01100001] = .ok (.opLuma 44 6 1, []) := rfl
theorem test_decode_run : decode .chunk [0b11111101] = .ok (.opRun 61, []) := rfl
theorem test_decode_rgb : decode .chunk [0b11111110, 10, 20, 30] = .ok (.opRgb 10 20 30, []) := rfl
theorem test_decode_rgba : decode .chunk [0b11111111, 1, 2, 3, 4] = .ok (.opRgba 1 2 3 4, []) := rfl
theorem test_decode_header : decode .header [0x71, 0x6F, 0x69, 0x66, 0, 0, 1, 2, 0, 3, 0, 4, 4, 1] =
    .ok (.header 258 196612 4 1, []) := rfl
theorem test_decode_end : decode .trailer [0, 0, 0, 0, 0, 0, 0, 1, 7] = .ok (.endMarker, [7]) := rfl
theorem test_reject_short_luma : decode .chunk [0x80] = .error .truncated := rfl
theorem test_reject_magic : decode .header [0x71, 0x6F, 0x69, 0x67, 0, 0, 0, 1, 0, 0, 0, 1, 4, 1] = .error .badMagic := rfl
theorem test_reject_marker : decode .trailer [0, 0, 0, 0, 0, 0, 0, 0] = .error .badMarker := rfl

/-! ### The words of the opcode table, and the step that runs them -/

theorem test_table_index : decodeTableWord 8 0x31 = some (.opIndex 49) := by decide
theorem test_table_luma : decodeTableWord 16 0x61AC = some (.opLuma 44 6 1) := by decide
theorem test_table_rgb : decodeTableWord 32 0x1E140AFE = some (.opRgb 10 20 30) := by decide
theorem test_table_rgba : decodeTableWord 40 0x04030201FF = some (.opRgba 1 2 3 4) := by decide
theorem test_table_end : decodeTableWord 64 1 = some .endMarker := by decide
theorem test_table_header : decodeTableWord 112 0x0003010000000200000066696F71 = some (.header 2 1 3 0) := by decide

theorem test_table_header_as_listed : decodeTableWord 112 0x716F6966 = some (.header 0 0 0 0) := by decide

/-- The next step runs the record laid down by `withFetchWord`, from reset: R145, R147, R113 and R115 by their effects. -/
theorem test_steps_run_table_words :
    onNext (step (State.reset.withFetchWord 8 0x31)) (fun t => t.prev = ⟨0, 0, 0, 0⟩ ∧ t.pixPos = 1) = true ∧
    onNext (step (State.reset.withFetchWord 8 0x79)) (fun t => t.prev = ⟨1, 0, 255, 255⟩) = true ∧
    onNext (step (State.reset.withFetchWord 112 0x0003010000000200000066696F71)) (fun t => t.job.n = 2 ∧ t.phase = .decChunks) =
      true ∧
    onNext (step (State.reset.withFetchWord 64 1)) (fun t => t.phase = .done) = true := by decide

/-! ### One step of each instruction: the examples and corner cases of 40_stream_framer.md and 42_chunk_codec.md -/

/-- R145: a slot that still holds a zero pixel: the store goes to slot 0. -/
theorem test_index_decodes : onNext (step { decoding ⟨1, 1, 1, 1⟩ 4 2 [0x09] with
    cache := store (Vector.replicate 64 Pixel.zero) 0 ⟨0, 0, 0, 64⟩ })
    (fun t => t.prev = Pixel.zero ∧ lookup t.cache 0 = Pixel.zero ∧ t.inPos = 1) = true := by decide

/-- R144: slot 9 holds (10,20,30,255). -/
theorem test_index_encodes : onNext (step { encoding Pixel.start 4 2 0 [10, 20, 30, 255] 64 with
    cache := store (Vector.replicate 64 Pixel.zero) 9 ⟨10, 20, 30, 255⟩ })
    (fun t => t.outBuf.readBytes 0 1 = [0x09] ∧ t.outPos = 1) = true := by decide

/-- R147. -/
theorem test_diff_decodes : onNext (step (decoding ⟨255, 255, 255, 255⟩ 4 2 [0x7F])) (fun t => t.prev = ⟨0, 0, 0, 255⟩) =
    true := by decide

/-- R146. -/
theorem test_diff_encodes : onNext (step (encoding Pixel.start 4 2 0 [1, 0, 255, 255] 64))
    (fun t => t.outBuf.readBytes 0 1 = [0x79] ∧ t.outPos = 1) = true := by decide

/-- R149. -/
theorem test_luma_decodes : onNext (step (decoding Pixel.start 4 2 [0x80, 0x0F])) (fun t => t.prev = ⟨216, 224, 231, 255⟩) =
    true := by decide

/-- R148. -/
theorem test_luma_encodes : onNext (step (encoding Pixel.start 4 2 0 [10, 12, 5, 255] 64))
    (fun t => t.outBuf.readBytes 0 2 = [0xAC, 0x61] ∧ t.outPos = 2) = true := by decide

/-- R143. -/
theorem test_run_decodes : onNext (step (decoding ⟨10, 20, 30, 255⟩ 3 5 [0xC1]))
    (fun t => t.outBuf.readBytes 0 7 = [10, 20, 30, 10, 20, 30, 0] ∧ t.pixPos = 2) = true := by decide

/-- R174 case 1, R142: the 62nd pixel of a run. -/
theorem test_run_encodes : onNext (step (encoding Pixel.start 3 70 61 [0, 0, 0] 64))
    (fun t => t.outBuf.readBytes 0 1 = [0xFD] ∧ t.run = 0 ∧ t.outPos = 1) = true := by decide

/-- R151: alpha is kept. -/
theorem test_rgb_decodes : onNext (step (decoding ⟨9, 9, 9, 0⟩ 4 2 [0xFE, 10, 20, 30])) (fun t => t.prev = ⟨10, 20, 30, 0⟩) =
    true := by decide

/-- R150, and R174 case 3: the broken run of 3 is flushed first. -/
theorem test_rgb_encodes : onNext (step (encoding Pixel.start 3 9 3 [128, 0, 0] 64))
    (fun t => t.outBuf.readBytes 0 5 = [0xC2, 0xFE, 0x80, 0, 0] ∧ t.run = 0) = true := by decide

/-- R153: the pixel goes to slot 14. -/
theorem test_rgba_decodes : onNext (step (decoding Pixel.start 4 2 [0xFF, 1, 2, 3, 4]))
    (fun t => lookup t.cache 14 = ⟨1, 2, 3, 4⟩ ∧ t.inPos = 5) = true := by decide

/-- R152. -/
theorem test_rgba_encodes : onNext (step (encoding ⟨10, 20, 30, 255⟩ 4 2 0 [10, 20, 30, 0] 64))
    (fun t => t.outBuf.readBytes 0 5 = [0xFF, 10, 20, 30, 0]) = true := by decide

/-- R113's example. -/
theorem test_header_decodes : onNext (step (decodeStart [0x71, 0x6F, 0x69, 0x66, 0, 0, 0, 1, 0, 0, 0, 1, 4, 1] 4))
    (fun t => t.csr.width = 1 ∧ t.csr.channels = 4 ∧ t.csr.colorspace = 1 ∧ t.phase = .decChunks ∧ t.inPos = 14) = true := by
  decide

/-- R112's example. -/
theorem test_header_encodes : encodeFirst.outBuf.readBytes 0 14 =
    [0x71, 0x6F, 0x69, 0x66, 0, 0, 0, 2, 0, 0, 0, 1, 3, 0] := by decide

/-- R115, with S7 of 95_test_vectors.md: the whole stream is 27 bytes. -/
theorem test_end_encodes : encodeEnd.outBuf.readBytes 14 13 = [0xFE, 10, 20, 30, 0xC0, 0, 0, 0, 0, 0, 0, 0, 1] ∧
    encodeEnd.csr.outLen = 27 ∧ encodeEnd.phase = .done := by decide

/-- R116: outside a pass the marker's record changes nothing. -/
theorem test_end_after_pass : onNext (exec .endMarker encodeEnd) (fun t => t = encodeEnd) = true := by decide

/-! ### Witnesses: states and operands that meet the hypotheses of each statement -/

theorem witness_DecodeInvertsEncode : (Instr.opRun 61).wellFormed Config.Params.default = true ∧
    (Instr.header 65535 65537 3 0).wellFormed Config.Params.default = true ∧
    Instr.endMarker.wellFormed Config.Params.default = true := by decide

theorem witness_EncodeInvertsDecode : decode .chunk [0x80, 0x0F, 7] = .ok (.opLuma 0 0 15, [7]) ∧
    decode .trailer (endBytes ++ [7]) = .ok (.endMarker, [7]) ∧
    decode .header (magic ++ [0, 0, 0, 0, 0, 0, 0, 0, 0, 0]) = .ok (.header 0 0 0 0, []) := ⟨rfl, rfl, rfl⟩

/-- The ends of R90's ranges. -/
theorem witness_EveryFirstByteSelectsOneForm : ([0x00, 0x3F, 0x40, 0x7F, 0x80, 0xBF, 0xC0, 0xFD, 0xFE, 0xFF] : List Byte).map chunkLen =
    [1, 1, 1, 1, 2, 2, 1, 1, 4, 5] ∧ 4 ≤ ([1, 2, 3, 4] : List Byte).length := by decide

theorem witness_ResetAbandonsPass :
    ({ encodeFirst with host := [.assertReset] } : State).host = .assertReset :: [] ∧ encodeFirst.busy = true ∧
    ({ encodeEnd with host := [.assertReset] } : State).host = .assertReset :: [] ∧ encodeEnd.busy = false ∧
    encodeFirst.job.outCap.toNat ≤ 64 := by decide

theorem witness_StartOpensPass : encodeEnd.busy = false ∧ State.reset.busy = false ∧
    (1 : BitVec 64).getLsbD 0 = true ∧ (1 : BitVec 64).getLsbD 1 = false ∧
    (3 : BitVec 64).getLsbD 0 = true ∧ (3 : BitVec 64).getLsbD 1 = true := by decide

theorem witness_BusyCsrAccess : encodeFirst.busy = true ∧ decodeFirst.busy = true ∧ decodeFirst.job.mode = .dec ∧
    (8 ≤ (8 : BitVec 4).toNat ∧ (10 : BitVec 4).toNat ≤ 10) ∧ (2 ≤ (2 : BitVec 4).toNat ∧ (5 : BitVec 4).toNat ≤ 5) ∧
    encodeFirst.job.mode ≠ .dec := by decide

theorem witness_IdleCsrAccess : State.reset.busy = false ∧ (2 : BitVec 64).getLsbD 0 = false := by decide

/-- R39 to R41: after the pass of `encodeEnd` the three counters differ, so a read that mixed them up would show. -/
theorem test_counters_read : [8, 9, 10].map (fun reg => encodeEnd.csrValue reg) = [27, 6, 2] ∧
    encodeEnd.csrValue 1 = 2 := by decide

theorem witness_HostBufferAccess : State.reset.busy = false ∧ encodeFirst.busy = true := by decide

/-- The last chunk that fits: `in_pos` + 4 = IN_LEN. -/
theorem witness_StepRunsChunkAtInPos :
    let s := decoding Pixel.start 4 2 [0xFE, 10, 20, 30]
    s.host = [] ∧ s.phase = .decChunks ∧ s.pixPos.toNat < s.job.n ∧
    s.inPos.toNat + (encode (.opRgb 10 20 30)).length = s.job.inLen.toNat ∧ (Instr.opRgb 10 20 30).slot = .chunk ∧
    (Instr.opRgb 10 20 30).wellFormed s.params = true ∧
    s.inBuf.readBytes s.inPos.toNat (encode (.opRgb 10 20 30)).length = encode (.opRgb 10 20 30) := by decide

theorem witness_StepRunsHeaderAtZero :
    let s := decodeStart (encode (.header 0 7 9 9)) 4
    s.host = [] ∧ s.phase = .decHeader ∧ 14 ≤ s.job.inLen.toNat ∧ s.inBuf.readBytes 0 14 = encode (.header 0 7 9 9) := by
  decide

theorem witness_StepRunsEncoderRecord :
    (encodeStart.host = [] ∧ encodeStart.phase = .encHeader) ∧
    (let s := orReset (Sys2Proof.core.run 3 encodeStart); s.host = [] ∧ s.phase = .encTrailer) ∧
    (let s := encoding Pixel.start 3 9 3 [0, 0, 0] 0
     s.phase = .encPixels ∧ s.pixPos.toNat < s.job.n ∧ s.job.n ≤ 4294967295 ∧ s.nextChunk = none ∧
      s.outPos.toNat + 0 ≤ s.job.outCap.toNat) ∧
    (let s := encoding Pixel.start 3 1 3 [0, 0, 0] 0
     s.phase = .encPixels ∧ s.pixPos.toNat < s.job.n ∧ s.job.n ≤ 4294967295 ∧ s.nextChunk = some (.opRun 3)) := by
  decide

/-- An instruction with no transition: a chunk in the header and trailer phases, one the encoder does not select, a header
in the pixel phase, a header that is not the job's, and an end marker in the pixel phase. -/
theorem witness_ExecOutsideItsPhase : State.reset.phase = .idle ∧ encodeEnd.phase = .done ∧ encodeStart.phase = .encHeader ∧
    decodeBack.phase = .decHeader ∧ (Instr.opRun 0).slot = .chunk ∧
    encodeFirst.phase = .encPixels ∧ encodeFirst.nextChunk ≠ some (.opRun 0) ∧
    (Instr.header 9 9 9 9).slot = .header ∧
    Instr.header 9 9 9 9 ≠ .header encodeStart.job.w encodeStart.job.h encodeStart.job.c encodeStart.job.cs := by decide

/-- The hypothesis of the decode statements: with pixels to spare, and with one pixel left. -/
theorem chunkReady_more : ChunkReady (decoding ⟨9, 9, 9, 0⟩ 4 70 [0xC1]) := ⟨rfl, by decide, by decide, .inr rfl⟩
theorem chunkReady_last : ChunkReady (decoding ⟨9, 9, 9, 0⟩ 3 1 [0xC1]) := ⟨rfl, by decide, by decide, .inl rfl⟩

theorem witness_IndexDecodes : ChunkReady (decoding Pixel.start 4 1 [0x09]) := ⟨rfl, by decide, by decide, .inr rfl⟩
theorem witness_DiffDecodes : ChunkReady (decoding Pixel.start 4 2 [0x79]) := ⟨rfl, by decide, by decide, .inr rfl⟩
theorem witness_LumaDecodes : ChunkReady (decoding Pixel.start 3 2 [0xAC, 0x61]) := ⟨rfl, by decide, by decide, .inl rfl⟩
theorem witness_RunDecodes : ChunkReady (decoding Pixel.start 3 5 [0xFD]) := ⟨rfl, by decide, by decide, .inl rfl⟩
theorem witness_RgbDecodes : ChunkReady (decoding Pixel.start 4 1 [0xFE, 1, 2, 3]) := ⟨rfl, by decide, by decide, .inr rfl⟩
theorem witness_RgbaDecodes : ChunkReady (decoding Pixel.start 3 2 [0xFF, 1, 2, 3, 4]) := ⟨rfl, by decide, by decide, .inl rfl⟩

/-- No byte left, and a chunk of four bytes of which three are there. -/
theorem witness_TruncationRaises :
    (let s := decoding Pixel.start 4 1 []
     s.host = [] ∧ s.phase = .decChunks ∧ s.pixPos.toNat < s.job.n ∧ s.job.inLen.toNat ≤ s.inPos.toNat) ∧
    (let s := decoding Pixel.start 4 1 [0xFE, 1, 2]
     s.host = [] ∧ s.phase = .decChunks ∧ s.pixPos.toNat < s.job.n ∧ s.inPos.toNat < s.job.inLen.toNat ∧
      s.job.inLen.toNat + 1 = s.inPos.toNat + chunkLen (s.inBuf.read s.inPos.toNat)) := by decide

/-- A state that no run reaches: STATUS holds code 10 already. -/
theorem witness_NoStepRaisesBadTag :
    let s := { State.reset with csr := { Csrs.reset with status := 0x00000A00 } }
    step s = .next s ∧ s.errCodeField = 10 := ⟨rfl, by decide⟩

theorem witness_EncoderReadsPixel : encodeFirst.job.c = 3 ∧ (encoding Pixel.start 4 2 0 [1, 2, 3, 4] 64).job.c = 4 := by decide

/-- A pixel that differs from `prev`, with no run pending and with one of three. -/
theorem witness_ChunkEmits : PixelReady (encoding Pixel.start 3 9 3 [128, 0, 0] 5) ∧
    (let s := encoding Pixel.start 3 9 3 [128, 0, 0] 5
     s.readPixel ≠ s.prev ∧ chunkOf s.readPixel s.prev s.cache = some (.opRgb 128 0 0) ∧ s.outPos.toNat + 5 ≤ s.job.outCap.toNat) ∧
    (let s := encoding Pixel.start 3 9 0 [128, 0, 0] 4
     s.run.toNat = 0 ∧ s.readPixel ≠ s.prev ∧ s.outPos.toNat + 4 ≤ s.job.outCap.toNat) :=
  ⟨⟨rfl, by decide, by decide⟩, by decide, by decide⟩

/-- The run's 62nd pixel, and the image's last. -/
theorem witness_RunFlushes : PixelReady (encoding Pixel.start 3 70 61 [0, 0, 0] 1) ∧
    PixelReady (encoding Pixel.start 3 1 0 [0, 0, 0] 1) ∧
    (let s := encoding Pixel.start 3 70 61 [0, 0, 0] 1
     s.readPixel = s.prev ∧ s.run.toNat < 62 ∧ s.run.toNat + 1 = 62 ∧ s.outPos.toNat + 1 ≤ s.job.outCap.toNat) ∧
    (let s := encoding Pixel.start 3 1 0 [0, 0, 0] 1
     s.readPixel = s.prev ∧ s.run.toNat < 62 ∧ s.pixPos.toNat + 1 = s.job.n ∧ s.outPos.toNat + 1 ≤ s.job.outCap.toNat) :=
  ⟨⟨rfl, by decide, by decide⟩, ⟨rfl, by decide, by decide⟩, by decide, by decide⟩

/-- One byte too few for a flushed run with its chunk, for a run flush, and for the trailer. -/
theorem witness_EncodeOverflowRaises : PixelReady (encoding Pixel.start 3 9 3 [128, 0, 0] 4) ∧
    (let s := encoding Pixel.start 3 9 3 [128, 0, 0] 4
     s.host = [] ∧ s.readPixel ≠ s.prev ∧ s.nextChunk = some (.opRgb 128 0 0) ∧ s.job.outCap.toNat < s.outPos.toNat + (1 + 4)) ∧
    (let s := encoding Pixel.start 3 1 0 [0, 0, 0] 0
     s.host = [] ∧ s.readPixel = s.prev ∧ s.nextChunk = some (.opRun 0) ∧ s.job.outCap.toNat < s.outPos.toNat + 1) ∧
    (let s := { State.reset with phase := .encTrailer, outPos := 19, job := { Job.reset with outCap := 26 } }
     s.host = [] ∧ s.phase = .encTrailer ∧ s.job.outCap.toNat < s.outPos.toNat + 8) :=
  ⟨⟨rfl, by decide, by decide⟩, by decide, by decide, by decide⟩

/-- An ENC_HEADER state with this job. -/
def jobState (w h : Word32) (c cs : Byte) (inLen outCap : Addr) : State :=
  { State.reset with phase := .encHeader, job := { Job.reset with w := w, h := h, c := c, cs := cs, inLen := inLen, outCap := outCap } }

/-- The clauses of R111's order, each at a job that passes the checks before it: the errors met, by their codes. -/
theorem witness_HeaderEncodes : ([jobState 0 1 9 9 0 0, jobState 65536 65536 9 9 0 0, jobState 1 1 2 9 0 0, jobState 1 1 4 2 0 0,
      jobState 1 1 4 1 5 0, jobState 1 1 4 1 4 13, jobState 1 4294967295 3 0 12884901885 14].map fun s =>
      onNext (exec (.header s.job.w s.job.h s.job.c s.job.cs) s) fun t => s.phase = .encHeader ∧
        (if t.phase = .encPixels then 0 else t.errCodeField) =
          (if s.job.w = 0 then 4 else if s.job.w = 65536 then 5 else if s.job.c = 2 then 2 else if s.job.cs = 2 then 3
           else if s.job.inLen = 5 then 6 else if s.job.outCap = 13 then 11 else 0)) =
    [true, true, true, true, true, true, true] := by decide

theorem witness_HeaderDecodes : (decodeStart (encode (.header 1 1 4 0)) 4).phase = .decHeader ∧
    onNext (exec (.header 1 0 4 0) (decodeStart [] 4)) (fun t => t.errCodeField = 4) = true ∧
    onNext (exec (.header 65536 65536 2 0) (decodeStart [] 4)) (fun t => t.errCodeField = 5) = true ∧
    onNext (exec (.header 1 1 2 2) (decodeStart [] 4)) (fun t => t.errCodeField = 2) = true ∧
    onNext (exec (.header 1 1 4 2) (decodeStart [] 4)) (fun t => t.errCodeField = 3) = true ∧
    onNext (exec (.header 1 1 4 0) (decodeStart [] 3)) (fun t => t.errCodeField = 11 ∧ t.csr.width = 1) = true ∧
    onNext (exec (.header 1 1 4 0) (decodeStart [] 4)) (fun t => t.phase = .decChunks) = true := by decide

/-- 13 bytes, and 14 with a wrong fourth byte. -/
theorem witness_HeaderRecordChecks :
    (let s := decodeStart [0x71, 0x6F, 0x69, 0x66, 0, 0, 0, 1, 0, 0, 0, 1, 4] 4
     s.host = [] ∧ s.phase = .decHeader ∧ s.job.inLen.toNat = 13) ∧
    (let s := decodeStart [0x71, 0x6F, 0x69, 0x67, 0, 0, 0, 1, 0, 0, 0, 1, 4, 0] 4
     s.host = [] ∧ s.phase = .decHeader ∧ 14 ≤ s.job.inLen.toNat ∧ s.inBuf.readBytes 0 4 ≠ [0x71, 0x6F, 0x69, 0x66]) := by
  decide

/-- The marker just fits. -/
theorem witness_EndMarkerEncodes :
    let s := { State.reset with phase := .encTrailer, outPos := 19, job := { Job.reset with outCap := 27 } }
    s.phase = .encTrailer ∧ s.outPos.toNat + 8 = s.job.outCap.toNat := by decide

/-- A pixel of each of the five forms that a chunk of its own codes. -/
theorem witness_CodecIsExact : ChunkReady (decoding Pixel.start 4 2 []) ∧
    chunkOf ⟨0, 0, 0, 0⟩ Pixel.start (Vector.replicate 64 Pixel.zero) = some (.opIndex 0) ∧
    chunkOf ⟨1, 0, 255, 255⟩ Pixel.start (Vector.replicate 64 Pixel.zero) = some (.opDiff 3 2 1) ∧
    chunkOf ⟨10, 12, 5, 255⟩ Pixel.start (Vector.replicate 64 Pixel.zero) = some (.opLuma 44 6 1) ∧
    chunkOf ⟨10, 20, 30, 255⟩ Pixel.start (Vector.replicate 64 Pixel.zero) = some (.opRgb 10 20 30) ∧
    chunkOf ⟨1, 2, 3, 4⟩ Pixel.start (Vector.replicate 64 Pixel.zero) = some (.opRgba 1 2 3 4) :=
  ⟨⟨rfl, by decide, by decide, .inr rfl⟩, by decide, by decide, by decide, by decide, by decide⟩

theorem witness_OnlyRgbaAndIndexChangeAlpha :
    (let s := decoding Pixel.start 4 2 [0xFF, 1, 2, 3, 4]
     s.phase = .decChunks ∧ onNext (exec (.opRgba 1 2 3 4) s) (fun t => t.prev.a ≠ s.prev.a) = true) ∧
    (⟨1, 2, 3, 4⟩ : Pixel).a ≠ Pixel.start.a ∧
    chunkOf ⟨1, 2, 3, 4⟩ Pixel.start (Vector.replicate 64 Pixel.zero) = some (.opRgba 1 2 3 4) := by decide

/-! ### Witnesses that meet the invariants -/

theorem encodeStart_inv : PassInv encodeStart := State.start_passInv (by decide) (.inl rfl) .enc
theorem decodeBack_inv : PassInv decodeBack := State.start_passInv (by decide) (.inr rfl) .dec

theorem encodeFirst_next : step encodeStart = .next encodeFirst := by
  obtain ⟨t, ht, -⟩ := engineStep_cases encodeStart
  have hs : step encodeStart = .next t := ht
  rw [encodeFirst, hs]
  rfl

theorem encodeFirst_inv : PassInv encodeFirst where
  params := by decide
  status := rfl
  ctrl := .inl rfl
  job := fun _ => ⟨rfl, rfl⟩
  facts := ⟨⟨rfl, ⟨by decide, rfl⟩, rfl, rfl, by decide, fun _ => rfl, by decide, by decide, by decide, by decide⟩,
    ⟨rfl, rfl, rfl, rfl⟩, by decide⟩

theorem witness_ThreeChannelsNeverRgba : PassInv encodeFirst ∧ encodeFirst.phase = .encPixels ∧ encodeFirst.job.c = 3 :=
  ⟨encodeFirst_inv, rfl, rfl⟩

theorem witness_StepStopsOnlyOnBrokenDuty :
    step { encodeFirst with host := [.writeIn 0 1] } = .refused .hostDutyBroken ∧
    step { encodeFirst with host := [.readIn 0] } = .refused .hostDutyBroken := ⟨rfl, rfl⟩

/-- A move granted to the engine in a pass, and the pass without one. -/
theorem witness_WaitIsOneEngineStep : ({ encodeStart with host := [.wait] } : State).host = .wait :: [] ∧
    encodeStart.host = [] ∧ step { encodeStart with host := [.wait, .readCsr 1] } = .next { encodeFirst with host := [.readCsr 1] } :=
  ⟨rfl, rfl, by
    rw [step_host rfl, encodeFirst]
    rfl⟩

theorem witness_EndedPhasesLast : (State.reset.phase = .idle ∧ step State.reset = .next State.reset) ∧
    (encodeEnd.phase = .done ∧ step encodeEnd = .next encodeEnd) ∧
    (let s := encodeFirst.raise .outOverflow
     s.phase = .error ∧ step s = .next s) ∧
    step { encodeEnd with host := [.wait] } = .next encodeEnd := ⟨⟨rfl, rfl⟩, ⟨rfl, rfl⟩, ⟨rfl, rfl⟩, rfl⟩

theorem witness_OnlyHostWritesIn : step encodeStart = .next encodeFirst := encodeFirst_next

/-- IN with another byte at IN_LEN. -/
theorem witness_EngineReadsBelowInLen : PassInv encodeFirst ∧ PassInv decodeBack ∧
    (∀ a, a < encodeFirst.job.inLen.toNat → (encodeFirst.inBuf.write 6 9).read a = encodeFirst.inBuf.read a) ∧
    (∀ a, a < decodeBack.job.inLen.toNat → (decodeBack.inBuf.write 27 9).read a = decodeBack.inBuf.read a) :=
  ⟨encodeFirst_inv, decodeBack_inv,
    fun a h => Memory.read_write_other (fun e => absurd (e ▸ h) (by decide)) _ _,
    fun a h => Memory.read_write_other (fun e => absurd (e ▸ h) (by decide)) _ _⟩

/-- IN with another byte just after the chunk, below IN_LEN. -/
theorem witness_ChunkStepReadsItsChunk : decodeFirst.phase = .decChunks ∧
    decodeFirst.inPos.toNat + chunkLen (decodeFirst.inBuf.read decodeFirst.inPos.toNat) = 18 ∧
    18 < decodeFirst.job.inLen.toNat ∧
    (∀ a, decodeFirst.inPos.toNat ≤ a →
      a < decodeFirst.inPos.toNat + chunkLen (decodeFirst.inBuf.read decodeFirst.inPos.toNat) →
      (decodeFirst.inBuf.write 18 9).read a = decodeFirst.inBuf.read a) :=
  ⟨rfl, by decide, by decide,
    fun a _ h => Memory.read_write_other (fun e => absurd (e ▸ h) (by decide)) _ _⟩

theorem witness_EngineWritesBelowCap : PassInv encodeStart ∧ engineStep encodeStart = .next encodeFirst ∧
    encodeStart.job.outCap.toNat ≤ 64 := ⟨encodeStart_inv, encodeFirst_next, by decide⟩

theorem witness_OutPosNeverDecreases : PassInv encodeStart ∧ engineStep encodeStart = .next encodeFirst ∧
    encodeFirst.phase ≠ .error := ⟨encodeStart_inv, encodeFirst_next, by decide⟩

theorem witness_StepKeepsBuffersCanonical : BuffersCanonical encodeStart ∧ step encodeStart = .next encodeFirst :=
  ⟨⟨by decide, by decide, rfl⟩, encodeFirst_next⟩

theorem witness_StepKeepsCacheAtHome : CacheAtHome encodeStart ∧ step encodeStart = .next encodeFirst :=
  ⟨fun i => .inl (lookup_replicate i Pixel.zero), encodeFirst_next⟩

theorem witness_StepKeepsPassInv : PassInv encodeStart ∧ step encodeStart = .next encodeFirst :=
  ⟨encodeStart_inv, encodeFirst_next⟩

theorem witness_StatusFlagsTellPhase : PassInv encodeStart ∧ PassInv encodeFirst := ⟨encodeStart_inv, encodeFirst_inv⟩

theorem witness_EncodePassCompletes : PassInv encodeStart ∧ encodeStart.host = [] ∧ encodeStart.phase = .encHeader ∧
    legalHeader encodeStart.params encodeStart.job.w encodeStart.job.h encodeStart.job.c encodeStart.job.cs = true ∧
    encodeStart.job.inLen.toNat = encodeStart.job.w.toNat * encodeStart.job.h.toNat * encodeStart.job.c.toNat ∧
    14 + encodeStart.job.w.toNat * encodeStart.job.h.toNat * (encodeStart.job.c.toNat + 1) + 8 ≤ encodeStart.job.outCap.toNat :=
  ⟨encodeStart_inv, rfl, rfl, by decide, by decide, by decide⟩

theorem witness_EveryPassEnds : (PassInv encodeStart ∧ encodeStart.host = [] ∧ encodeStart.phase = .encHeader) ∧
    PassInv decodeBack ∧ decodeBack.host = [] ∧ decodeBack.phase = .decHeader :=
  ⟨⟨encodeStart_inv, rfl, rfl⟩, decodeBack_inv, rfl, rfl⟩

/-- The run of four steps ends in DONE. -/
theorem encodeEnd_run : Sys2Proof.core.run 4 encodeStart = .next encodeEnd ∧ encodeEnd.phase = .done := by
  refine ⟨?_, rfl⟩
  rw [encodeEnd]
  rfl

/-- Two passes over the same job and IN, with other bytes in OUT and another count of free values. -/
theorem witness_EncodePassIsDeterministic :
    let s' := { encodeStart with outBuf := Memory.empty.writeBytes 0 [7, 7], draws := 5 }
    PassInv encodeStart ∧ PassInv s' ∧ encodeStart.host = [] ∧ s'.host = [] ∧ encodeStart.phase = .encHeader ∧
    s'.phase = .encHeader ∧ encodeStart.job = s'.job ∧ encodeStart.params = s'.params ∧
    (∀ a, a < encodeStart.job.inLen.toNat → encodeStart.inBuf.read a = s'.inBuf.read a) ∧
    Sys2Proof.core.run 4 encodeStart = .next encodeEnd ∧ ∃ t', Sys2Proof.core.run 4 s' = .next t' ∧ t'.phase = .done :=
  ⟨encodeStart_inv, ⟨by decide, rfl, .inl rfl, fun _ => ⟨rfl, rfl⟩, rfl, ⟨rfl, rfl, rfl, rfl, rfl, rfl⟩, rfl, rfl, rfl, rfl⟩,
    rfl, rfl, rfl, rfl, rfl, rfl, fun _ _ => rfl, encodeEnd_run.1, _, rfl, rfl⟩

/-- The pass of `decodeBack` ends at `in_pos` 19; the other stream has another byte there, and no end marker, since its
IN_LEN is 19. -/
theorem witness_BytesAfterLastChunkIgnored : PassInv decodeBack ∧ decodeBack.host = [] ∧ decodeBack.phase = .decHeader ∧
    ∃ t, Sys2Proof.core.run 3 decodeBack = .next t ∧ t.phase = .done ∧ t.csr.inPos = 19 ∧
      t.csr.inPos.toNat ≤ (19 : Addr).toNat ∧
      ∀ a, a < t.csr.inPos.toNat → (decodeBack.inBuf.write 19 9).read a = decodeBack.inBuf.read a :=
  ⟨decodeBack_inv, rfl, rfl, _, rfl, rfl, rfl, Nat.le_refl _,
    fun a h => Memory.read_write_other (fun e => absurd (e ▸ h) (by decide)) _ _⟩

theorem witness_DecodeInvertsEncodePass : PassInv encodeStart ∧ encodeStart.host = [] ∧ encodeStart.phase = .encHeader ∧
    Sys2Proof.core.run 4 encodeStart = .next encodeEnd ∧ encodeEnd.phase = .done ∧ PassInv decodeBack ∧ decodeBack.host = [] ∧
    decodeBack.phase = .decHeader ∧ decodeBack.params = encodeStart.params ∧ decodeBack.job.inLen = encodeEnd.csr.outLen ∧
    (∀ a, a < encodeEnd.csr.outLen.toNat → decodeBack.inBuf.read a = encodeEnd.outBuf.read a) ∧
    encodeEnd.job.n * encodeEnd.job.c.toNat = decodeBack.job.outCap.toNat :=
  ⟨encodeStart_inv, rfl, rfl, encodeEnd_run.1, rfl, decodeBack_inv, rfl, rfl, rfl, rfl, fun _ _ => rfl, by decide⟩

/-- Beside the hypotheses above: the two passes with no pixel done, with one, and with all two, where the decoder stands in
DONE and the encoder before its trailer. The decoder's second step covers the second pixel. -/
theorem witness_CachesStayInStep : Sys2Proof.core.run 1 encodeStart = .next encodeFirst ∧
    Sys2Proof.core.run 1 decodeBack = .next decodeFirst ∧ encodeFirst.phase = .encPixels ∧ decodeFirst.phase = .decChunks ∧
    encodeFirst.pixPos = decodeFirst.pixPos ∧
    (let e := orReset (Sys2Proof.core.run 2 encodeStart)
     let u := orReset (Sys2Proof.core.run 2 decodeBack)
     let v := orReset (step u)
     e.phase = .encPixels ∧ u.phase = .decChunks ∧ e.pixPos = u.pixPos ∧ e.pixPos = 1 ∧
     (let e' := orReset (step e)
      e'.phase = .encTrailer ∧ v.phase = .done ∧ e'.pixPos = v.pixPos ∧ e'.pixPos = 2 ∧
      u.pixPos.toNat < e'.pixPos.toNat ∧ e'.pixPos.toNat ≤ v.pixPos.toNat)) :=
  ⟨rfl, rfl, rfl, rfl, rfl, rfl, rfl, rfl, rfl, rfl, rfl, rfl, rfl, by decide, by decide⟩

end Sys2Proof.Tests
end

namespace Sys2Proof.Safety

open Sys2Proof.Machine

variable {s : State}

/-! ### Words and offsets -/

theorem statusDone_ne_statusBusy : statusDone ≠ statusBusy := by decide

theorem statusError_ne_statusBusy (e : ErrCode) : statusError e ≠ statusBusy := by cases e <;> decide

/-- An offset that stays at or below a bound does not wrap. -/
theorem addr_toNat_add {a b : Addr} {k : Nat} (h : a.toNat + k ≤ b.toNat) :
    (a + BitVec.ofNat 64 k).toNat = a.toNat + k := by
  have := b.isLt
  simp only [BitVec.toNat_add, BitVec.toNat_ofNat, Nat.add_mod_mod]
  exact Nat.mod_eq_of_lt (by omega)

/-! ### What the invariant says in each phase -/

/-- The invariant says nothing of the buffers, of the count of free values or of the host's side. -/
theorem PassInv.congr_sides (h : PassInv s) (inBuf outBuf : Memory) (draws : Nat) (host : List HostMove)
    (readData : BitVec 64) :
    PassInv { s with inBuf := inBuf, outBuf := outBuf, draws := draws, host := host, readData := readData } := by
  obtain ⟨hparams, hstatus, hctrl, hjob, hfacts⟩ := h
  refine ⟨hparams, hstatus, hctrl, hjob, ?_⟩
  unfold PhaseFacts at hfacts ⊢
  cases hp : s.phase <;> simp only [hp] at hfacts ⊢
  case encPixels =>
    obtain ⟨hf, hrest⟩ := hfacts
    exact ⟨{ hf with }, hrest⟩
  case encTrailer =>
    obtain ⟨hf, hrest⟩ := hfacts
    exact ⟨{ hf with }, hrest⟩
  case decChunks =>
    obtain ⟨hf, hrest⟩ := hfacts
    exact ⟨{ hf with }, hrest⟩
  all_goals exact hfacts

theorem PassInv.encHeader (h : PassInv s) (hp : s.phase = .encHeader) :
    s.job.mode = .enc ∧ Fresh s ∧ HeaderCsrs s s.job.w s.job.h s.job.c s.job.cs := by
  simpa only [PhaseFacts, hp] using h.facts

theorem PassInv.encPixels (h : PassInv s) (hp : s.phase = .encPixels) :
    EncodeFacts s ∧ HeaderCsrs s s.job.w s.job.h s.job.c s.job.cs ∧ s.pixPos.toNat < s.job.n := by
  simpa only [PhaseFacts, hp] using h.facts

theorem PassInv.encTrailer (h : PassInv s) (hp : s.phase = .encTrailer) :
    EncodeFacts s ∧ HeaderCsrs s s.job.w s.job.h s.job.c s.job.cs ∧ s.pixPos.toNat = s.job.n ∧ s.run = 0 := by
  simpa only [PhaseFacts, hp] using h.facts

theorem PassInv.decHeader (h : PassInv s) (hp : s.phase = .decHeader) : s.job.mode = .dec ∧ Fresh s := by
  simpa only [PhaseFacts, hp] using h.facts

theorem PassInv.decChunks (h : PassInv s) (hp : s.phase = .decChunks) :
    DecodeFacts s ∧ HeaderCsrs s s.job.w s.job.h s.job.c s.job.cs ∧ s.pixPos.toNat < s.job.n := by
  simpa only [PhaseFacts, hp] using h.facts

/-- A decode pass in DEC_CHUNKS is about to apply a chunk. -/
theorem PassInv.chunkReady (h : PassInv s) (hp : s.phase = .decChunks) : ChunkReady s := by
  obtain ⟨hf, -, hn⟩ := h.decChunks hp
  obtain ⟨hcount, hchan, -⟩ := legalJob_bounds h.params hf.legal
  exact ⟨hp, hn, hcount, hchan⟩

/-! ### STATUS and the phase -/

/-- R28, R32, R227: what STATUS tells of the phase. -/
theorem StatusFollowsPhase.flags (h : StatusFollowsPhase s) :
    (s.busy = true ↔ s.phase = .encHeader ∨ s.phase = .encPixels ∨ s.phase = .encTrailer ∨ s.phase = .decHeader ∨
      s.phase = .decChunks) ∧
    (s.isDone = true ↔ s.phase = .done) ∧ (s.isErr = true ↔ s.phase = .error) := by
  unfold StatusFollowsPhase at h
  unfold State.busy State.isDone State.isErr
  cases hp : s.phase <;> simp only [hp] at h
  case error =>
    obtain ⟨e, -, he⟩ := h
    rw [he, statusError_busy, statusError_done, statusError_err]
    simp
  all_goals simp [h, statusBusy, statusDone]

/-- Outside a pass the phase is IDLE, DONE or ERROR. -/
theorem StatusFollowsPhase.phase_of_not_busy (h : StatusFollowsPhase s) (hb : s.busy = false) :
    s.phase = .idle ∨ s.phase = .done ∨ s.phase = .error := by
  obtain ⟨hbusy, -, -⟩ := h.flags
  rw [hb] at hbusy
  cases hp : s.phase <;> simp [hp] at hbusy ⊢

/-- Settles O50: the flags of STATUS by the phase, and `done_irq` as the OR of two of them. -/
theorem statusFlagsTellPhase : Obligations.StatusFlagsTellPhase := by
  intro s h
  obtain ⟨hbusy, hdone, herr⟩ := h.status.flags
  refine ⟨hbusy, hdone, herr, ?_⟩
  rw [State.doneIrq, Bool.or_eq_true, hdone, herr]

/-! ### Reset -/

/-- R240: an IDLE state with all CSRs at their reset values meets the invariant. -/
theorem passInv_of_reset (hp : s.params.legal) (hph : s.phase = .idle) (hc : s.csr = Csrs.reset) : PassInv s where
  params := hp
  status := by simp [StatusFollowsPhase, hph, hc, Csrs.reset]
  ctrl := .inl (by rw [hc]; rfl)
  job := fun hs => by rw [hc] at hs; exact absurd hs (by decide)
  facts := by simp only [PhaseFacts, hph]

/-- Settles O49: each invariant at the reset state. -/
theorem resetMeetsInvariants : Obligations.ResetMeetsInvariants :=
  ⟨passInv_of_reset (by decide) rfl rfl, ⟨rfl, rfl, rfl⟩, fun i => .inl (lookup_replicate i Pixel.zero)⟩

end Sys2Proof.Safety

namespace Sys2Proof.Machine

open Sys2Proof.Safety

/-! ### CSR access -/

theorem State.writeCsr_busy {s : State} (hb : s.busy = true) (reg : BitVec 4) (v : BitVec 64) : s.writeCsr reg v = s :=
  if_pos hb

/-- R46: when a CSR reads a free value. -/
theorem State.csrUnspecified_iff {s : State} {reg : BitVec 4} : s.csrUnspecified reg = true ↔
    s.busy = true ∧ (8 ≤ reg.toNat ∧ reg.toNat ≤ 10 ∨ s.job.mode = .dec ∧ 2 ≤ reg.toNat ∧ reg.toNat ≤ 5) := by
  simp [State.csrUnspecified]

/-- A read outside a pass returns what the CSR holds. -/
theorem State.readCsr_idle {s : State} (hb : s.busy = false) (reg : BitVec 4) :
    s.readCsr reg = { s with readData := s.csrValue reg } :=
  if_neg fun h => by simp [State.csrUnspecified, hb] at h

/-- R46: a read during a pass. -/
theorem State.readCsr_busy {s : State} (hb : s.busy = true) (reg : BitVec 4) :
    s.readCsr reg =
      if 8 ≤ reg.toNat ∧ reg.toNat ≤ 10 ∨ s.job.mode = .dec ∧ 2 ≤ reg.toNat ∧ reg.toNat ≤ 5 then
        { s with readData := Config.anyCsr s.draws reg.toNat &&& csrMask reg, draws := s.draws + 1 }
      else { s with readData := s.csrValue reg } := by
  simp only [State.readCsr, State.csrUnspecified_iff, hb, true_and]

/-- Settles O8, by the equations for a write and a read while BUSY. -/
theorem busyCsrAccess : Obligations.BusyCsrAccess := by
  intro s rest reg hb
  have hb' : ({ s with host := rest } : State).busy = true := hb
  refine ⟨fun v hh => ?_, fun hh => ?_, s.csrMap, ?_, ?_, ?_⟩
  · exact (step_host hh).trans (congrArg Host.Outcome.next (State.writeCsr_busy hb' reg v))
  · exact (step_host hh).trans ((congrArg Host.Outcome.next (State.readCsr_busy hb' reg)).trans (apply_ite ..))
  · rintro (rfl | rfl | rfl) <;> rfl
  · rintro (rfl | rfl) <;> rfl
  · rintro (rfl | rfl) <;> rfl

/-- The low `k` bits of a bus value, with zeros above them. -/
theorem setWidth_setWidth_eq_and {k : Nat} (hk : k ≤ 64) (v : BitVec 64) :
    (v.setWidth k).setWidth 64 = v &&& BitVec.ofNat 64 (2 ^ k - 1) := by
  have hpow : 2 ^ k ≤ 2 ^ 64 := Nat.pow_le_pow_right (by decide) hk
  have hpos : 0 < 2 ^ k := Nat.two_pow_pos k
  apply BitVec.eq_of_toNat_eq
  rw [BitVec.toNat_and, BitVec.toNat_ofNat, Nat.mod_eq_of_lt (a := 2 ^ k - 1) (by omega), Nat.and_two_pow_sub_one_eq_mod,
    BitVec.toNat_setWidth, BitVec.toNat_setWidth]
  exact Nat.mod_eq_of_lt ((Nat.mod_lt _ hpos).trans_le hpow)

/-- R31: CTRL keeps the MODE bit of a bus value. -/
theorem setWidth_modeBit (v : BitVec 64) : (v.setWidth 32 &&& 2).setWidth 64 = v &&& 2 := by
  rw [BitVec.setWidth_and, setWidth_setWidth_eq_and (by decide), BitVec.and_assoc]
  rfl

/-- The CSR numbers: the seven registers a host writes, and those that ignore a write (R30). -/
theorem csr_cases : ∀ reg : BitVec 4, reg = 0 ∨ reg = 2 ∨ reg = 3 ∨ reg = 4 ∨ reg = 5 ∨ reg = 6 ∨ reg = 7 ∨
    (reg.toNat = 1 ∨ 8 ≤ reg.toNat) := by decide

/-- R31 to R41: what a write without START does outside a pass, register by register. -/
theorem State.writeCsr_idle {s : State} {reg : BitVec 4} {v : BitVec 64} (hb : s.busy = false)
    (hs : reg = 0 → v.getLsbD 0 = false) :
    (reg = 0 ∧ s.writeCsr reg v = { s with csr := { s.csr with ctrl := v.setWidth 32 &&& 2 } }) ∨
    (reg = 2 ∧ s.writeCsr reg v = { s with csr := { s.csr with width := v.setWidth 32 } }) ∨
    (reg = 3 ∧ s.writeCsr reg v = { s with csr := { s.csr with height := v.setWidth 32 } }) ∨
    (reg = 4 ∧ s.writeCsr reg v = { s with csr := { s.csr with channels := v.setWidth 8 } }) ∨
    (reg = 5 ∧ s.writeCsr reg v = { s with csr := { s.csr with colorspace := v.setWidth 8 } }) ∨
    (reg = 6 ∧ s.writeCsr reg v = { s with csr := { s.csr with inLen := v } }) ∨
    (reg = 7 ∧ s.writeCsr reg v = { s with csr := { s.csr with outCap := v } }) ∨
    ((reg.toNat = 1 ∨ 8 ≤ reg.toNat) ∧ s.writeCsr reg v = s) := by
  have hb' : ¬s.busy = true := by simp [hb]
  rcases csr_cases reg with rfl | rfl | rfl | rfl | rfl | rfl | rfl | hr
  · have hstart : ¬(v.setWidth 32).getLsbD 0 = true := by simpa using hs rfl
    exact .inl ⟨rfl, (if_neg hb').trans (if_neg hstart)⟩
  · exact .inr (.inl ⟨rfl, if_neg hb'⟩)
  · exact .inr (.inr (.inl ⟨rfl, if_neg hb'⟩))
  · exact .inr (.inr (.inr (.inl ⟨rfl, if_neg hb'⟩)))
  · exact .inr (.inr (.inr (.inr (.inl ⟨rfl, if_neg hb'⟩))))
  · exact .inr (.inr (.inr (.inr (.inr (.inl ⟨rfl, if_neg hb'⟩)))))
  · exact .inr (.inr (.inr (.inr (.inr (.inr (.inl ⟨rfl, if_neg hb'⟩))))))
  · refine .inr (.inr (.inr (.inr (.inr (.inr (.inr ⟨hr, (if_neg hb').trans ?_⟩))))))
    split
    case h_8 => rfl
    all_goals omega

/-- R30: a write leaves every register it does not name. -/
theorem State.writeCsr_csrValue_other {s : State} {reg other : BitVec 4} {v : BitVec 64} (hb : s.busy = false)
    (hs : reg = 0 → v.getLsbD 0 = false) (ho : other ≠ reg) : (s.writeCsr reg v).csrValue other = s.csrValue other := by
  have hne : other.toNat ≠ reg.toNat := fun e => ho (BitVec.eq_of_toNat_eq e)
  rcases State.writeCsr_idle hb hs with ⟨rfl, e⟩ | ⟨rfl, e⟩ | ⟨rfl, e⟩ | ⟨rfl, e⟩ | ⟨rfl, e⟩ | ⟨rfl, e⟩ | ⟨rfl, e⟩ | ⟨-, e⟩ <;>
    rw [e]
  all_goals
    unfold State.csrValue
    split <;> simp_all

/-- R30 to R41: the register a write names holds the bits in use of the written value. -/
theorem State.writeCsr_csrValue_same {s : State} {reg : BitVec 4} {v : BitVec 64} (hb : s.busy = false)
    (hs : reg = 0 → v.getLsbD 0 = false) : (s.writeCsr reg v).csrValue reg =
      if reg = 0 then v &&& 2
      else if reg = 2 ∨ reg = 3 then v &&& 0xFFFFFFFF
      else if reg = 4 ∨ reg = 5 then v &&& 0xFF
      else if reg = 6 ∨ reg = 7 then v
      else s.csrValue reg := by
  rcases State.writeCsr_idle hb hs with ⟨rfl, e⟩ | ⟨rfl, e⟩ | ⟨rfl, e⟩ | ⟨rfl, e⟩ | ⟨rfl, e⟩ | ⟨rfl, e⟩ | ⟨rfl, e⟩ | ⟨hr, e⟩ <;>
    rw [e]
  · exact setWidth_modeBit v
  · exact setWidth_setWidth_eq_and (k := 32) (by decide) v
  · exact setWidth_setWidth_eq_and (k := 32) (by decide) v
  · exact setWidth_setWidth_eq_and (k := 8) (by decide) v
  · exact setWidth_setWidth_eq_and (k := 8) (by decide) v
  · rfl
  · rfl
  · have hro : reg ≠ 0 ∧ ¬(reg = 2 ∨ reg = 3) ∧ ¬(reg = 4 ∨ reg = 5) ∧ ¬(reg = 6 ∨ reg = 7) := by
      revert hr
      clear hs e
      revert reg
      decide
    obtain ⟨h0, h23, h45, h67⟩ := hro
    rw [if_neg h0, if_neg h23, if_neg h45, if_neg h67]

/-- Settles O9: a write by what it leaves in the named register and in the others, a read by what the register holds. -/
theorem idleCsrAccess : Obligations.IdleCsrAccess := by
  intro s rest reg hb
  have hb' : ({ s with host := rest } : State).busy = false := hb
  refine ⟨fun v hh hs => ?_, fun hh => ?_, s.csrMap⟩
  · refine ⟨_, step_host hh, ?_, fun other ho => State.writeCsr_csrValue_other hb' hs ho,
      State.writeCsr_csrValue_same hb' hs, State.csrMap _⟩
    rcases State.writeCsr_idle hb' hs with ⟨-, e⟩ | ⟨-, e⟩ | ⟨-, e⟩ | ⟨-, e⟩ | ⟨-, e⟩ | ⟨-, e⟩ | ⟨-, e⟩ | ⟨-, e⟩ <;> rw [e]
  · exact (step_host hh).trans (congrArg Host.Outcome.next (State.readCsr_idle hb' reg))

end Sys2Proof.Machine

namespace Sys2Proof.Safety

open Sys2Proof.Machine

variable {s t : State}

/-! ### The ends of a pass keep the invariant -/

/-- R222: every error that some step raises leaves a state that meets the invariant. -/
theorem passInv_raise (hp : s.params.legal) (hc : s.csr.ctrl = 0 ∨ s.csr.ctrl = 2) {e : ErrCode}
    (he : e ≠ .decBadTag) : PassInv (s.raise e) where
  params := hp
  status := ⟨e, he, rfl⟩
  ctrl := hc
  job := fun hb => absurd hb (statusError_ne_statusBusy e)
  facts := ⟨rfl, rfl, rfl⟩

theorem PassInv.raise (h : PassInv s) {e : ErrCode} (he : e ≠ .decBadTag) : PassInv (s.raise e) :=
  passInv_raise h.params h.ctrl he

theorem PassInv.raiseDecHeader (h : PassInv s) {e : ErrCode} (he : e ≠ .decBadTag) : PassInv (s.raiseDecHeader e) := by
  refine passInv_raise ?_ ?_ he
  · exact h.params
  · exact h.ctrl

/-! ### The encoder keeps the invariant -/

/-- R111, R112: the ENC_HEADER step. -/
theorem PassInv.encodeHeader (h : PassInv s) (hp : s.phase = .encHeader) :
    PassInv (s.encodeHeader s.job.w s.job.h s.job.c s.job.cs) := by
  obtain ⟨hmode, ⟨hprev, -, hrun, hpix, hin, hout⟩, hcsr⟩ := h.encHeader hp
  have hbusy := statusBusy_of_phase h.status (.inl hp)
  rcases s.encodeHeader_cases s.job.w s.job.h s.job.c s.job.cs with ⟨e, he, heq⟩ | ⟨hlegal, hlen, hfit, heq⟩ <;>
    rw [heq]
  · exact h.raise he
  have hout14 : (s.outPos + 14#64).toNat = 14 := (outPos_toNat_add hfit).trans (by rw [hout]; rfl)
  have hroom : 14 ≤ s.job.outCap.toNat := by simpa [hout, Fits, encode, magic, bytesBe32] using hfit
  obtain ⟨-, -, hpos⟩ := legalJob_bounds (s := { s with job := { s.job with n := s.job.w.toNat * s.job.h.toNat } })
    h.params ⟨hlegal, rfl⟩
  refine ⟨h.params, hbusy, h.ctrl, h.job, ⟨hmode, ⟨hlegal, rfl⟩, hlen, ?_, ?_, ?_, ?_, ?_, ?_, ?_⟩, hcsr, ?_⟩
  · simp [hin, hpix]
  · exact hout14.trans_le hroom
  · exact fun _ => by simp [hprev, Pixel.start]
  · simp [hrun]
  · simp [hrun]
  · exact ⟨hout14.ge, by simp [hpix]⟩
  · exact hout14.trans_le (Nat.le_add_right _ _)
  · simpa [hpix] using hpos

/-- What a pixel step that codes `px`, writes `k` bytes and leaves `r` in the run counter must meet for the facts of the
pass to go on: the range of `r`, and R179's bounds with one pixel more. -/
structure PixelBounds (s : State) (px : Pixel) (r : BitVec 6) (k : Nat) : Prop where
  alpha    : s.job.c = 3 → px.a = 255
  run      : r.toNat ≤ 61
  pending  : r.toNat ≤ s.pixPos.toNat + 1
  sizeLow  : s.pixPos.toNat + 1 ≤ 62 * (s.outPos.toNat + k - 14) + r.toNat
  sizeHigh : s.outPos.toNat + k ≤ 14 + (s.pixPos.toNat + 1 - r.toNat) * (s.job.c.toNat + 1)

/-- The facts of an encode pass after a pixel step within those bounds. -/
theorem EncodeFacts.pixel (hf : EncodeFacts s) (hn : s.pixPos.toNat < s.job.n) (hcount : s.job.n ≤ 4294967295) {k : Nat}
    {r : BitVec 6} {px : Pixel} (hfit : s.outPos.toNat + k ≤ s.job.outCap.toNat) (hb : PixelBounds s px r k)
    (cache : Vector Pixel 64) (outBuf : Memory) (phase : Phase) :
    EncodeFacts { s with
      run := r, cache := cache, prev := px, pixPos := s.pixPos + 1, inPos := s.inPos + BitVec.ofNat 64 s.job.c.toNat
      phase := phase, outBuf := outBuf, outPos := s.outPos + BitVec.ofNat 64 k } := by
  have hpix : (s.pixPos + 1).toNat = s.pixPos.toNat + 1 := pixPos_toNat_add (k := 1) hn hcount
  have hout := addr_toNat_add hfit
  have hin : (s.inPos + BitVec.ofNat 64 s.job.c.toNat).toNat = (s.pixPos.toNat + 1) * s.job.c.toNat := by
    have hle : (s.pixPos.toNat + 1) * s.job.c.toNat ≤ s.job.n * s.job.c.toNat := Nat.mul_le_mul_right _ hn
    rw [addr_toNat_add (b := s.job.inLen), hf.inPos, Nat.succ_mul]
    rwa [hf.inPos, hf.inLen, ← Nat.succ_mul]
  obtain ⟨h14, -⟩ := hf.sizeLow
  refine ⟨hf.mode, hf.legal, hf.inLen, hin.trans (by rw [hpix]), hout.trans_le hfit, hb.alpha, hb.run, ?_, ⟨?_, ?_⟩, ?_⟩
  · simpa only [hpix] using hb.pending
  · exact (h14.trans (Nat.le_add_right _ _)).trans hout.ge
  · simpa only [hpix, hout] using hb.sizeLow
  · simpa only [hpix, hout] using hb.sizeHigh

/-- R173: the end of a pixel step that writes `sb` and leaves `r` in the run counter. -/
theorem PassInv.endPixelStep (h : PassInv s) (hp : s.phase = .encPixels) {r : BitVec 6} {px : Pixel} {sb : List Byte}
    (hb : PixelBounds s px r sb.length) (hlast : s.pixPos.toNat + 1 = s.job.n → r = 0) (prev : Pixel)
    (cache : Vector Pixel 64) :
    PassInv (s.endPixelStep { s with run := r, prev := prev, cache := cache } px sb) := by
  obtain ⟨hf, hcsr, hn⟩ := h.encPixels hp
  obtain ⟨hcount, -, -⟩ := legalJob_bounds h.params hf.legal
  have hbusy := statusBusy_of_phase h.status (.inr (.inl hp))
  rcases s.endPixelStep_cases { s with run := r, prev := prev, cache := cache } px sb with ⟨-, e⟩ | ⟨hfit, e⟩ <;> rw [e]
  · exact h.raise (by decide)
  have hpix : (s.pixPos + 1).toNat = s.pixPos.toNat + 1 := pixPos_toNat_add (k := 1) hn hcount
  have hf' := hf.pixel hn hcount hfit hb
  split
  · next hl => exact ⟨h.params, hbusy, h.ctrl, h.job, hf' _ _ _, hcsr, hpix.trans hl, hlast hl⟩
  · next hl => exact ⟨h.params, hbusy, h.ctrl, h.job, hf' _ _ _, hcsr, hpix.trans_lt (Nat.lt_of_le_of_ne hn hl)⟩

/-- R63, R180: in a 3-channel image the encoder reads alpha 255. -/
theorem readPixel_alpha (hc : s.job.c = 3) : s.readPixel.a = 255 := by
  simp [State.readPixel, pixelOfBytes, hc]

/-- R142, R173: a pixel that joins the run. -/
theorem PassInv.encodeRunOn (h : PassInv s) (hp : s.phase = .encPixels)
    (hr : s.run.toNat + 1 ≠ 62 ∧ s.pixPos.toNat + 1 ≠ s.job.n) : PassInv s.encodeRunOn := by
  obtain ⟨hf, -, -⟩ := h.encPixels hp
  have h61 := hf.run
  have hpend := hf.pending
  obtain ⟨-, hlow⟩ := hf.sizeLow
  have hrun : (s.run + 1).toNat = s.run.toNat + 1 := by
    rw [BitVec.toNat_add]
    exact Nat.mod_eq_of_lt (by simp; omega)
  refine h.endPixelStep hp ⟨readPixel_alpha, ?_, ?_, ?_, ?_⟩ (fun hl => absurd hl hr.2) _ _
  · omega
  · omega
  · simp only [List.length_nil, hrun]; omega
  · simpa only [List.length_nil, Nat.add_zero, hrun, Nat.add_sub_add_right] using hf.sizeHigh

/-- R142, R174 cases 1 and 2: the run is flushed with its last pixel in it. -/
theorem PassInv.encodeRun (h : PassInv s) (hp : s.phase = .encPixels) (len1 : BitVec 6) : PassInv (s.encodeRun len1) := by
  obtain ⟨hf, -, -⟩ := h.encPixels hp
  obtain ⟨-, hchan, -⟩ := legalJob_bounds h.params hf.legal
  have h61 := hf.run
  obtain ⟨h14, hlow⟩ := hf.sizeLow
  have hhigh := hf.sizeHigh
  have hl : (encode (.opRun len1)).length = 1 := rfl
  refine h.endPixelStep hp ⟨readPixel_alpha, Nat.zero_le _, Nat.zero_le _, ?_, ?_⟩ (fun _ => rfl) _ _
  · simp [hl]; omega
  · rcases channels_toNat hchan with hc | hc <;> rw [hc] at hhigh ⊢ <;> simp [hl] <;> omega

/-- The bytes of a pending run: none or one. -/
theorem flushBytes_length (s : State) : s.flushBytes.length = if s.run.toNat = 0 then 0 else 1 := by
  rw [flushBytes_eq]
  split <;> rfl

/-- R144, R146, R148, R150, R152 in R173: a pixel with a chunk of its own. -/
theorem PassInv.encodeChunk (h : PassInv s) (hp : s.phase = .encPixels) {i : Instr}
    (hi : chunkOf s.readPixel s.prev s.cache = some i) : PassInv (s.encodeChunk i) := by
  obtain ⟨hf, -, -⟩ := h.encPixels hp
  obtain ⟨-, hchan, -⟩ := legalJob_bounds h.params hf.legal
  have h61 := hf.run
  have hpend := hf.pending
  obtain ⟨h14, hlow⟩ := hf.sizeLow
  have hhigh := hf.sizeHigh
  obtain ⟨hl1, hlc⟩ := chunkOf_length hi (channels_toNat hchan) fun hc => by
    have hc3 : s.job.c = 3 := BitVec.eq_of_toNat_eq hc
    rw [readPixel_alpha hc3, hf.alpha hc3]
  have hl : (s.flushBytes ++ encode i).length = (if s.run.toNat = 0 then 0 else 1) + (encode i).length := by
    rw [List.length_append, flushBytes_length]
  refine h.endPixelStep hp ⟨readPixel_alpha, Nat.zero_le _, Nat.zero_le _, ?_, ?_⟩ (fun _ => rfl) _ _
  · rw [hl]; simp; split <;> omega
  · rw [hl]; rcases channels_toNat hchan with hc | hc <;> rw [hc] at hhigh hlc ⊢ <;> simp <;> split <;> omega

/-- R115, R177: the ENC_TRAILER step. -/
theorem PassInv.encodeEnd (h : PassInv s) (hp : s.phase = .encTrailer) : PassInv s.encodeEnd := by
  obtain ⟨hf, -, hn, hrun⟩ := h.encTrailer hp
  obtain ⟨h14, hlow⟩ := hf.sizeLow
  have hhigh := hf.sizeHigh
  rcases s.encodeEnd_cases with ⟨-, e⟩ | ⟨hfit, e⟩ <;> rw [e]
  · exact h.raise (by decide)
  have hout : (s.outPos + 8#64).toNat = s.outPos.toNat + 8 := outPos_toNat_add hfit
  have hr0 : s.run.toNat = 0 := by rw [hrun]; rfl
  have hin : s.inPos.toNat = s.job.n * s.job.c.toNat := by rw [hf.inPos, hn]
  rw [hr0, hn] at hlow
  rw [hr0, hn, Nat.sub_zero] at hhigh
  refine ⟨h.params, rfl, h.ctrl, fun hb => absurd hb statusDone_ne_statusBusy, ⟨rfl, rfl, rfl⟩, hf.legal, hn,
    fun _ => ⟨hin, ?_, ?_, ?_⟩, fun hm => ?_⟩
  · simp [hout]; omega
  · simp [hout]; omega
  · simp [hout]; omega
  · exact absurd (hf.mode.symm.trans hm) (by decide)

/-! ### The decoder keeps the invariant -/

/-- R113, R192: the DEC_HEADER step once the record is read. -/
theorem PassInv.decodeHeader (h : PassInv s) (hp : s.phase = .decHeader) (hl : 14 ≤ s.job.inLen.toNat) (w ht : Word32)
    (c cs : Byte) : PassInv (s.decodeHeader w ht c cs) := by
  obtain ⟨hmode, -, -, hrun, hpix, -, hout⟩ := h.decHeader hp
  have hbusy := statusBusy_of_phase h.status (.inr (.inr (.inr (.inl hp))))
  rcases s.decodeHeader_cases w ht c cs with ⟨e, he, heq⟩ | ⟨-, -, heq⟩ | ⟨hlegal, hroom, heq⟩ <;> rw [heq]
  · exact h.raiseDecHeader he
  · exact passInv_raise (s := s.reportHeader w ht c cs) h.params h.ctrl (by decide)
  have hjob : LegalJob (s.acceptHeader w ht c cs) := ⟨hlegal, rfl⟩
  obtain ⟨-, -, hpos⟩ := legalJob_bounds (s := s.acceptHeader w ht c cs) h.params hjob
  refine ⟨h.params, hbusy, h.ctrl, h.job, ⟨hmode, hjob, hroom, ?_, ⟨Nat.le_refl _, hl⟩, hrun⟩, ⟨rfl, rfl, rfl, rfl⟩, ?_⟩
  · simp [hout, hpix]
  · simpa [hpix] using hpos

/-- What a chunk of `len` bytes and `k` pixels leaves of the facts of a decode pass. -/
theorem DecodeFacts.decoded (hf : DecodeFacts s) {p : Pixel} {k len : Nat} (hd : Decoded s t p k len)
    (hpar : t.params = s.params) (hk : s.pixPos.toNat + k ≤ s.job.n) (hl : s.inPos.toNat + len ≤ s.job.inLen.toNat) :
    DecodeFacts t := by
  obtain ⟨hrun, hjob, -⟩ := hd.kept
  have hin := addr_toNat_add hl
  have hout : t.outPos.toNat = t.pixPos.toNat * s.job.c.toNat := by
    have hle : (s.pixPos.toNat + k) * s.job.c.toNat ≤ s.job.outCap.toNat :=
      (Nat.mul_le_mul_right _ hk).trans hf.fits
    rw [hd.outPos, hd.pixPos, addr_toNat_add (b := s.job.outCap), hf.outPos, Nat.add_mul]
    rwa [hf.outPos, ← Nat.add_mul]
  obtain ⟨h14, -⟩ := hf.inPos
  refine ⟨?_, ?_, ?_, ?_, ?_, hrun.trans hf.run⟩
  · rw [hjob]; exact hf.mode
  · unfold LegalJob; rw [hjob, hpar]; exact hf.legal
  · rw [hjob]; exact hf.fits
  · rw [hjob]; exact hout
  · rw [hjob, hd.inPos, hin]; omega

/-- R193, R195, R197: a chunk applied in DEC_CHUNKS. -/
theorem PassInv.decoded (h : PassInv s) (hp : s.phase = .decChunks) {p : Pixel} {k len : Nat} (hd : Decoded s t p k len)
    (hk : s.pixPos.toNat + k ≤ s.job.n) (hl : s.inPos.toNat + len ≤ s.job.inLen.toNat) : PassInv t := by
  obtain ⟨hf, hcsr, -⟩ := h.decChunks hp
  have hbusy := statusBusy_of_phase h.status (.inr (.inr (.inr (.inr hp))))
  obtain ⟨-, hjob, -, hpar, -⟩ := hd.kept
  have hf' := hf.decoded hd hpar hk hl
  have hparams : t.params.legal := by rw [hpar]; exact h.params
  rcases Nat.lt_or_eq_of_le hk with hlt | heq
  · obtain ⟨hph, hc⟩ := hd.goesOn hlt
    refine ⟨hparams, ?_, ?_, ?_, ?_⟩
    · simp only [StatusFollowsPhase, hph, hc, hbusy]
    · rw [hc]; exact h.ctrl
    · rw [hc, hjob]; exact h.job
    · simp only [PhaseFacts, hph]
      refine ⟨hf', ?_, ?_⟩
      · unfold HeaderCsrs; rw [hc, hjob]; exact hcsr
      · rw [hd.pixPos, hjob]; exact hlt
  · obtain ⟨hph, hc⟩ := hd.ends heq
    have hn : t.pixPos.toNat = t.job.n := by rw [hd.pixPos, hjob]; exact heq
    refine ⟨hparams, ?_, ?_, ?_, ?_⟩
    · simp only [StatusFollowsPhase, hph, hc, statusDone]
    · rw [hc]; exact h.ctrl
    · rw [hc]; exact fun hb => absurd hb statusDone_ne_statusBusy
    · simp only [PhaseFacts, hph]
      refine ⟨by simp [Ended, hc], hf'.legal, hn, fun hm => ?_, fun _ => ⟨?_, hf'.inPos⟩⟩
      · exact absurd (hf'.mode.symm.trans hm) (by decide)
      · rw [hf'.outPos, hn]

theorem PassInv.decodePixel (h : PassInv s) (hp : s.phase = .decChunks) (px : Pixel) {len : Nat}
    (hl : s.inPos.toNat + len ≤ s.job.inLen.toNat) : PassInv (s.decodePixel px len) := by
  have hr := h.chunkReady hp
  obtain ⟨-, hd⟩ := State.decodePixel_spec hr px len
  exact h.decoded hp hd hr.pixels hl

theorem PassInv.decodeRun (h : PassInv s) (hp : s.phase = .decChunks) (n : Nat)
    (hl : s.inPos.toNat + 1 ≤ s.job.inLen.toNat) : PassInv (s.decodeRun n) := by
  have hr := h.chunkReady hp
  obtain ⟨-, -, hd⟩ := State.decodeRun_spec hr n
  have hn := hr.pixels
  exact h.decoded hp hd (by omega) hl

/-! ### Every move keeps the invariant -/

/-- Every move of the engine keeps the invariant. -/
theorem PassInv.engineMove (h : PassInv s) (hm : EngineMove s t) : PassInv t := by
  cases hm with
  | rest => exact h
  | full => exact h
  | encHeader hp => exact h.encodeHeader hp
  | encRunOn hp _ _ hr => exact h.encodeRunOn hp hr
  | encRun hp => exact h.encodeRun hp _
  | encChunk hp _ _ i hi => exact h.encodeChunk hp hi
  | encEnd hp => exact h.encodeEnd hp
  | decHeaderBad _ e he => exact h.raiseDecHeader (by rcases he with rfl | rfl <;> decide)
  | decHeader hp hl => exact h.decodeHeader hp hl _ _ _ _
  | decTrunc _ _ e he => exact h.raise (by rcases he with rfl | rfl <;> decide)
  | decRun hp _ hl => exact h.decodeRun hp _ hl
  | decPixel hp _ px len hl => exact h.decodePixel hp px hl

/-- Outside a pass, a write of the registers a host may write keeps the invariant. -/
theorem PassInv.hostCsrs (h : PassInv s) (hb : s.busy = false) {ctrl : Word32} (hc : ctrl = 0 ∨ ctrl = 2)
    (w ht : Word32) (c cs : Byte) (inLen outCap : Addr) :
    PassInv { s with csr := { s.csr with
      ctrl := ctrl, width := w, height := ht, channels := c, colorspace := cs, inLen := inLen, outCap := outCap } } := by
  have hfacts := h.facts
  have hnb : s.csr.status ≠ statusBusy := fun e => by simp [State.busy_of_statusBusy e] at hb
  refine ⟨h.params, h.status, hc, fun e => absurd e hnb, ?_⟩
  unfold PhaseFacts at hfacts ⊢
  rcases h.status.phase_of_not_busy hb with hp | hp | hp <;> simp only [hp] at hfacts ⊢ <;> exact hfacts

theorem PassInv.writeCsr (h : PassInv s) (reg : BitVec 4) (v : BitVec 64) : PassInv (s.writeCsr reg v) := by
  rcases writeCsr_cases s reg v with e | ⟨hb, m, hm, e⟩ | ⟨hb, m, md, hm, -, -, e⟩ | ⟨hb, w, ht, c, cs, il, oc, e⟩ <;>
    rw [e]
  · exact h
  · exact h.hostCsrs hb hm _ _ _ _ _ _
  · exact State.start_passInv (s := { s with csr := { s.csr with ctrl := m } }) h.params hm md
  · exact h.hostCsrs hb h.ctrl w ht c cs il oc

theorem PassInv.readCsr (h : PassInv s) (reg : BitVec 4) : PassInv (s.readCsr reg) := by
  unfold State.readCsr
  split <;> exact h.congr_sides _ _ _ _ _

/-- Every move of the host that is not refused keeps the invariant. -/
theorem PassInv.hostEffect (h : PassInv s) {m : HostMove} (he : HostEffect s m t) : PassInv t := by
  cases he with
  | engine t hm => exact h.engineMove hm
  | writeCsr reg v => exact h.writeCsr reg v
  | readCsr reg => exact h.readCsr reg
  | reset => exact passInv_of_reset h.params rfl rfl
  | _ => exact h.congr_sides _ _ _ _ _

/-- Settles O48: by the engine's move where no host move waits, else by the host's. -/
theorem stepKeepsPassInv : Obligations.StepKeepsPassInv := by
  intro s t h hs
  rcases step_cases hs with ⟨-, he⟩ | ⟨m, rest, -, hm⟩
  · exact h.engineMove (engineMove_of_next he)
  · have hr : PassInv { s with host := rest } := h.congr_sides _ _ _ _ _
    exact hr.hostEffect (hostEffect_of_next hm)

/-! ### What is written stays written -/

/-- R27, between two states of a pass: `out_pos` has not decreased, and the bytes below it stand unless the pass failed. -/
def OutGrows (s t : State) : Prop :=
  s.outPos.toNat ≤ t.outPos.toNat ∧ (t.phase ≠ .error → ∀ a, a < s.outPos.toNat → t.outBuf.read a = s.outBuf.read a)

/-- A step that touches neither. -/
theorem outGrows_of_eq (hpos : t.outPos = s.outPos) (hbuf : t.outBuf = s.outBuf) : OutGrows s t :=
  ⟨by rw [hpos], fun _ _ _ => by rw [hbuf]⟩

/-- A failing step leaves `out_pos`. -/
theorem outGrows_of_error (hpos : t.outPos = s.outPos) (hp : t.phase = .error) : OutGrows s t :=
  ⟨by rw [hpos], fun hne => absurd hp hne⟩

/-- A commit that fits writes at `out_pos` and moves it past the bytes (R175). -/
theorem outGrows_of_append {sb : List Byte} (hfit : Fits s sb)
    (hpos : t.outPos = s.outPos + BitVec.ofNat 64 sb.length) (hbuf : t.outBuf = s.outBuf.writeBytes s.outPos.toNat sb) :
    OutGrows s t := by
  refine ⟨?_, fun _ a ha => ?_⟩
  · rw [hpos, outPos_toNat_add hfit]; exact Nat.le_add_right _ _
  · rw [hbuf]; exact Memory.read_writeBytes_outside (.inl ha) _

theorem endPixelStep_outGrows (u : State) (px : Pixel) (sb : List Byte) (hu : u.outBuf = s.outBuf) :
    OutGrows s (s.endPixelStep u px sb) := by
  rcases s.endPixelStep_cases u px sb with ⟨-, e⟩ | ⟨hfit, e⟩ <;> rw [e]
  · exact outGrows_of_error rfl rfl
  · exact outGrows_of_append hfit rfl (by rw [hu])

/-- A chunk applied in DEC_CHUNKS writes from `out_pos` on (R195). -/
theorem PassInv.decoded_outGrows (h : PassInv s) (hp : s.phase = .decChunks) {p : Pixel} {k len : Nat}
    (hd : Decoded s t p k len) (hk : s.pixPos.toNat + k ≤ s.job.n) : OutGrows s t := by
  obtain ⟨hf, -, -⟩ := h.decChunks hp
  have hle : (s.pixPos.toNat + k) * s.job.c.toNat ≤ s.job.outCap.toNat :=
    (Nat.mul_le_mul_right _ hk).trans hf.fits
  refine ⟨?_, fun _ a ha => hd.outside a (.inl (hf.outPos ▸ ha))⟩
  rw [hd.outPos, addr_toNat_add (b := s.job.outCap)]
  · exact Nat.le_add_right _ _
  · rwa [hf.outPos, ← Nat.add_mul]

theorem PassInv.outGrows (h : PassInv s) (hm : EngineMove s t) : OutGrows s t := by
  cases hm with
  | rest => exact outGrows_of_eq rfl rfl
  | full => exact outGrows_of_eq rfl rfl
  | encHeader =>
    rcases s.encodeHeader_cases s.job.w s.job.h s.job.c s.job.cs with ⟨e, -, heq⟩ | ⟨-, -, hfit, heq⟩ <;> rw [heq]
    · exact outGrows_of_error rfl rfl
    · exact outGrows_of_append hfit rfl rfl
  | encRunOn => exact endPixelStep_outGrows _ _ _ rfl
  | encRun => exact endPixelStep_outGrows _ _ _ rfl
  | encChunk => exact endPixelStep_outGrows _ _ _ rfl
  | encEnd =>
    rcases s.encodeEnd_cases with ⟨-, e⟩ | ⟨hfit, e⟩ <;> rw [e]
    · exact outGrows_of_error rfl rfl
    · exact outGrows_of_append hfit rfl rfl
  | decHeaderBad => exact outGrows_of_error rfl rfl
  | decHeader _ _ w ht c cs =>
    rcases s.decodeHeader_cases w ht c cs with ⟨e, -, heq⟩ | ⟨-, -, heq⟩ | ⟨-, -, heq⟩ <;> rw [heq]
    · exact outGrows_of_error rfl rfl
    · exact outGrows_of_error rfl rfl
    · exact outGrows_of_eq rfl rfl
  | decTrunc => exact outGrows_of_error rfl rfl
  | decRun hp hn _ len1 =>
    obtain ⟨-, -, hd⟩ := State.decodeRun_spec (h.chunkReady hp) (len1.toNat + 1)
    exact h.decoded_outGrows hp hd (by omega)
  | decPixel hp hn px len =>
    obtain ⟨-, hd⟩ := State.decodePixel_spec (h.chunkReady hp) px len
    exact h.decoded_outGrows hp hd hn

/-- Settles O45, by the engine's moves. -/
theorem outPosNeverDecreases : Obligations.OutPosNeverDecreases :=
  fun _ _ h he => h.outGrows (engineMove_of_next he)

end Sys2Proof.Safety

namespace Sys2Proof.Machine

open Sys2Proof.Safety

/-! ### What a step can answer -/

/-- A buffer access has its effect, or is refused in a pass. -/
theorem bufferAccess_cases (s t : State) :
    s.bufferAccess t = .next t ∨ s.busy = true ∧ s.bufferAccess t = .refused .hostDutyBroken := by
  cases hb : s.busy
  · exact .inl (bufferAccess_idle hb t)
  · exact .inr ⟨rfl, bufferAccess_busy hb t⟩

/-- The host's move reads or writes a byte of IN or OUT (R69, R73, R75). -/
def TouchesBuffer (m : HostMove) : Prop :=
  ∃ a v, m = .writeIn a v ∨ m = .readIn a ∨ m = .writeOut a v ∨ m = .readOut a

/-- A move of the host answers a next state, or it is a buffer access. -/
theorem hostStep_cases (m : HostMove) (s : State) :
    (∃ t, hostStep m s = .next t) ∨ (TouchesBuffer m ∧ ∃ t, hostStep m s = s.bufferAccess t) := by
  cases m with
  | wait =>
    obtain ⟨t, ht, -⟩ := engineStep_cases s
    exact .inl ⟨t, ht⟩
  | writeCsr reg v => exact .inl ⟨_, rfl⟩
  | readCsr reg => exact .inl ⟨_, rfl⟩
  | assertReset => exact .inl ⟨_, rfl⟩
  | writeIn a v => exact .inr ⟨⟨a, v, .inl rfl⟩, _, rfl⟩
  | readIn a => exact .inr ⟨⟨a, 0, .inr (.inl rfl)⟩, _, rfl⟩
  | writeOut a v => exact .inr ⟨⟨a, v, .inr (.inr (.inl rfl))⟩, _, rfl⟩
  | readOut a => exact .inr ⟨⟨a, 0, .inr (.inr (.inr rfl))⟩, _, rfl⟩

/-- A step answers a next state, or it is a buffer access of the host refused in a pass. -/
theorem step_outcome (s : State) :
    (∃ t, step s = .next t) ∨
    ∃ m rest, s.host = m :: rest ∧ TouchesBuffer m ∧ s.busy = true ∧ step s = .refused .hostDutyBroken := by
  cases hh : s.host with
  | nil =>
    obtain ⟨t, ht, -⟩ := engineStep_cases s
    exact .inl ⟨t, (step_engine hh).trans ht⟩
  | cons m rest =>
    rcases hostStep_cases m { s with host := rest } with ⟨t, ht⟩ | ⟨hm, t, ht⟩
    · exact .inl ⟨t, (step_host hh).trans ht⟩
    · have hs := (step_host hh).trans ht
      rcases bufferAccess_cases { s with host := rest } t with ha | ⟨hb, ha⟩
      · exact .inl ⟨t, hs.trans ha⟩
      · exact .inr ⟨m, rest, rfl, hm, hb, hs.trans ha⟩

/-- Settles O36, by the two things a step can answer. -/
theorem stepStopsOnlyOnBrokenDuty : Obligations.StepStopsOnlyOnBrokenDuty := by
  intro s
  rcases step_outcome s with ⟨t, ht⟩ | ⟨m, rest, hh, ⟨a, v, hm⟩, hb, hr⟩
  · simp [ht]
  · rw [hr, hh]
    refine ⟨nofun, fun r h => ?_⟩
    cases h
    exact ⟨rfl, hb, a, v, rest, by simpa using hm⟩

/-! ### The host's access to the buffers -/

/-- Settles O10: each access by its effect outside a pass and by its refusal in one. -/
theorem hostBufferAccess : Obligations.HostBufferAccess := by
  intro s rest a v
  refine ⟨fun hb => ?_, fun hb => ?_⟩
  · have idle := fun t => bufferAccess_idle (s := { s with host := rest }) hb t
    refine ⟨fun hh => (step_host hh).trans (idle _), fun hh => ?_, fun hh => ?_, fun hh => (step_host hh).trans (idle _)⟩
    · exact ⟨_, (step_host hh).trans (idle _), Memory.read_write_same _ _ _,
        fun b hne => Memory.read_write_other hne _ _, rfl⟩
    · exact ⟨_, (step_host hh).trans (idle _), Memory.read_write_same _ _ _,
        fun b hne => Memory.read_write_other hne _ _, rfl⟩
  · have busy := fun t => bufferAccess_busy (s := { s with host := rest }) hb t
    exact ⟨fun hh => (step_host hh).trans (busy _), fun hh => (step_host hh).trans (busy _),
      fun hh => (step_host hh).trans (busy _), fun hh => (step_host hh).trans (busy _)⟩

/-- Settles O23: the bytes read at `pix_pos` × C, for 3 and for 4 channels. -/
theorem encoderReadsPixel : Obligations.EncoderReadsPixel := by
  refine fun s => ⟨readPixel_alpha, ?_⟩
  rintro (hc | hc)
  · simp [PixelAt, State.readPixel, pixelOfBytes, hc, Memory.readBytes]
  · simp [PixelAt, State.readPixel, pixelOfBytes, hc, Memory.readBytes]

/-! ### What the host's moves do to the buffers -/

/-- R30: a CSR write, a START among them, touches neither buffer. -/
theorem State.writeCsr_buffers (s : State) (reg : BitVec 4) (v : BitVec 64) :
    (s.writeCsr reg v).inBuf = s.inBuf ∧ (s.writeCsr reg v).outBuf = s.outBuf := by
  rcases writeCsr_cases s reg v with e | ⟨-, m, -, e⟩ | ⟨-, m, md, -, -, -, e⟩ | ⟨-, w, h, c, cs, il, oc, e⟩ <;> rw [e]
  · exact ⟨rfl, rfl⟩
  · exact ⟨rfl, rfl⟩
  · cases md <;> exact ⟨rfl, rfl⟩
  · exact ⟨rfl, rfl⟩

/-- R46: a CSR read touches neither buffer. -/
theorem State.readCsr_buffers (s : State) (reg : BitVec 4) :
    (s.readCsr reg).inBuf = s.inBuf ∧ (s.readCsr reg).outBuf = s.outBuf := by
  unfold State.readCsr
  split <;> exact ⟨rfl, rfl⟩

/-- R60: no move of the host but a write of IN changes IN. -/
theorem HostEffect.inBuf_cases {s t : State} {m : HostMove} (h : HostEffect s m t) :
    t.inBuf = s.inBuf ∨ ∃ a v, m = .writeIn a v ∧ t.inBuf = s.inBuf.write a.toNat v := by
  cases h with
  | engine t hm => exact .inl hm.kept.1
  | writeCsr reg v => exact .inl (s.writeCsr_buffers reg v).1
  | readCsr reg => exact .inl (s.readCsr_buffers reg).1
  | writeIn a v => exact .inr ⟨a, v, rfl, rfl⟩
  | readIn => exact .inl rfl
  | writeOut => exact .inl rfl
  | readOut => exact .inl rfl
  | reset => exact .inl rfl

/-- R60: a step leaves IN, or it is a write of IN by the host. -/
theorem step_inBuf_cases {s t : State} (h : step s = .next t) :
    t.inBuf = s.inBuf ∨ ∃ a v rest, s.host = .writeIn a v :: rest ∧ t.inBuf = s.inBuf.write a.toNat v := by
  rcases step_cases h with ⟨-, he⟩ | ⟨m, rest, hh, hm⟩
  · exact .inl (engineMove_of_next he).kept.1
  · rcases (hostEffect_of_next hm).inBuf_cases with e | ⟨a, v, rfl, e⟩
    · exact .inl e
    · exact .inr ⟨a, v, rest, hh, e⟩

/-- Settles O40, by what a step does to IN. -/
theorem onlyHostWritesIn : Obligations.OnlyHostWritesIn := by
  intro s t h
  rcases step_inBuf_cases h with e | ⟨a, v, rest, hh, -⟩
  · exact .inl e
  · exact .inr ⟨a, v, rest, hh⟩

/-! ### What an engine move does to OUT -/

/-- Everything an engine move can leave in OUT. -/
inductive OutEffect (s : State) : Memory → Prop
  /-- R113, R225, R235. -/
  | kept : OutEffect s s.outBuf
  /-- R78, R222: an error. -/
  | forgotten : OutEffect s (s.outBuf.forget s.job.outCap.toNat s.draws)
  /-- R175: bytes committed at `out_pos`. -/
  | appended (sb : List Byte) (hfit : Fits s sb) : OutEffect s (s.outBuf.writeBytes s.outPos.toNat sb)
  /-- R143, R195: the pixels of a chunk. -/
  | pixels (hp : s.phase = .decChunks) (p : Pixel) (k : Nat) (hk : s.pixPos.toNat + k ≤ s.job.n) :
      OutEffect s (s.writePixels p k).outBuf

theorem State.endPixelStep_outEffect {s : State} (u : State) (px : Pixel) (sb : List Byte) (hu : u.outBuf = s.outBuf) :
    OutEffect s (s.endPixelStep u px sb).outBuf := by
  rcases s.endPixelStep_cases u px sb with ⟨-, e⟩ | ⟨hfit, e⟩ <;> rw [e]
  · exact .forgotten
  · simpa only [hu] using OutEffect.appended sb hfit

theorem State.decodePixel_outBuf (s : State) (px : Pixel) (len : Nat) :
    (s.decodePixel px len).outBuf = (s.writePixels px 1).outBuf := by
  obtain ⟨-, -, -, -, -, -, -, -, hout, -⟩ :=
    State.completeIfFull_kept { (s.nonRunUpdate px).writePixel px with inPos := s.inPos + BitVec.ofNat 64 len }
  exact hout

theorem State.decodeRun_outBuf (s : State) (n : Nat) :
    (s.decodeRun n).outBuf = (s.writePixels s.prev (min n (s.job.n - s.pixPos.toNat))).outBuf := by
  obtain ⟨-, -, -, -, -, -, -, -, hout, -⟩ := State.completeIfFull_kept
    { s.writePixels s.prev (min n (s.job.n - s.pixPos.toNat)) with inPos := s.inPos + 1 }
  exact hout

/-- Each move of the engine leaves one of these in OUT. -/
theorem EngineMove.outEffect {s t : State} (h : EngineMove s t) : OutEffect s t.outBuf := by
  cases h with
  | rest => exact .kept
  | full => exact .kept
  | encHeader =>
    rcases s.encodeHeader_cases s.job.w s.job.h s.job.c s.job.cs with ⟨e, -, he⟩ | ⟨-, -, hfit, he⟩ <;> rw [he]
    · exact .forgotten
    · exact .appended _ hfit
  | encRunOn => exact State.endPixelStep_outEffect _ _ _ rfl
  | encRun => exact State.endPixelStep_outEffect _ _ _ rfl
  | encChunk => exact State.endPixelStep_outEffect _ _ _ rfl
  | encEnd =>
    rcases s.encodeEnd_cases with ⟨-, he⟩ | ⟨hfit, he⟩ <;> rw [he]
    · exact .forgotten
    · exact .appended _ hfit
  | decHeaderBad => exact .forgotten
  | decHeader _ _ w ht c cs =>
    rcases s.decodeHeader_cases w ht c cs with ⟨e, -, he⟩ | ⟨-, -, he⟩ | ⟨-, -, he⟩ <;> rw [he]
    · exact .forgotten
    · exact .forgotten
    · exact .kept
  | decTrunc => exact .forgotten
  | decRun hp hn _ len1 =>
    rw [State.decodeRun_outBuf]
    exact .pixels hp _ _ (by omega)
  | decPixel hp hn px len =>
    rw [State.decodePixel_outBuf]
    exact .pixels hp px 1 hn

/-- R68: bytes of OUT at and beyond OUT_CAP stand. -/
theorem OutEffect.read_beyond_cap {s : State} {m : Memory} (h : PassInv s) (he : OutEffect s m) {a : Nat}
    (ha : s.job.outCap.toNat ≤ a) : m.read a = s.outBuf.read a := by
  cases he with
  | kept => rfl
  | forgotten => exact Memory.read_forget_outside ha _ _
  | appended sb hfit => exact Memory.read_writeBytes_outside (.inr (Nat.le_trans hfit ha)) _
  | pixels hp p k hk =>
    obtain ⟨hf, -, -⟩ := h.decChunks hp
    have hr := h.chunkReady hp
    obtain ⟨-, hout⟩ := State.writePixels_outBuf (p := p) hr.channels (Nat.le_trans hk hr.count)
    have hend : (s.pixPos.toNat + k) * s.job.c.toNat ≤ s.job.outCap.toNat := (Nat.mul_le_mul_right _ hk).trans hf.fits
    exact hout a (.inr (Nat.le_trans hend ha))

/-- Settles O44, by what an engine move leaves in OUT. -/
theorem engineWritesBelowCap : Obligations.EngineWritesBelowCap :=
  fun _ _ h he _ ha => (engineMove_of_next he).outEffect.read_beyond_cap h ha

/-! ### The canonical form of the buffers -/

theorem OutEffect.wf {s : State} {m : Memory} (he : OutEffect s m) (h : s.outBuf.wf = true) : m.wf = true := by
  cases he with
  | kept => exact h
  | forgotten => exact Memory.wf_forget h _ _
  | appended sb => exact Memory.wf_writeBytes h _ _
  | pixels => exact State.writePixels_wf h

theorem HostEffect.outBuf_wf {s t : State} {m : HostMove} (he : HostEffect s m t) (h : s.outBuf.wf = true) :
    t.outBuf.wf = true := by
  cases he with
  | engine t hm => exact hm.outEffect.wf h
  | writeCsr reg v => rw [(s.writeCsr_buffers reg v).2]; exact h
  | readCsr reg => rw [(s.readCsr_buffers reg).2]; exact h
  | writeIn => exact h
  | readIn => exact h
  | writeOut a v => exact Memory.wf_write h _ _
  | readOut => exact h
  | reset =>
    unfold State.hostReset
    split
    · exact Memory.wf_forget h _ _
    · exact h

theorem step_outBuf_wf {s t : State} (hs : step s = .next t) (h : s.outBuf.wf = true) : t.outBuf.wf = true := by
  rcases step_cases hs with ⟨-, he⟩ | ⟨m, rest, -, hm⟩
  · exact (engineMove_of_next he).outEffect.wf h
  · exact (hostEffect_of_next hm).outBuf_wf h

/-- Settles O46: IN by what a step does to it, OUT by the engine's and the host's effects on it. -/
theorem stepKeepsBuffersCanonical : Obligations.StepKeepsBuffersCanonical := by
  rintro s t ⟨hin, hout, hholes⟩ hs
  have hout' := step_outBuf_wf hs hout
  rcases step_inBuf_cases hs with e | ⟨a, v, rest, -, e⟩
  · exact ⟨by rw [e]; exact hin, hout', by rw [e]; exact hholes⟩
  · exact ⟨by rw [e]; exact Memory.wf_write hin _ _, hout', by rw [e, Memory.write_holes]; exact hholes⟩

/-! ### The engine reads IN below IN_LEN -/

/-- R37, R172: the encoder's pixel lies below IN_LEN. -/
theorem readPixel_congr {s s' : State} (h : PassInv s) (hp : s.phase = .encPixels) (hjob : s'.job = s.job)
    (hpix : s'.pixPos = s.pixPos) (hm : ∀ a, a < s.job.inLen.toNat → s'.inBuf.read a = s.inBuf.read a) :
    s'.readPixel = s.readPixel := by
  obtain ⟨hf, -, hn⟩ := h.encPixels hp
  have hend : s.pixPos.toNat * s.job.c.toNat + s.job.c.toNat ≤ s.job.inLen.toNat := by
    rw [hf.inLen, ← Nat.succ_mul]
    exact Nat.mul_le_mul_right _ hn
  rw [State.readPixel, hjob, hpix, Memory.readBytes_congr fun b _ hb => hm b (Nat.lt_of_lt_of_le hb hend),
    State.readPixel]

/-- Where an engine step would fetch the same from other bytes of IN, it does the same to everything else. -/
theorem engineStep_inBuf {s : State} {m : Memory}
    (hr : s.phase = .encPixels → State.readPixel { s with inBuf := m } = s.readPixel)
    (hh : s.phase = .decHeader → State.fetchHeader { s with inBuf := m } = s.fetchHeader)
    (hc : s.phase = .decChunks → State.fetchChunk { s with inBuf := m } = s.fetchChunk) :
    ∃ t, engineStep s = .next t ∧ engineStep { s with inBuf := m } = .next { t with inBuf := m } := by
  obtain ⟨t, ht, hm⟩ :=
    engineStep_outside s { s.surroundings with inBuf := m } hr (fun _ => rfl) hh (fun hp _ => hc hp)
  have ho : t.outside { s.surroundings with inBuf := m } = { t with inBuf := m } := by
    rw [← engineStep_surroundings ht]
    rfl
  exact ⟨t, ht, hm.trans (congrArg _ ho)⟩

/-- Settles O42: each fetch of the engine reads below IN_LEN, and the step is the same where the fetch is. -/
theorem engineReadsBelowInLen : Obligations.EngineReadsBelowInLen := by
  intro s m h hm
  refine engineStep_inBuf (fun hp => ?_) (fun _ => ?_) (fun _ => ?_)
  · exact readPixel_congr h hp rfl rfl hm
  · exact fetchHeader_congr Iff.rfl fun h14 a ha => hm a (Nat.lt_of_lt_of_le ha h14)
  · exact fetchChunk_congr rfl rfl (fun hlt => hm _ hlt) fun hle a _ ha => hm a (Nat.lt_of_lt_of_le ha hle)

/-! ### The engine never reads OUT -/

/-- The state with other bytes in OUT. -/
def State.withOut (s : State) (m : Memory) : State := { s with outBuf := m }

@[simp] theorem State.withOut_phase (s : State) (m : Memory) : (s.withOut m).phase = s.phase := rfl
@[simp] theorem State.withOut_job (s : State) (m : Memory) : (s.withOut m).job = s.job := rfl
@[simp] theorem State.withOut_params (s : State) (m : Memory) : (s.withOut m).params = s.params := rfl
@[simp] theorem State.withOut_pixPos (s : State) (m : Memory) : (s.withOut m).pixPos = s.pixPos := rfl
@[simp] theorem State.withOut_outPos (s : State) (m : Memory) : (s.withOut m).outPos = s.outPos := rfl
@[simp] theorem State.withOut_nextChunk (s : State) (m : Memory) : (s.withOut m).nextChunk = s.nextChunk := rfl
@[simp] theorem State.withOut_fetchHeader (s : State) (m : Memory) : (s.withOut m).fetchHeader = s.fetchHeader := rfl
@[simp] theorem State.withOut_fetchChunk (s : State) (m : Memory) : (s.withOut m).fetchChunk = s.fetchChunk := rfl

/-- The second state is the first but for OUT. -/
def SameButOut (t t' : State) : Prop := ∃ m, t' = t.withOut m

theorem sameButOut_withOut (t : State) (m : Memory) : SameButOut t (t.withOut m) := ⟨m, rfl⟩

theorem State.commit_withOut {s t t' : State} (ht : SameButOut t t') (m : Memory) (sb : List Byte) :
    SameButOut (s.commit t sb) ((s.withOut m).commit t' sb) := by
  obtain ⟨mt, rfl⟩ := ht
  rcases s.commit_cases t sb with ⟨ho, e⟩ | ⟨hf, e⟩ <;> rw [e]
  · exact ⟨_, State.commit_overflow (s := s.withOut m) ho _⟩
  · exact ⟨_, State.commit_fits (s := s.withOut m) hf _⟩

theorem State.endPixelStep_withOut {s t : State} (m : Memory) (px : Pixel) (sb : List Byte) :
    SameButOut (s.endPixelStep t px sb) ((s.withOut m).endPixelStep (t.withOut m) px sb) :=
  State.commit_withOut (sameButOut_withOut _ m) m sb

theorem State.completeIfFull_withOut (s : State) (m : Memory) :
    (s.withOut m).completeIfFull = s.completeIfFull.withOut m :=
  (apply_ite (fun u : State => u.withOut m) _ s.complete s).symm

theorem State.writePixels_withOut (s : State) (m : Memory) (p : Pixel) (k : Nat) :
    SameButOut (s.writePixels p k) ((s.withOut m).writePixels p k) := by
  induction k generalizing s m with
  | zero => exact ⟨m, rfl⟩
  | succ k ih => exact ih (s.writePixel p) _

theorem State.decodePixel_withOut (s : State) (m : Memory) (px : Pixel) (len : Nat) :
    SameButOut (s.decodePixel px len) ((s.withOut m).decodePixel px len) :=
  ⟨_, State.completeIfFull_withOut
    { (s.nonRunUpdate px).writePixel px with inPos := s.inPos + BitVec.ofNat 64 len } _⟩

theorem State.decodeRun_withOut (s : State) (m : Memory) (n : Nat) :
    SameButOut (s.decodeRun n) ((s.withOut m).decodeRun n) := by
  obtain ⟨m', e⟩ := s.writePixels_withOut m s.prev (min n (s.job.n - s.pixPos.toNat))
  refine ⟨m', Eq.trans ?_ (State.completeIfFull_withOut
    { s.writePixels s.prev (min n (s.job.n - s.pixPos.toNat)) with inPos := s.inPos + 1 } m')⟩
  exact congrArg (fun u : State => { u with inPos := s.inPos + 1 }.completeIfFull) e

theorem State.encodeHeader_withOut (s : State) (m : Memory) (w h : Word32) (c cs : Byte) :
    SameButOut (s.encodeHeader w h c cs) ((s.withOut m).encodeHeader w h c cs) := by
  unfold State.encodeHeader
  rw [State.withOut_params, State.withOut_job]
  cases jobError s.params s.job with
  | some e => exact ⟨_, rfl⟩
  | none => exact State.commit_withOut (sameButOut_withOut _ m) m _

theorem State.decodeHeader_withOut (s : State) (m : Memory) (w h : Word32) (c cs : Byte) :
    SameButOut (s.decodeHeader w h c cs) ((s.withOut m).decodeHeader w h c cs) := by
  unfold State.decodeHeader
  rw [State.withOut_params, State.withOut_job]
  cases fieldError s.params w h c cs with
  | some e => exact ⟨_, rfl⟩
  | none => dsimp only; split <;> exact ⟨_, rfl⟩

theorem State.encodeEnd_withOut (s : State) (m : Memory) : SameButOut s.encodeEnd (s.withOut m).encodeEnd := by
  obtain ⟨m', e⟩ := State.commit_withOut (s := s) (sameButOut_withOut _ m) m (encode .endMarker)
  unfold State.encodeEnd
  rw [e, State.withOut_outPos, State.withOut_job]
  split <;> exact ⟨_, rfl⟩

/-- A chunk's meaning, where its two directions do not read OUT. -/
theorem runChunk_withOut {i : Instr} {a e a' e' s t : State} {m : Memory} (ha : SameButOut a a') (he : SameButOut e e')
    (h : runChunk i a e s = .next t) : ∃ t', runChunk i a' e' (s.withOut m) = .next t' ∧ SameButOut t t' := by
  unfold runChunk at h ⊢
  rw [State.withOut_phase, State.withOut_pixPos, State.withOut_job, State.withOut_nextChunk]
  cases hp : s.phase <;> simp only [hp, reduceCtorEq] at h ⊢
  case decChunks => cases h; exact ⟨_, rfl, ha⟩
  case encPixels =>
    split at h
    · next hg => cases h; exact ⟨_, if_pos hg, he⟩
    · cases h
  all_goals cases h; exact ⟨_, rfl, sameButOut_withOut _ m⟩

/-- An instruction's meaning never reads OUT. -/
theorem exec_withOut {i : Instr} {s t : State} (m : Memory) (h : exec i s = .next t) :
    ∃ t', exec i (s.withOut m) = .next t' ∧ SameButOut t t' := by
  cases i with
  | opRun l => exact runChunk_withOut (s.decodeRun_withOut m _) (State.endPixelStep_withOut m _ _) h
  | header w ht c cs =>
    simp only [exec, execHeader, State.withOut_phase, State.withOut_job] at h ⊢
    cases hp : s.phase <;> simp only [hp, reduceCtorEq] at h ⊢
    case decHeader => cases h; exact ⟨_, rfl, s.decodeHeader_withOut m w ht c cs⟩
    case encHeader =>
      split at h
      · next hg => cases h; exact ⟨_, if_pos hg, s.encodeHeader_withOut m w ht c cs⟩
      · cases h
    all_goals cases h; exact ⟨_, rfl, sameButOut_withOut _ m⟩
  | endMarker =>
    simp only [exec, execEndMarker, State.withOut_phase] at h ⊢
    cases hp : s.phase <;> simp only [hp, reduceCtorEq] at h ⊢
    case encTrailer => cases h; exact ⟨_, rfl, s.encodeEnd_withOut m⟩
    all_goals cases h; exact ⟨_, rfl, sameButOut_withOut _ m⟩
  | _ => exact runChunk_withOut (s.decodePixel_withOut m _ _) (State.endPixelStep_withOut m _ _) h

/-- An engine step never reads OUT. -/
theorem engineStep_withOut {s t : State} (m : Memory) (h : engineStep s = .next t) :
    ∃ t', engineStep (s.withOut m) = .next t' ∧ SameButOut t t' := by
  unfold engineStep at h ⊢
  rw [State.withOut_phase, State.withOut_pixPos, State.withOut_job, State.withOut_nextChunk, State.withOut_fetchHeader,
    State.withOut_fetchChunk]
  cases hp : s.phase <;> simp only [hp] at h ⊢
  case encHeader => exact exec_withOut m h
  case encTrailer => exact exec_withOut m h
  case encPixels =>
    by_cases hn : s.pixPos.toNat < s.job.n
    · rw [if_pos hn] at h ⊢
      cases hi : s.nextChunk <;> simp only [hi] at h ⊢
      case some i => exact exec_withOut m h
      case none => cases h; exact ⟨_, rfl, State.endPixelStep_withOut m _ _⟩
    · rw [if_neg hn] at h ⊢
      cases h; exact ⟨_, rfl, sameButOut_withOut _ m⟩
  case decHeader =>
    cases hf : s.fetchHeader <;> simp only [hf] at h ⊢
    case ok i => exact exec_withOut m h
    case error e => cases h; exact ⟨_, rfl, _, rfl⟩
  case decChunks =>
    by_cases hn : s.pixPos.toNat < s.job.n
    · rw [if_pos hn] at h ⊢
      cases hf : s.fetchChunk <;> simp only [hf] at h ⊢
      case ok i => exact exec_withOut m h
      case error e => cases h; exact ⟨_, rfl, _, rfl⟩
    · rw [if_neg hn] at h ⊢
      cases h; exact ⟨_, rfl, sameButOut_withOut _ m⟩
  all_goals cases h; exact ⟨_, rfl, sameButOut_withOut _ m⟩

/-- Settles O41: with other bytes in OUT the step ends in the same state but for OUT. -/
theorem engineNeverReadsOut : Obligations.EngineNeverReadsOut := by
  intro s m
  obtain ⟨t, ht, -⟩ := engineStep_cases s
  obtain ⟨t', ht', m', rfl⟩ := engineStep_withOut m ht
  exact ⟨t, _, ht, ht', rfl⟩

end Sys2Proof.Machine

namespace Sys2Proof

/-! ### Reading back what is encoded (R82 to R87, R93, R94) -/

/-- R82 to R87: a legal chunk is read back from its bytes, whatever follows them. -/
theorem decodeChunk_encode {p : Config.Params} {i : Instr} (hs : i.slot = .chunk) (hw : i.wellFormed p = true)
    (rest : List Byte) : decodeChunk (encode i ++ rest) = .ok (i, rest) := by
  cases i with
  | opIndex x =>
    obtain ⟨ht, hx, h1, h2⟩ := tag_index x
    exact (decodeChunk_index h1 h2 ht rest).trans (by rw [hx])
  | opDiff x y z =>
    obtain ⟨ht, hx, hy, hz, h1, h2⟩ := tag_diff x y z
    exact (decodeChunk_diff h1 h2 ht rest).trans (by rw [hx, hy, hz])
  | opLuma x y z =>
    obtain ⟨ht, hx, h1, h2⟩ := tag_luma x
    obtain ⟨hy, hz⟩ := nibbles y z
    exact (decodeChunk_luma h1 h2 ht (y ++ z) rest).trans (by rw [hx, hy, hz])
  | opRun x =>
    obtain ⟨ht, hx, h1, h2⟩ := tag_run x (of_decide_eq_true hw)
    exact (decodeChunk_run h1 h2 ht rest).trans (by rw [hx])
  | opRgb r g b => exact decodeChunk_rgb r g b rest
  | opRgba r g b a => exact decodeChunk_rgba r g b a rest
  | header w h c cs => cases hs
  | endMarker => cases hs

/-- R93: a header is read back from its bytes, its fields legal or not. -/
theorem decodeHeader_encode (w h : Word32) (c cs : Byte) (rest : List Byte) :
    decodeHeader (encode (.header w h c cs) ++ rest) = .ok (.header w h c cs, rest) := by
  conv_rhs => rw [← be32_bytes w, ← be32_bytes h]
  rfl

/-- R94: the end marker is read back from its bytes. -/
theorem decodeEnd_encode (rest : List Byte) : decodeEnd (encode .endMarker ++ rest) = .ok (.endMarker, rest) := rfl

/-- Settles O1, slot by slot. -/
theorem decodeInvertsEncode : Obligations.DecodeInvertsEncode := by
  intro p i rest hw
  cases i with
  | header w h c cs => exact decodeHeader_encode w h c cs rest
  | endMarker => exact decodeEnd_encode rest
  | _ => exact decodeChunk_encode rfl hw rest

/-! ### Bytes that decode are the bytes of what they decode to (R80, R90) -/

/-- A byte is its tag with its 6-bit field. -/
theorem tag_append_field {b : Byte} {t : BitVec 2} (h : b.extractLsb' 6 2 = t) :
    (t ++ b.extractLsb' 0 6 : Byte) = b := h ▸ join_tag6 b

/-- R88, R91: a byte of the run form holds a legal run length. -/
theorem legalRun_of_tag : ∀ b : Byte, b ≠ 0xFE → b ≠ 0xFF → b.extractLsb' 6 2 = 0b11 →
    legalRun (b.extractLsb' 0 6) = true := by decide

/-- The four bytes of a field are those it was put together from. -/
theorem bytesBe32_be32 (b0 b1 b2 b3 : Byte) : bytesBe32 (be32 b0 b1 b2 b3) = [b0, b1, b2, b3] := by
  have high (start : Nat) {w : Nat} (x : BitVec w) (y : Byte) :
      (x ++ y).extractLsb' (start + 8) 8 = x.extractLsb' start 8 :=
    BitVec.extractLsb'_append_eq_of_le (Nat.le_add_left 8 start)
  unfold bytesBe32 be32
  rw [high 16, high 8, high 0, high 8, high 0, high 0, BitVec.extractLsb'_append_eq_right,
    BitVec.extractLsb'_append_eq_right, BitVec.extractLsb'_append_eq_right, BitVec.extractLsb'_eq_self]

/-- R86: the bytes after the tag of an OP_RGB that decodes. -/
theorem decodeRgb_ok {bs rest : List Byte} {i : Instr} (h : decodeRgb bs = .ok (i, rest)) :
    ∃ r g b, i = .opRgb r g b ∧ bs = r :: g :: b :: rest := by
  unfold decodeRgb at h
  split at h <;> cases h
  exact ⟨_, _, _, rfl, rfl⟩

/-- R87: the bytes after the tag of an OP_RGBA that decodes. -/
theorem decodeRgba_ok {bs rest : List Byte} {i : Instr} (h : decodeRgba bs = .ok (i, rest)) :
    ∃ r g b a, i = .opRgba r g b a ∧ bs = r :: g :: b :: a :: rest := by
  unfold decodeRgba at h
  split at h <;> cases h
  exact ⟨_, _, _, _, rfl, rfl⟩

/-- R84: the second byte of an OP_LUMA that decodes. -/
theorem decodeLuma_ok {b0 : Byte} {bs rest : List Byte} {i : Instr} (h : decodeLuma b0 bs = .ok (i, rest)) :
    ∃ b1 : Byte, i = .opLuma (b0.extractLsb' 0 6) (b1.extractLsb' 4 4) (b1.extractLsb' 0 4) ∧ bs = b1 :: rest := by
  unfold decodeLuma at h
  split at h <;> cases h
  exact ⟨_, rfl, rfl⟩

/-- R90: what decodes in a chunk slot is a legal chunk, and the bytes are its bytes. -/
theorem eq_encode_of_decodeChunk {bs rest : List Byte} {i : Instr} (h : decodeChunk bs = .ok (i, rest)) :
    bs = encode i ++ rest ∧ i.slot = .chunk ∧ ∀ p, i.wellFormed p = true := by
  cases bs with
  | nil => cases h
  | cons b0 more =>
    rw [decodeChunk, decodeForm] at h
    split_ifs at h with h1 h2 h3 h4 h5
    · obtain ⟨r, g, b, rfl, rfl⟩ := decodeRgb_ok h
      exact ⟨by rw [h1]; rfl, rfl, fun _ => rfl⟩
    · obtain ⟨r, g, b, a, rfl, rfl⟩ := decodeRgba_ok h
      exact ⟨by rw [h2]; rfl, rfl, fun _ => rfl⟩
    · cases h
      exact ⟨congrArg (· :: rest) (tag_append_field h3).symm, rfl, fun _ => rfl⟩
    · cases h
      refine ⟨congrArg (· :: rest) ?_, rfl, fun _ => rfl⟩
      exact (join_diff b0).symm.trans (by rw [h4]; rfl)
    · obtain ⟨b1, rfl, rfl⟩ := decodeLuma_ok h
      refine ⟨?_, rfl, fun _ => rfl⟩
      exact congrArg₂ (· :: · :: rest) (tag_append_field h5).symm (join_nibbles b1).symm
    · cases h
      have ht := (((tag_cases (b0.extractLsb' 6 2)).resolve_left h3).resolve_left h4).resolve_left h5
      exact ⟨congrArg (· :: rest) (tag_append_field ht).symm, rfl, fun _ => legalRun_of_tag b0 h1 h2 ht⟩

/-- R93: what decodes in a header slot is a header, and the bytes are its bytes. -/
theorem eq_encode_of_decodeHeader {bs rest : List Byte} {i : Instr} (h : decodeHeader bs = .ok (i, rest)) :
    bs = encode i ++ rest ∧ i.slot = .header := by
  unfold decodeHeader at h
  split at h
  · split_ifs at h with hm
    cases h
    refine ⟨?_, rfl⟩
    rw [encode, ← hm, bytesBe32_be32, bytesBe32_be32]
    rfl
  · cases h

/-- R94: what decodes in a trailer slot is the end marker, and the bytes are its bytes. -/
theorem eq_encode_of_decodeEnd {bs rest : List Byte} {i : Instr} (h : decodeEnd bs = .ok (i, rest)) :
    bs = encode i ++ rest ∧ i.slot = .trailer := by
  unfold decodeEnd at h
  split_ifs at h with hl he
  cases h
  exact ⟨by rw [encode, ← he, List.take_append_drop], rfl⟩

/-- Settles O2, slot by slot. -/
theorem encodeInvertsDecode : Obligations.EncodeInvertsDecode := by
  intro sl bs rest i h
  cases sl with
  | header => exact eq_encode_of_decodeHeader h
  | chunk =>
    obtain ⟨hbs, hs, -⟩ := eq_encode_of_decodeChunk h
    exact ⟨hbs, hs⟩
  | trailer => exact eq_encode_of_decodeEnd h

/-! ### The first byte of a chunk (R90) -/

/-- The bytes of one tag are 64 in a row. -/
theorem toNat_range_of_tag {b : Byte} {t : BitVec 2} (h : b.extractLsb' 6 2 = t) :
    64 * t.toNat ≤ b.toNat ∧ b.toNat ≤ 64 * t.toNat + 63 := by
  have hlt := b.isLt
  rw [← h, BitVec.extractLsb'_toNat, Nat.shiftRight_eq_div_pow]
  omega

/-- R85, R91: the bytes of the legal run lengths. -/
theorem toNat_range_of_run : ∀ x : BitVec 6, x.toNat ≤ 61 →
    0xC0 ≤ (0b11#2 ++ x : Byte).toNat ∧ (0b11#2 ++ x : Byte).toNat ≤ 0xFD := by decide

/-- R90's table: the least and the greatest first byte of each chunk form; the framing records have one each
(R93, R94). -/
def firstBytes : Instr → Nat × Nat
  | .opIndex _ => (0x00, 0x3F)
  | .opDiff _ _ _ => (0x40, 0x7F)
  | .opLuma _ _ _ => (0x80, 0xBF)
  | .opRun _ => (0xC0, 0xFD)
  | .opRgb _ _ _ => (0xFE, 0xFE)
  | .opRgba _ _ _ _ => (0xFF, 0xFF)
  | .header _ _ _ _ => (0x71, 0x71)
  | .endMarker => (0x00, 0x00)

/-- R90: the first byte of a legal instruction lies in the range of its form. -/
theorem head_mem_firstBytes {p : Config.Params} {i : Instr} (hw : i.wellFormed p = true) {b0 : Byte}
    {more rest : List Byte} (h : b0 :: more = encode i ++ rest) :
    (firstBytes i).1 ≤ b0.toNat ∧ b0.toNat ≤ (firstBytes i).2 := by
  cases i with
  | opIndex x => obtain ⟨ht, -⟩ := tag_index x; cases h; exact toNat_range_of_tag ht
  | opDiff x y z => obtain ⟨ht, -⟩ := tag_diff x y z; cases h; exact toNat_range_of_tag ht
  | opLuma x y z => obtain ⟨ht, -⟩ := tag_luma x; cases h; exact toNat_range_of_tag ht
  | opRun x =>
    cases h
    exact toNat_range_of_run x (of_decide_eq_true hw)
  | _ => cases h; exact ⟨Nat.le_refl _, Nat.le_refl _⟩

/-- Settles O3: the chunk that `decodeChunk_total` reads, by its form. -/
theorem everyFirstByteSelectsOneForm : Obligations.EveryFirstByteSelectsOneForm := by
  intro b0 more hmore
  obtain ⟨-, hle⟩ := chunkLen_bounds b0
  obtain ⟨i, rest, hd, hs, hlen, hrest⟩ := decodeChunk_total b0 more (by omega)
  obtain ⟨hbs, -, hw⟩ := eq_encode_of_decodeChunk hd
  obtain ⟨hlo, hhi⟩ := head_mem_firstBytes (hw Config.Params.default) hbs
  refine ⟨i, rest, hd, hrest, ?_⟩
  rw [← hlen]
  cases i with
  | header => cases hs
  | endMarker => cases hs
  | _ =>
    simp only [firstBytes] at hlo hhi
    grind [encode]

/-- Settles O4: each word decoded. -/
theorem writtenOutWordsDecode : Obligations.WrittenOutWordsDecode :=
  ⟨rfl, rfl, rfl, rfl, rfl, rfl, rfl, rfl⟩

end Sys2Proof

namespace Sys2Proof.Machine

/-- Settles O31: the fitting outcome of the trailer step, by the laws of the byte buffers. -/
theorem endMarkerEncodes : Obligations.EndMarkerEncodes := by
  intro s hp hfit
  obtain ⟨ho, -⟩ | ⟨hf, he⟩ := s.encodeEnd_cases
  · omega
  refine ⟨_, exec_encTrailer hp, ?_⟩
  rw [he]
  exact ⟨rfl, outPos_toNat_add hf, Memory.readBytes_writeBytes s.outBuf _ endBytes,
    fun _ ha => Memory.read_writeBytes_outside ha s.outBuf, rfl, rfl, rfl, rfl, rfl, rfl, rfl, rfl, rfl, rfl, rfl, rfl⟩

end Sys2Proof.Machine

namespace Sys2Proof.Machine

open Sys2Proof.Safety

/-! ### A decode pass's steps -/

theorem engineStep_decHeader_ok {s : State} {i : Instr} (hp : s.phase = .decHeader) (hf : s.fetchHeader = .ok i) :
    engineStep s = exec i s := by
  simp only [engineStep, hp, hf]

theorem engineStep_decHeader_error {s : State} {e : ErrCode} (hp : s.phase = .decHeader)
    (hf : s.fetchHeader = .error e) : engineStep s = .next (s.raiseDecHeader e) := by
  simp only [engineStep, hp, hf]

theorem engineStep_decChunks_ok {s : State} {i : Instr} (hp : s.phase = .decChunks) (hn : s.pixPos.toNat < s.job.n)
    (hf : s.fetchChunk = .ok i) : engineStep s = exec i s := by
  simp only [engineStep, hp, if_pos hn, hf]

theorem engineStep_decChunks_error {s : State} {e : ErrCode} (hp : s.phase = .decChunks)
    (hn : s.pixPos.toNat < s.job.n) (hf : s.fetchChunk = .error e) : engineStep s = .next (s.raise e) := by
  simp only [engineStep, hp, if_pos hn, hf]

/-- R113: the header fetch reads back a header from its bytes. -/
theorem fetchHeader_of_bytes {s : State} {w h : Word32} {c cs : Byte} (hl : 14 ≤ s.job.inLen.toNat)
    (hb : s.inBuf.readBytes 0 14 = encode (.header w h c cs)) : s.fetchHeader = .ok (.header w h c cs) := by
  have hd : decode .header (s.inBuf.readBytes 0 Config.headerLen) = .ok (.header w h c cs, []) := by
    rw [Config.headerLen, hb, ← List.append_nil (encode _)]
    exact decodeHeader_encode w h c cs []
  rw [State.fetchHeader, if_neg (Nat.not_lt.2 hl : ¬s.job.inLen.toNat < Config.headerLen), hd]

/-- Settles O12: the fetch reads the header back, and the step executes what is fetched. -/
theorem stepRunsHeaderAtZero : Obligations.StepRunsHeaderAtZero :=
  fun _ _ _ _ _ hh hp hl hb =>
    (step_engine hh).trans (engineStep_decHeader_ok hp (fetchHeader_of_bytes hl hb))

/-! ### The ENC_HEADER step -/

/-- R110: the field checks in their order, in numbers. -/
theorem fieldError_eq (p : Config.Params) (w h : Word32) (c cs : Byte) : fieldError p w h c cs =
    if w.toNat = 0 ∨ h.toNat = 0 then some .dimZero
    else if w.toNat * h.toNat > p.maxPixels then some .dimOverflow
    else if c.toNat ≠ 3 ∧ c.toNat ≠ 4 then some .badChannels
    else if cs.toNat ≠ 0 ∧ cs.toNat ≠ 1 then some .badColorspace
    else none := by
  simp only [fieldError, not_or, BitVec.toNat_eq]
  rfl

/-- R111: the job checks in their order, in numbers. -/
theorem jobError_eq (p : Config.Params) (j : Job) : jobError p j =
    if j.w.toNat = 0 ∨ j.h.toNat = 0 then some .dimZero
    else if j.w.toNat * j.h.toNat > p.maxPixels then some .dimOverflow
    else if j.c.toNat ≠ 3 ∧ j.c.toNat ≠ 4 then some .badChannels
    else if j.cs.toNat ≠ 0 ∧ j.cs.toNat ≠ 1 then some .badColorspace
    else if j.inLen.toNat ≠ j.w.toNat * j.h.toNat * j.c.toNat then some .encLenMismatch
    else none := by
  rw [jobError, fieldError_eq]
  split_ifs <;> rfl

theorem State.encodeHeader_error {s : State} {e : ErrCode} (he : jobError s.params s.job = some e) (w h : Word32)
    (c cs : Byte) : s.encodeHeader w h c cs = s.raise e := by
  simp only [State.encodeHeader, he]

theorem State.encodeHeader_passes {s : State} (he : jobError s.params s.job = none) (w h : Word32) (c cs : Byte) :
    s.encodeHeader w h c cs =
      s.commit { s with job := { s.job with n := s.job.w.toNat * s.job.h.toNat }, phase := .encPixels }
        (encode (.header w h c cs)) := by
  simp only [State.encodeHeader, he]

/-- R222, R223: an error leaves WIDTH to COLORSPACE. -/
theorem State.raise_failedKeepingCsrs (s : State) (e : ErrCode) :
    FailedKeepingCsrs s (s.raise e) e.errClass.toNat e.code.toNat :=
  ⟨s.raise_failed e, rfl, rfl, rfl, rfl⟩

/-- R112: the bytes of a header, in numbers. -/
theorem encode_header_eq (w h : Word32) (c cs : Byte) : encode (.header w h c cs) =
    [0x71, 0x6F, 0x69, 0x66,
      BitVec.ofNat 8 (w.toNat / 16777216), BitVec.ofNat 8 (w.toNat / 65536), BitVec.ofNat 8 (w.toNat / 256),
      BitVec.ofNat 8 w.toNat,
      BitVec.ofNat 8 (h.toNat / 16777216), BitVec.ofNat 8 (h.toNat / 65536), BitVec.ofNat 8 (h.toNat / 256),
      BitVec.ofNat 8 h.toNat, c, cs] := by
  simp [encode, magic, bytesBe32, BitVec.extractLsb', Nat.shiftRight_eq_div_pow]

/-- Settles O28, check by check in R111's order; a job that passes them all is committed or overflows. -/
theorem headerEncodes : Obligations.HeaderEncodes := by
  intro s hp w h c
  refine ⟨_, exec_encHeader hp, ?_⟩
  have hj := jobError_eq s.params s.job
  have hfail {e : ErrCode} (he : jobError s.params s.job = some e) :
      FailedKeepingCsrs s (s.encodeHeader s.job.w s.job.h s.job.c s.job.cs) e.errClass.toNat e.code.toNat := by
    rw [State.encodeHeader_error he]
    exact s.raise_failedKeepingCsrs e
  split_ifs at hj ⊢
  · exact hfail hj
  · exact hfail hj
  · exact hfail hj
  · exact hfail hj
  · exact hfail hj
  · next hover =>
    rw [State.encodeHeader_passes hj, State.commit_overflow hover]
    exact s.raise_failedKeepingCsrs .outOverflow
  · next hfits =>
    have hf : Fits s (encode (.header s.job.w s.job.h s.job.c s.job.cs)) := Nat.not_lt.1 hfits
    rw [State.encodeHeader_passes hj, State.commit_fits hf, ← encode_header_eq]
    exact ⟨rfl, rfl, outPos_toNat_add hf, Memory.readBytes_writeBytes s.outBuf _ _,
      fun _ ha => Memory.read_writeBytes_outside ha s.outBuf, rfl, rfl, rfl, rfl, rfl, rfl, rfl, rfl, rfl, rfl, rfl⟩

/-! ### Runs with no host move waiting -/

/-- R225, R235: a run from a state that the step keeps stays there. -/
theorem run_of_step_self {s : State} (h : step s = .next s) (k : Nat) : Sys2Proof.core.run k s = .next s := by
  induction k with
  | zero => rfl
  | succ k ih => exact (run_succ k h).trans ih

/-- In DONE and ERROR the engine keeps all state. -/
theorem step_ended {s : State} (hh : s.host = []) (hp : s.phase = .done ∨ s.phase = .error) : step s = .next s := by
  rw [step_engine hh]
  rcases hp with hp | hp <;> simp only [engineStep, hp]

/-- Every run keeps the invariant of a run. -/
theorem passInv_run {s t : State} {k : Nat} (h : PassInv s) (hr : Sys2Proof.core.run k s = .next t) : PassInv t := by
  induction k generalizing s with
  | zero => cases hr; exact h
  | succ k ih =>
    rcases step_outcome s with ⟨u, hu⟩ | ⟨_, _, _, _, _, hu⟩
    · exact ih (stepKeepsPassInv s u h hu) ((run_succ k hu).symm.trans hr)
    · have hu : Sys2Proof.core.step s = .refused .hostDutyBroken := hu
      simp [Host.Core.run, hu] at hr

/-- R39 to R41: in DONE the counters stand in their CSRs. -/
theorem ended_of_done {s : State} (h : PassInv s) (hp : s.phase = .done) : Ended s := by
  have hfacts := h.facts
  simp only [PhaseFacts, hp] at hfacts
  exact hfacts.1

/-! ### The same decode pass with other bytes in IN (R116, R196) -/

/-- The state with these bytes in IN and this IN_LEN. -/
def State.withIn (s : State) (m : Memory) (len : Addr) : State :=
  { s with inBuf := m, job := { s.job with inLen := len }, csr := { s.csr with inLen := len } }

theorem State.outside_eq_withIn (s : State) (m : Memory) (len : Addr) :
    s.outside { s.surroundings with inBuf := m, inLen := len, csrInLen := len } = s.withIn m len := rfl

/-- What `F` takes of IN on its way from `s` to `t` lies below the `in_pos` of `t`: with any IN that agrees so far, and any
IN_LEN that reaches that far, it goes the same way. -/
def ReadsBelowInPos (F : State → Host.Outcome State Fault Refusal) (s t : State) : Prop :=
  s.inPos.toNat ≤ t.inPos.toNat ∧
  ∀ (m : Memory) (len : Addr), t.inPos.toNat ≤ len.toNat → (∀ a, a < t.inPos.toNat → m.read a = s.inBuf.read a) →
    F (s.withIn m len) = .next (t.withIn m len)

/-- A run reads below its last `in_pos` when its first step and the rest of it do. -/
theorem ReadsBelowInPos.cons {s u t : State} {k : Nat} (h : ReadsBelowInPos step s u) (hin : u.inBuf = s.inBuf)
    (hrest : ReadsBelowInPos (Sys2Proof.core.run k) u t) : ReadsBelowInPos (Sys2Proof.core.run (k + 1)) s t := by
  obtain ⟨hle, hstep⟩ := h
  obtain ⟨hle', hrun⟩ := hrest
  refine ⟨hle.trans hle', fun m len hlen hm => ?_⟩
  have hs := hstep m len (hle'.trans hlen) fun a ha => hm a (ha.trans_le hle')
  exact (run_succ k hs).trans (hrun m len hlen fun a ha => by rw [hin]; exact hm a ha)

/-- Where a decode pass stands, until it fails. -/
def Decoding (s : State) : Prop := s.phase = .decHeader ∨ s.phase = .decChunks ∨ s.phase = .done

theorem Decoding.not_encoding {s : State} (h : Decoding s) : s.phase ≠ .encPixels ∧ s.phase ≠ .encHeader := by
  rcases h with hp | hp | hp <;> simp [hp]

/-- A decode step that fetches the same from another IN does the same to everything else. -/
theorem step_withIn {s t : State} {m : Memory} {len : Addr} (hh : s.host = []) (hp : Decoding s) (hs : step s = .next t)
    (hf : s.phase = .decHeader → (s.withIn m len).fetchHeader = s.fetchHeader)
    (hc : s.phase = .decChunks → (s.withIn m len).fetchChunk = s.fetchChunk) :
    step (s.withIn m len) = .next (t.withIn m len) := by
  have he : engineStep s = .next t := (step_engine hh).symm.trans hs
  obtain ⟨hpix, hhead⟩ := hp.not_encoding
  obtain ⟨u, hu, ho⟩ := engineStep_outside s { s.surroundings with inBuf := m, inLen := len, csrInLen := len }
    (fun h => absurd h hpix) (fun h => absurd h hhead) hf (fun h _ => hc h)
  obtain rfl : u = t := Host.Outcome.next.inj (hu.symm.trans he)
  rw [State.outside_eq_withIn, ← engineStep_surroundings he, State.outside_eq_withIn] at ho
  exact (step_engine (s := s.withIn m len) hh).trans ho

/-- R113: the header step that does not fail reads the 14 bytes below the `in_pos` it leaves. -/
theorem headerStep_reads {s t : State} (h : PassInv s) (hh : s.host = []) (hp : s.phase = .decHeader)
    (hs : step s = .next t) (ht : t.phase ≠ .error) : t.phase = .decChunks ∧ ReadsBelowInPos step s t := by
  obtain ⟨-, -, -, -, -, hin, -⟩ := h.decHeader hp
  have he : engineStep s = .next t := (step_engine hh).symm.trans hs
  rcases fetchHeader_cases s with ⟨-, hf⟩ | ⟨-, -, hf⟩ | ⟨hl, -, hf⟩
  · cases (engineStep_decHeader_error hp hf).symm.trans he
    exact absurd rfl ht
  · cases (engineStep_decHeader_error hp hf).symm.trans he
    exact absurd rfl ht
  cases ((engineStep_decHeader_ok hp hf).trans (exec_decHeader hp _ _ _ _)).symm.trans he
  rcases s.decodeHeader_cases _ _ _ _ with ⟨e, -, hd⟩ | ⟨-, -, hd⟩ | ⟨-, -, hd⟩
  · exact absurd (congrArg State.phase hd) ht
  · exact absurd (congrArg State.phase hd) ht
  rw [hd] at hs ⊢
  refine ⟨rfl, by simp [hin], fun m len hlen hm => ?_⟩
  have hreach : (s.withIn m len).job.inLen.toNat < 14 ↔ s.job.inLen.toNat < 14 :=
    iff_of_false (Nat.not_lt.2 hlen) (Nat.not_lt.2 hl)
  exact step_withIn hh (.inl hp) hs (fun _ => fetchHeader_congr hreach fun _ => hm) fun h => nomatch hp.symm.trans h

/-- R193: a chunk all of whose bytes lie below IN_LEN is fetched the same from any bytes that agree with it. -/
theorem fetchChunk_withIn {s : State} {m : Memory} {len : Addr} {n : Nat} (hn : chunkLen (s.inBuf.read s.inPos.toNat) = n)
    (hl : s.inPos.toNat + n ≤ s.job.inLen.toNat) (hlen : s.inPos.toNat + n ≤ len.toNat)
    (hm : ∀ a, a < s.inPos.toNat + n → m.read a = s.inBuf.read a) : (s.withIn m len).fetchChunk = s.fetchChunk := by
  obtain ⟨hpos, -⟩ := chunkLen_bounds (s.inBuf.read s.inPos.toNat)
  have hfirst : m.read s.inPos.toNat = s.inBuf.read s.inPos.toNat := hm _ (by omega)
  have hbytes : m.readBytes s.inPos.toNat n = s.inBuf.readBytes s.inPos.toNat n :=
    Memory.readBytes_congr fun a _ ha => hm a ha
  unfold State.fetchChunk State.withIn
  simp only [hfirst, hn, hbytes, if_neg (show ¬s.inPos.toNat ≥ len.toNat by omega),
    if_neg (show ¬s.inPos.toNat ≥ s.job.inLen.toNat by omega), if_neg (Nat.not_lt.2 hlen), if_neg (Nat.not_lt.2 hl)]

/-- R143 to R153: everything a chunk does to the counters, OUT and the phase of a decode pass. -/
theorem exec_decChunks_decoded {s : State} {i : Instr} (hr : ChunkReady s) (hs : i.slot = .chunk) :
    ∃ t p k, exec i s = .next t ∧ s.pixPos.toNat + k ≤ s.job.n ∧ Decoded s t p k (encode i).length := by
  have hn := hr.pixels
  cases i with
  | header => cases hs
  | endMarker => cases hs
  | opRun l =>
    obtain ⟨-, -, hd⟩ := State.decodeRun_spec hr (l.toNat + 1)
    exact ⟨_, _, _, exec_decChunks_run hr.phase l, by omega, hd⟩
  | _ => exact ⟨_, _, 1, exec_decChunks_pixel hr.phase rfl, hn, (State.decodePixel_spec hr _ _).2⟩

/-- R193, R197: after a chunk the pass goes on or is done. -/
theorem phase_of_decoded {s t : State} {p : Pixel} {k len : Nat} (hd : Decoded s t p k len)
    (hk : s.pixPos.toNat + k ≤ s.job.n) : t.phase = .decChunks ∨ t.phase = .done := by
  rcases Nat.lt_or_eq_of_le hk with hlt | heq
  · exact .inl (hd.goesOn hlt).1
  · exact .inr (hd.ends heq).1

/-- R193: the chunk step that does not fail reads the chunk below the `in_pos` it leaves. -/
theorem chunkStep_reads {s t : State} (h : PassInv s) (hh : s.host = []) (hp : s.phase = .decChunks)
    (hs : step s = .next t) (ht : t.phase ≠ .error) :
    (t.phase = .decChunks ∨ t.phase = .done) ∧ ReadsBelowInPos step s t := by
  have hr := h.chunkReady hp
  have he : engineStep s = .next t := (step_engine hh).symm.trans hs
  rcases fetchChunk_cases s with ⟨-, hf⟩ | ⟨-, -, hf⟩ | ⟨i, hf, hslot, hlen, hl, -⟩
  · cases (engineStep_decChunks_error hp hr.pixels hf).symm.trans he
    exact absurd rfl ht
  · cases (engineStep_decChunks_error hp hr.pixels hf).symm.trans he
    exact absurd rfl ht
  obtain ⟨u, p, k, hx, hk, hd⟩ := exec_decChunks_decoded hr hslot
  obtain rfl : u = t := Host.Outcome.next.inj (((engineStep_decChunks_ok hp hr.pixels hf).trans hx).symm.trans he)
  have hin : u.inPos.toNat = s.inPos.toNat + (encode i).length := by rw [hd.inPos, addr_toNat_add hl]
  refine ⟨phase_of_decoded hd hk, by omega, fun m len hreach hm => ?_⟩
  rw [hin] at hreach hm
  exact step_withIn hh (.inr (.inl hp)) hs (fun h => nomatch hp.symm.trans h) fun _ =>
    fetchChunk_withIn hlen.symm hl hreach hm

/-- A step of a decode pass that does not fail. -/
theorem decodingStep_reads {s t : State} (h : PassInv s) (hh : s.host = []) (hp : Decoding s) (hs : step s = .next t)
    (ht : t.phase ≠ .error) : Decoding t ∧ ReadsBelowInPos step s t := by
  rcases hp with hp | hp | hp
  · obtain ⟨hpt, hreads⟩ := headerStep_reads h hh hp hs ht
    exact ⟨.inr (.inl hpt), hreads⟩
  · obtain ⟨hpt, hreads⟩ := chunkStep_reads h hh hp hs ht
    exact ⟨.inr hpt, hreads⟩
  · cases (step_ended hh (.inl hp)).symm.trans hs
    exact ⟨.inr (.inr hp), Nat.le_refl _, fun m len _ _ => step_ended (s := s.withIn m len) hh (.inl hp)⟩

/-- A decode pass that ends in DONE reads below its last `in_pos`, step by step. -/
theorem decodingRun_reads {s t : State} {k : Nat} (h : PassInv s) (hh : s.host = []) (hp : Decoding s)
    (hr : Sys2Proof.core.run k s = .next t) (ht : t.phase = .done) : ReadsBelowInPos (Sys2Proof.core.run k) s t := by
  induction k generalizing s with
  | zero =>
    cases hr
    exact ⟨Nat.le_refl _, fun _ _ _ _ => rfl⟩
  | succ k ih =>
    obtain ⟨u, he, hm⟩ := engineStep_cases s
    obtain ⟨hin, -, hhost, -⟩ := hm.kept
    have hs : step s = .next u := (step_engine hh).trans he
    have hu : u.host = [] := hhost.trans hh
    have hrest := (run_succ k hs).symm.trans hr
    have hne : u.phase ≠ .error := fun e => by
      cases (run_of_step_self (step_ended hu (.inr e)) k).symm.trans hrest
      cases e.symm.trans ht
    obtain ⟨hpu, hreads⟩ := decodingStep_reads h hh hp hs hne
    exact hreads.cons hin (ih (h.engineMove hm) hu hpu hrest)

/-- Settles O54: the pass reads below its last `in_pos`, which in DONE stands in its CSR. -/
theorem bytesAfterLastChunkIgnored : Obligations.BytesAfterLastChunkIgnored := by
  intro s t k m len h hh hp hr ht hlen hm
  obtain ⟨-, hin, -⟩ := ended_of_done (passInv_run h hr) ht
  rw [hin] at hlen hm
  obtain ⟨-, hsame⟩ := decodingRun_reads h hh (.inl hp) hr ht
  exact hsame m len hlen hm

end Sys2Proof.Machine

namespace Sys2Proof.Machine

open Sys2Proof.Safety

variable {s t : State}

/-! ### The codec registers: the previous pixel and the color cache (41_color_cache.md) -/

/-- Settles O32: the hash as a remainder, its bound by the range of a sample, and the rule's examples computed. -/
theorem cacheIndexIsHash : Obligations.CacheIndexIsHash := by
  refine ⟨fun p => ⟨?_, ?_⟩, rfl, rfl, rfl, rfl, rfl⟩
  · exact BitVec.toNat_ofNat _ _
  · have := p.r.isLt
    have := p.g.isLt
    have := p.b.isLt
    have := p.a.isLt
    omega

/-- What a chunk is coded against, on either side: the previous pixel and the cache. -/
structure Codec where
  prev  : Pixel
  cache : Vector Pixel 64

/-- R242: what START leaves. -/
def Codec.start : Codec := ⟨Pixel.start, Vector.replicate 64 Pixel.zero⟩

/-- R140: the non-run update. -/
def Codec.update (c : Codec) (px : Pixel) : Codec := ⟨px, store c.cache (cacheIndex px) px⟩

/-- R140, R142: one pixel done; a pixel of a run changes nothing. -/
def Codec.next (c : Codec) (px : Pixel) : Codec := if px = c.prev then c else c.update px

/-- The codec registers of a state. -/
def State.codec (s : State) : Codec := ⟨s.prev, s.cache⟩

theorem Codec.next_prev (c : Codec) : c.next c.prev = c := if_pos rfl

theorem Codec.next_of_ne {c : Codec} {px : Pixel} (h : px ≠ c.prev) : c.next px = c.update px := if_neg h

/-- R242: at the start of a pass. -/
theorem codec_of_fresh (h : Fresh s) : s.codec = Codec.start := by
  obtain ⟨hprev, hcache, -⟩ := h
  rw [State.codec, hprev, hcache]
  rfl

theorem State.decodePixel_codec (s : State) (px : Pixel) (len : Nat) : (s.decodePixel px len).codec = s.codec.update px := by
  obtain ⟨-, hprev, hcache, -⟩ :=
    State.completeIfFull_kept { (s.nonRunUpdate px).writePixel px with inPos := s.inPos + BitVec.ofNat 64 len }
  exact congrArg₂ Codec.mk hprev hcache

theorem State.decodeRun_codec (s : State) (n : Nat) : (s.decodeRun n).codec = s.codec := by
  obtain ⟨-, -, kprev, kcache, -⟩ := s.writePixels_kept s.prev (min n (s.job.n - s.pixPos.toNat))
  obtain ⟨-, hprev, hcache, -⟩ := State.completeIfFull_kept
    { s.writePixels s.prev (min n (s.job.n - s.pixPos.toNat)) with inPos := s.inPos + 1 }
  exact congrArg₂ Codec.mk (hprev.trans kprev) (hcache.trans kcache)

/-- The end of a pixel step leaves the codec registers it is given, or none of its writes stands. -/
theorem State.endPixelStep_codec (s u : State) (px : Pixel) (sb : List Byte) :
    (s.endPixelStep u px sb).codec = s.codec ∨ (s.endPixelStep u px sb).codec = ⟨px, u.cache⟩ := by
  rcases s.endPixelStep_cases u px sb with ⟨-, e⟩ | ⟨-, e⟩ <;> rw [e]
  · exact .inl rfl
  · exact .inr rfl

/-- R140: every move of the engine leaves the codec registers, or makes the non-run update by one pixel. -/
theorem EngineMove.codec_cases (hm : EngineMove s t) : t.codec = s.codec ∨ ∃ px, t.codec = s.codec.update px := by
  cases hm with
  | rest => exact .inl rfl
  | full => exact .inl rfl
  | encHeader =>
    rcases s.encodeHeader_cases s.job.w s.job.h s.job.c s.job.cs with ⟨e, -, he⟩ | ⟨-, -, -, he⟩ <;> rw [he] <;>
      exact .inl rfl
  | encRunOn _ _ heq =>
    rcases s.endPixelStep_codec { s with run := s.run + 1 } s.readPixel [] with e | e
    · exact .inl e
    · exact .inl (e.trans (by rw [heq]; rfl))
  | encRun _ _ heq =>
    rcases s.endPixelStep_codec { s with run := 0 } s.readPixel (encode (.opRun s.run)) with e | e
    · exact .inl e
    · exact .inl (e.trans (by rw [heq]; rfl))
  | encChunk _ _ _ i =>
    rcases s.endPixelStep_codec ({ s with run := 0 }.nonRunUpdate s.readPixel) s.readPixel (s.flushBytes ++ encode i) with
      e | e
    · exact .inl e
    · exact .inr ⟨s.readPixel, e⟩
  | encEnd => rcases s.encodeEnd_cases with ⟨-, he⟩ | ⟨-, he⟩ <;> rw [he] <;> exact .inl rfl
  | decHeaderBad => exact .inl rfl
  | decHeader _ _ w ht c cs =>
    rcases s.decodeHeader_cases w ht c cs with ⟨e, -, he⟩ | ⟨-, -, he⟩ | ⟨-, -, he⟩ <;> rw [he] <;> exact .inl rfl
  | decTrunc => exact .inl rfl
  | decRun => exact .inl (s.decodeRun_codec _)
  | decPixel _ _ px len => exact .inr ⟨px, s.decodePixel_codec px len⟩

/-! ### Every cache slot is a zero pixel or at home (R133, R134) -/

/-- The statement reads the cache alone. -/
theorem cacheAtHome_of_eq (h : CacheAtHome s) (he : t.cache = s.cache) : CacheAtHome t := by
  intro i
  rw [he]
  exact h i

/-- R133: the cache that START and reset leave. -/
theorem cacheAtHome_of_zero (he : t.cache = Vector.replicate 64 Pixel.zero) : CacheAtHome t :=
  fun i => .inl (by rw [he, lookup_replicate])

/-- R132, R134: a store puts a pixel in its own slot. -/
theorem cacheAtHome_of_store (h : CacheAtHome s) {px : Pixel} (he : t.cache = store s.cache (cacheIndex px) px) :
    CacheAtHome t := by
  intro i
  rw [he]
  by_cases hi : i = cacheIndex px
  · exact .inr (by rw [hi, lookup_store_same])
  · rw [lookup_store_other hi]
    exact h i

theorem EngineMove.cacheAtHome (hm : EngineMove s t) (h : CacheAtHome s) : CacheAtHome t := by
  rcases hm.codec_cases with e | ⟨px, e⟩
  · exact cacheAtHome_of_eq h (congrArg Codec.cache e)
  · exact cacheAtHome_of_store h (congrArg Codec.cache e)

/-- A CSR write leaves the cache, or it is an accepted START. -/
theorem State.writeCsr_cache (s : State) (reg : BitVec 4) (v : BitVec 64) :
    (s.writeCsr reg v).cache = s.cache ∨ (s.writeCsr reg v).cache = Vector.replicate 64 Pixel.zero := by
  rcases writeCsr_cases s reg v with e | ⟨-, m, -, e⟩ | ⟨-, m, md, -, -, -, e⟩ | ⟨-, w, h, c, cs, il, oc, e⟩ <;> rw [e]
  · exact .inl rfl
  · exact .inl rfl
  · exact .inr (by cases md <;> rfl)
  · exact .inl rfl

theorem State.readCsr_cache (s : State) (reg : BitVec 4) : (s.readCsr reg).cache = s.cache := by
  unfold State.readCsr
  split <;> rfl

theorem HostEffect.cacheAtHome {m : HostMove} (he : HostEffect s m t) (h : CacheAtHome s) : CacheAtHome t := by
  cases he with
  | engine t hm => exact hm.cacheAtHome h
  | writeCsr reg v =>
    rcases s.writeCsr_cache reg v with e | e
    · exact cacheAtHome_of_eq h e
    · exact cacheAtHome_of_zero e
  | readCsr reg => exact cacheAtHome_of_eq h (s.readCsr_cache reg)
  | reset => exact cacheAtHome_of_zero rfl
  | _ => exact h

/-- Settles O47: by the engine's move where no host move waits, else by the host's. -/
theorem stepKeepsCacheAtHome : Obligations.StepKeepsCacheAtHome := by
  intro s t h hs
  rcases step_cases hs with ⟨-, he⟩ | ⟨m, rest, -, hm⟩
  · exact (engineMove_of_next he).cacheAtHome h
  · have hr : CacheAtHome { s with host := rest } := h
    exact (hostEffect_of_next hm).cacheAtHome hr

/-! ### The codec registers along an image -/

/-- R62, R63: pixel number `k` of the raw image in IN. -/
def State.pixel (s : State) (k : Nat) : Pixel :=
  pixelOfBytes s.job.c (s.inBuf.readBytes (k * s.job.c.toNat) s.job.c.toNat)

theorem State.readPixel_eq (s : State) : s.readPixel = s.pixel s.pixPos.toNat := rfl

/-- The codec registers after the first pixels of an image. -/
def Codec.after (img : Nat → Pixel) : Nat → Codec
  | 0 => Codec.start
  | k + 1 => (Codec.after img k).next (img k)

/-- Pixels `i` to `j - 1` equal the pixel before them: they can stand in one run. -/
def Repeats (img : Nat → Pixel) (i j : Nat) : Prop := ∀ k, i ≤ k → k < j → img k = (Codec.after img i).prev

theorem repeats_self (img : Nat → Pixel) (i : Nat) : Repeats img i i := fun _ h h' => absurd h' (Nat.not_lt.2 h)

/-- R142: a run changes neither the previous pixel nor the cache. -/
theorem Repeats.after_eq {img : Nat → Pixel} {i j : Nat} (h : Repeats img i j) (hij : i ≤ j) :
    Codec.after img j = Codec.after img i := by
  induction j, hij using Nat.le_induction with
  | base => rfl
  | succ j hij ih =>
    have ih := ih fun k h1 h2 => h k h1 (Nat.lt_succ_of_lt h2)
    rw [Codec.after, ih, h j hij (Nat.lt_succ_self j), Codec.next_prev]

theorem Repeats.succ {img : Nat → Pixel} {i j : Nat} (h : Repeats img i j) (hij : i ≤ j)
    (hj : img j = (Codec.after img j).prev) : Repeats img i (j + 1) := by
  intro k hik hk
  rcases Nat.lt_succ_iff_lt_or_eq.1 hk with hlt | rfl
  · exact h k hik hlt
  · rw [hj, h.after_eq hij]

/-! ### Runs of the engine -/

/-- The first step of a run with no host move waiting. -/
theorem run_succ_engine {k : Nat} (hh : s.host = []) (hr : Sys2Proof.core.run (k + 1) s = .next t) :
    ∃ u, step s = .next u ∧ EngineMove s u ∧ u.host = [] ∧ Sys2Proof.core.run k u = .next t := by
  obtain ⟨u, hu, hm⟩ := engineStep_cases s
  obtain ⟨-, -, hhost, -⟩ := hm.kept
  have hs : step s = .next u := (step_engine hh).trans hu
  exact ⟨u, hs, hm, hhost.trans hh, (run_succ k hs).symm.trans hr⟩

/-- What every step of the engine keeps holds all along a run with no host move waiting. -/
theorem run_keeps {P : State → Prop} (hP : ∀ u v, u.host = [] → P u → step u = .next v → P v) {k : Nat}
    (hh : s.host = []) (h : P s) (hr : Sys2Proof.core.run k s = .next t) : t.host = [] ∧ P t := by
  induction k generalizing s with
  | zero => cases hr; exact ⟨hh, h⟩
  | succ k ih =>
    obtain ⟨u, hs, -, hu, hrest⟩ := run_succ_engine hh hr
    exact ih hu (hP s u hh h hs) hrest

/-- R225: a run that does not end in ERROR does not begin there. -/
theorem phase_ne_error_of_run {k : Nat} (hh : s.host = []) (hr : Sys2Proof.core.run k s = .next t)
    (ht : t.phase = .done) : s.phase ≠ .error := by
  intro e
  cases (run_of_step_self (step_ended hh (.inr e)) k).symm.trans hr
  cases e.symm.trans ht

/-- R27: bytes written stay written to the end of a pass that completes. -/
theorem run_outGrows {k : Nat} (h : PassInv s) (hh : s.host = []) (hr : Sys2Proof.core.run k s = .next t)
    (ht : t.phase = .done) : OutGrows s t := by
  induction k generalizing s with
  | zero => cases hr; exact outGrows_of_eq rfl rfl
  | succ k ih =>
    obtain ⟨u, -, hm, hu, hrest⟩ := run_succ_engine hh hr
    obtain ⟨hle, hsame⟩ := h.outGrows hm
    obtain ⟨hle', hsame'⟩ := ih (h.engineMove hm) hu hrest
    refine ⟨hle.trans hle', fun hne a ha => ?_⟩
    rw [hsame' hne a (ha.trans_le hle), hsame (phase_ne_error_of_run hu hrest ht) a ha]

/-! ### The encoder's pixel step -/

/-- An encode pass in ENC_PIXELS is about to code a pixel. -/
theorem pixelReady_of_passInv (h : PassInv s) (hp : s.phase = .encPixels) : PixelReady s := by
  obtain ⟨hf, -, hn⟩ := h.encPixels hp
  obtain ⟨hcount, -, -⟩ := legalJob_bounds h.params hf.legal
  exact ⟨hp, hn, hcount⟩

/-- What the codec works with, and how many pixels are done: the same in both states. -/
def KeepsCodec (s t : State) : Prop :=
  t.job.mode = s.job.mode ∧ t.job.c = s.job.c ∧ t.inBuf = s.inBuf ∧ t.codec = s.codec ∧
    t.pixPos = s.pixPos ∧ t.run = s.run

/-- R173, R174: the three ways to code the current pixel, with the run counter each leaves and the bytes each emits. -/
inductive PixelCoding (s : State) : BitVec 6 → List Byte → Prop
  | joins (heq : s.readPixel = s.prev) : PixelCoding s (s.run + 1) []
  | flushes (heq : s.readPixel = s.prev) : PixelCoding s 0 (encode (.opRun s.run))
  | breaks (i : Instr) (hi : chunkOf s.readPixel s.prev s.cache = some i) : PixelCoding s 0 (s.flushBytes ++ encode i)

/-- R154: a pixel with a chunk of its own differs from the previous one. -/
theorem ne_prev_of_chunkOf {px prev : Pixel} {cache : Vector Pixel 64} {i : Instr} (h : chunkOf px prev cache = some i) :
    px ≠ prev := by
  rintro rfl
  simp [chunkOf, classify] at h

/-- R85: of the chunks only an OP_RUN can be illegal. -/
theorem wellFormed_of_chunk {i : Instr} (hs : i.slot = .chunk) (hrun : ∀ l, i ≠ .opRun l) (p : Config.Params) :
    i.wellFormed p = true := by
  cases i with
  | opRun l => exact absurd rfl (hrun l)
  | header => cases hs
  | _ => rfl

/-- What an encoded pixel leaves. -/
def PixelCoded (s t : State) : Prop :=
  ∃ sb, Emitted s t sb ∧ t.codec = s.codec.next s.readPixel ∧ PixelCoding s t.run sb

/-- The two ends of a pixel step. -/
theorem pixelCoded_of_endPixelStep (hr : PixelReady s) {px : Pixel} {r : BitVec 6} {cache : Vector Pixel 64}
    {sb : List Byte} (prev : Pixel) (hcodec : (⟨px, cache⟩ : Codec) = s.codec.next s.readPixel)
    (hpc : PixelCoding s r sb) (ht : t = s.endPixelStep { s with run := r, prev := prev, cache := cache } px sb) :
    t.phase = .error ∧ KeepsCodec s t ∨ PixelCoded s t := by
  subst ht
  rcases s.endPixelStep_cases { s with run := r, prev := prev, cache := cache } px sb with ⟨-, e⟩ | ⟨hfit, e⟩
  · exact .inl (by rw [e]; exact ⟨rfl, rfl, rfl, rfl, rfl, rfl, rfl⟩)
  · have hem := State.endPixelStep_emitted (t := { s with run := r, prev := prev, cache := cache }) hr hfit rfl
      ⟨rfl, rfl, rfl, rfl, rfl, rfl, rfl⟩ px
    exact .inr ⟨sb, hem, by rw [e]; exact hcodec, by rw [e]; exact hpc⟩

theorem EngineMove.pixel_cases (hm : EngineMove s t) (hr : PixelReady s) :
    t.phase = .error ∧ KeepsCodec s t ∨ PixelCoded s t := by
  have hp := hr.phase
  have joined (heq : s.readPixel = s.prev) : (⟨s.readPixel, s.cache⟩ : Codec) = s.codec.next s.readPixel := by
    rw [heq]
    exact s.codec.next_prev.symm
  cases hm with
  | encRunOn _ _ heq => exact pixelCoded_of_endPixelStep hr s.prev (joined heq) (.joins heq) rfl
  | encRun _ _ heq => exact pixelCoded_of_endPixelStep hr s.prev (joined heq) (.flushes heq) rfl
  | encChunk _ _ hne i hi =>
    exact pixelCoded_of_endPixelStep hr s.readPixel (Codec.next_of_ne (c := s.codec) hne).symm (.breaks i hi) rfl
  | full _ hfull => exact absurd hr.pixels (Nat.not_lt.2 hfull)
  | rest hp' => rcases hp' with hp' | hp' | hp' <;> cases hp.symm.trans hp'
  | encHeader hp' => cases hp.symm.trans hp'
  | encEnd hp' => cases hp.symm.trans hp'
  | decHeaderBad hp' => cases hp.symm.trans hp'
  | decHeader hp' => cases hp.symm.trans hp'
  | decTrunc hp' => cases hp.symm.trans hp'
  | decRun hp' => cases hp.symm.trans hp'
  | decPixel hp' => cases hp.symm.trans hp'

/-- Every move of an encode pass leaves what the codec works with, or codes one pixel. -/
theorem EngineMove.encode_cases (hm : EngineMove s t) (h : PassInv s) (hmode : s.job.mode = .enc) :
    KeepsCodec s t ∨ s.phase = .encPixels ∧ PixelCoded s t := by
  by_cases hp : s.phase = .encPixels
  · rcases hm.pixel_cases (pixelReady_of_passInv h hp) with ⟨-, hk⟩ | hc
    · exact .inl hk
    · exact .inr ⟨hp, hc⟩
  have kept : KeepsCodec s s := ⟨rfl, rfl, rfl, rfl, rfl, rfl⟩
  have notHeader (hp' : s.phase = .decHeader) : False := by
    obtain ⟨hd, -⟩ := h.decHeader hp'
    cases hmode.symm.trans hd
  have notChunks (hp' : s.phase = .decChunks) : False := by
    obtain ⟨hf, -⟩ := h.decChunks hp'
    cases hmode.symm.trans hf.mode
  left
  cases hm with
  | rest => exact kept
  | full => exact kept
  | encHeader =>
    rcases s.encodeHeader_cases s.job.w s.job.h s.job.c s.job.cs with ⟨e, -, he⟩ | ⟨-, -, -, he⟩ <;> rw [he] <;>
      exact kept
  | encEnd => rcases s.encodeEnd_cases with ⟨-, he⟩ | ⟨-, he⟩ <;> rw [he] <;> exact kept
  | encRunOn hp' => exact absurd hp' hp
  | encRun hp' => exact absurd hp' hp
  | encChunk hp' => exact absurd hp' hp
  | decHeaderBad hp' => exact (notHeader hp').elim
  | decHeader hp' => exact (notHeader hp').elim
  | decTrunc hp' => exact (notChunks hp').elim
  | decRun hp' => exact (notChunks hp').elim
  | decPixel hp' => exact (notChunks hp').elim

/-! ### The encoder along its image -/

/-- The encoder codes the image `img`: its codec registers are those after the pixels done, and the pending run is one
(R24, R135). -/
structure EncodesImage (img : Nat → Pixel) (s : State) : Prop where
  mode    : s.job.mode = .enc
  pixel   : s.pixel = img
  codec   : s.codec = Codec.after img s.pixPos.toNat
  pending : Repeats img (s.pixPos.toNat - s.run.toNat) s.pixPos.toNat

/-- An encode pass just started codes the image in IN. -/
theorem encodesImage_of_fresh (hmode : s.job.mode = .enc) (hf : Fresh s) : EncodesImage s.pixel s := by
  have hcodec := codec_of_fresh hf
  obtain ⟨-, -, hrun, hpix, -⟩ := hf
  refine ⟨hmode, rfl, ?_, ?_⟩
  · rw [hcodec, hpix]; rfl
  · rw [hrun, hpix]; exact repeats_self _ 0

variable {img : Nat → Pixel}

theorem EncodesImage.of_keepsCodec (he : EncodesImage img s) (hk : KeepsCodec s t) : EncodesImage img t := by
  obtain ⟨hmode, hc, hin, hcodec, hpix, hrun⟩ := hk
  refine ⟨hmode.trans he.mode, ?_, ?_, ?_⟩
  · rw [← he.pixel]; unfold State.pixel; rw [hc, hin]
  · rw [hcodec, hpix]; exact he.codec
  · rw [hpix, hrun]; exact he.pending

theorem EncodesImage.readPixel_eq (he : EncodesImage img s) : s.readPixel = img s.pixPos.toNat := by
  rw [s.readPixel_eq, he.pixel]

/-- The pending run goes on when the pixel equals the previous one. -/
theorem EncodesImage.pending_succ (he : EncodesImage img s) (heq : s.readPixel = s.prev) :
    Repeats img (s.pixPos.toNat - s.run.toNat) (s.pixPos.toNat + 1) := by
  refine he.pending.succ (Nat.sub_le _ _) ?_
  rw [← he.readPixel_eq, heq, ← he.codec]
  rfl

/-- The run counter does not wrap in a pass. -/
theorem run_toNat_succ (h : PassInv s) (hp : s.phase = .encPixels) : (s.run + 1).toNat = s.run.toNat + 1 := by
  obtain ⟨hf, -, -⟩ := h.encPixels hp
  have := hf.run
  rw [BitVec.toNat_add]
  exact Nat.mod_eq_of_lt (by simp; omega)

/-- A pending run's length less one, as its OP_RUN holds it (R85). -/
theorem run_toNat_pred : ∀ {r : BitVec 6}, r ≠ 0 → (r - 1).toNat = r.toNat - 1 := by decide

theorem EncodesImage.of_pixelCoded (he : EncodesImage img s) (h : PassInv s) (hp : s.phase = .encPixels)
    (hc : PixelCoded s t) : EncodesImage img t := by
  obtain ⟨sb, hem, hcodec, hpc⟩ := hc
  obtain ⟨hjob, -, hin, -⟩ := hem.kept
  refine ⟨by rw [hjob]; exact he.mode, ?_, ?_, ?_⟩
  · rw [← he.pixel]; unfold State.pixel; rw [hjob, hin]
  · rw [hcodec, hem.pixPos, he.readPixel_eq, he.codec]; rfl
  rw [hem.pixPos]
  generalize t.run = r at hpc
  cases hpc with
  | joins heq => rw [run_toNat_succ h hp, Nat.add_sub_add_right]; exact he.pending_succ heq
  | flushes => exact repeats_self img _
  | breaks => exact repeats_self img _

theorem EncodesImage.engineMove (he : EncodesImage img s) (h : PassInv s) (hm : EngineMove s t) : EncodesImage img t := by
  rcases hm.encode_cases h he.mode with hk | ⟨hp, hc⟩
  · exact he.of_keepsCodec hk
  · exact he.of_pixelCoded h hp hc

/-- R135, the encoder's side: at every step of an encode pass. -/
theorem encodesImage_run {k : Nat} (h : PassInv s) (hh : s.host = []) (he : EncodesImage img s)
    (hr : Sys2Proof.core.run k s = .next t) : EncodesImage img t := by
  obtain ⟨-, -, ht⟩ := run_keeps (P := fun u => PassInv u ∧ EncodesImage img u) (fun u v hu ⟨hi, heu⟩ hs => by
    have hm := engineMove_of_next ((step_engine hu).symm.trans hs)
    exact ⟨hi.engineMove hm, heu.engineMove hi hm⟩) hh ⟨h, he⟩ hr
  exact ht

/-! ### The bytes of an encoded image -/

/-- The bytes stand at offset `q` of `m`, below `limit`. -/
def StandsAt (m : Memory) (limit q : Nat) (bs : List Byte) : Prop :=
  m.readBytes q bs.length = bs ∧ q + bs.length ≤ limit

theorem StandsAt.append {m : Memory} {limit q : Nat} {as bs : List Byte} (h : StandsAt m limit q (as ++ bs)) :
    StandsAt m limit q as ∧ StandsAt m limit (q + as.length) bs := by
  obtain ⟨hb, hl⟩ := h
  rw [List.length_append] at hb hl
  rw [Memory.readBytes_append] at hb
  obtain ⟨ha, hb⟩ := List.append_inj hb (Memory.readBytes_length _ _ _)
  exact ⟨⟨ha, by omega⟩, hb, by omega⟩

/-- The chunks at offset `q` of `m`, below `limit`, code pixels `i` to `n - 1` of `img`: a chunk is an OP_RUN of pixels that
equal the previous one (R142), or the dispatcher's choice for its pixel (R154). -/
inductive CodedFrom (img : Nat → Pixel) (n : Nat) (m : Memory) (limit : Nat) : Nat → Nat → Prop
  | all {i q : Nat} (hi : i = n) : CodedFrom img n m limit i q
  | run {i j q : Nat} (len1 : BitVec 6) (hl : len1.toNat ≤ 61) (hj : j = i + len1.toNat + 1) (hn : j ≤ n)
      (hrep : Repeats img i j) (hb : StandsAt m limit q (encode (.opRun len1)))
      (rest : CodedFrom img n m limit j (q + 1)) : CodedFrom img n m limit i q
  | chunk {i q : Nat} (c : Instr) (hc : chunkOf (img i) (Codec.after img i).prev (Codec.after img i).cache = some c)
      (hb : StandsAt m limit q (encode c)) (rest : CodedFrom img n m limit (i + 1) (q + (encode c).length)) :
      CodedFrom img n m limit i q

/-- R173, R174: one pixel step before the bytes of the rest. -/
theorem codedFrom_of_pixelCoding {m : Memory} {limit : Nat} {r : BitVec 6} {sb : List Byte} (h : PassInv s)
    (he : EncodesImage img s) (hp : s.phase = .encPixels) (hpc : PixelCoding s r sb)
    (hb : StandsAt m limit s.outPos.toNat sb)
    (hrest : CodedFrom img s.job.n m limit (s.pixPos.toNat + 1 - r.toNat) (s.outPos.toNat + sb.length)) :
    CodedFrom img s.job.n m limit (s.pixPos.toNat - s.run.toNat) s.outPos.toNat := by
  obtain ⟨hf, -, hn⟩ := h.encPixels hp
  have hpend := hf.pending
  have h61 := hf.run
  cases hpc with
  | joins heq =>
    rwa [run_toNat_succ h hp, Nat.add_sub_add_right] at hrest
  | flushes heq =>
    exact .run s.run h61 (by omega) hn (he.pending_succ heq) hb hrest
  | breaks c hc =>
    have hc : chunkOf (img s.pixPos.toNat) (Codec.after img s.pixPos.toNat).prev (Codec.after img s.pixPos.toNat).cache =
        some c := by
      rw [← he.readPixel_eq, ← he.codec]
      exact hc
    rw [List.length_append, ← Nat.add_assoc] at hrest
    obtain ⟨hflush, hown⟩ := hb.append
    have hchunk := CodedFrom.chunk c hc hown hrest
    by_cases h0 : s.run = 0
    · rw [State.flushBytes, if_pos h0] at hchunk
      rwa [h0]
    · rw [State.flushBytes, if_neg h0] at hflush hchunk
      have hlen : (s.run - 1).toNat = s.run.toNat - 1 := run_toNat_pred h0
      have hpos : s.run.toNat ≠ 0 := fun e => h0 (BitVec.eq_of_toNat_eq e)
      exact .run (s.run - 1) (by omega) (by omega) (Nat.le_of_lt hn) he.pending hflush hchunk

/-- What a pass that completes has written at `q` stands there in any memory that holds its output. -/
theorem standsAt_of_written {k : Nat} {m : Memory} {q : Nat} {bs : List Byte} (h : PassInv s) (hh : s.host = [])
    (hr : Sys2Proof.core.run k s = .next t) (ht : t.phase = .done)
    (hm : ∀ a, a < t.outPos.toNat → m.read a = t.outBuf.read a) (hb : s.outBuf.readBytes q bs.length = bs)
    (hq : q + bs.length ≤ s.outPos.toNat) : StandsAt m t.outPos.toNat q bs := by
  obtain ⟨hle, hsame⟩ := run_outGrows h hh hr ht
  refine ⟨?_, hq.trans hle⟩
  rw [← hb, Memory.readBytes_length]
  refine Memory.readBytes_congr fun a _ ha => ?_
  rw [hm a (by omega), hsame (by rw [ht]; decide) a (by omega)]

/-- From any step of an encode pass that completes, the bytes still to come code the pixels still to come, the pending run
among them. -/
theorem codedFrom_of_run {k : Nat} {m : Memory} (h : PassInv s) (hh : s.host = []) (he : EncodesImage img s)
    (hp : s.phase = .encPixels ∨ s.phase = .encTrailer) (hr : Sys2Proof.core.run k s = .next t) (ht : t.phase = .done)
    (hm : ∀ a, a < t.outPos.toNat → m.read a = t.outBuf.read a) :
    CodedFrom img s.job.n m t.outPos.toNat (s.pixPos.toNat - s.run.toNat) s.outPos.toNat := by
  induction k generalizing s with
  | zero =>
    cases hr
    rcases hp with hp | hp <;> cases hp.symm.trans ht
  | succ k ih =>
    rcases hp with hp | hp
    · obtain ⟨u, -, hmove, hu, hrest⟩ := run_succ_engine hh hr
      have hiu := h.engineMove hmove
      rcases hmove.pixel_cases (pixelReady_of_passInv h hp) with ⟨herr, -⟩ | ⟨sb, hem, hcodec, hpc⟩
      · exact absurd herr (phase_ne_error_of_run hu hrest ht)
      have heu := he.of_pixelCoded h hp ⟨sb, hem, hcodec, hpc⟩
      have hpu : u.phase = .encPixels ∨ u.phase = .encTrailer := by
        rw [hem.phase]
        split
        · exact .inr rfl
        · exact .inl rfl
      have hcoded := ih hiu hu heu hpu hrest
      obtain ⟨hjob, -⟩ := hem.kept
      rw [hjob, hem.pixPos, hem.outPos] at hcoded
      exact codedFrom_of_pixelCoding h he hp hpc (standsAt_of_written hiu hu hrest ht hm hem.bytes hem.outPos.ge) hcoded
    · obtain ⟨-, -, hn, hrun⟩ := h.encTrailer hp
      exact .all (by rw [hrun]; exact hn)

/-- R112: what a header step that does not fail leaves at the start of a pass. -/
theorem State.encodeHeader_written (hf : Fresh s) {w ht : Word32} {c cs : Byte}
    (hne : (s.encodeHeader w ht c cs).phase ≠ .error) :
    (s.encodeHeader w ht c cs).phase = .encPixels ∧
    (s.encodeHeader w ht c cs).job.n = s.job.w.toNat * s.job.h.toNat ∧
    (s.encodeHeader w ht c cs).pixPos = 0 ∧ (s.encodeHeader w ht c cs).outPos = 14 ∧
    (s.encodeHeader w ht c cs).outBuf.readBytes 0 14 = encode (.header w ht c cs) := by
  obtain ⟨-, -, -, hpix, -, hout⟩ := hf
  rcases s.encodeHeader_cases w ht c cs with ⟨e, -, heq⟩ | ⟨-, -, -, heq⟩
  · exact absurd (congrArg State.phase heq) hne
  rw [heq, hout]
  exact ⟨rfl, rfl, hpix, rfl, Memory.readBytes_writeBytes s.outBuf 0 (encode (.header w ht c cs))⟩

theorem engineStep_encHeader (hp : s.phase = .encHeader) :
    engineStep s = .next (s.encodeHeader s.job.w s.job.h s.job.c s.job.cs) := by
  simp only [engineStep, hp]
  exact exec_encHeader hp

/-- R80, R112: what an encode pass that completes has written: the header at offset 0, and from offset 14 the chunks of the
whole image. -/
theorem coded_of_encodePass {k : Nat} {m : Memory} (h : PassInv s) (hh : s.host = []) (hp : s.phase = .encHeader)
    (hr : Sys2Proof.core.run k s = .next t) (ht : t.phase = .done)
    (hm : ∀ a, a < t.outPos.toNat → m.read a = t.outBuf.read a) :
    StandsAt m t.outPos.toNat 0 (encode (.header s.job.w s.job.h s.job.c s.job.cs)) ∧
    CodedFrom s.pixel (s.job.w.toNat * s.job.h.toNat) m t.outPos.toNat 0 14 := by
  obtain ⟨hmode, hfresh, -⟩ := h.encHeader hp
  cases k with
  | zero =>
    cases hr
    cases hp.symm.trans ht
  | succ k =>
    obtain ⟨u, hs, hmove, hu, hrest⟩ := run_succ_engine hh hr
    have hiu := h.engineMove hmove
    have heu := (encodesImage_of_fresh hmode hfresh).engineMove h hmove
    obtain rfl := Host.Outcome.next.inj (((step_engine hh).trans (engineStep_encHeader hp)).symm.trans hs)
    obtain ⟨hpu, hn, hpix, hout, hbytes⟩ := State.encodeHeader_written hfresh (phase_ne_error_of_run hu hrest ht)
    constructor
    · exact standsAt_of_written hiu hu hrest ht hm hbytes (by rw [hout]; exact Nat.le_refl 14)
    · have hcoded := codedFrom_of_run hiu hu heu (.inl hpu) hrest ht hm
      rw [hn, hpix, hout] at hcoded
      simpa using hcoded

/-! ### The decoder along the same image -/

/-- R193: the chunk fetch reads back a chunk from its bytes. -/
theorem fetchChunk_of_bytes {i : Instr} (hs : i.slot = .chunk) (hw : i.wellFormed s.params = true)
    (hb : StandsAt s.inBuf s.job.inLen.toNat s.inPos.toNat (encode i)) : s.fetchChunk = .ok i := by
  obtain ⟨hbytes, hl⟩ := hb
  obtain ⟨b0, more, he, hlen⟩ := chunkLen_encode_head i hs fun l hi => by
    subst hi
    exact of_decide_eq_true hw
  have hfirst : s.inBuf.read s.inPos.toNat = b0 := by
    rw [he] at hbytes
    exact (List.cons.inj hbytes).1
  have hpos : 1 ≤ (encode i).length := by rw [he]; exact Nat.le_add_left _ _
  have hd : decode .chunk (s.inBuf.readBytes s.inPos.toNat (encode i).length) = .ok (i, []) := by
    rw [hbytes, ← List.append_nil (encode i)]
    exact decodeChunk_encode hs hw []
  unfold State.fetchChunk
  simp only [hfirst, hlen, hd, if_neg (show ¬s.inPos.toNat ≥ s.job.inLen.toNat by omega), if_neg (Nat.not_lt.2 hl)]

/-- The decoder reads a stream of the image `img` of `n` pixels: its codec registers are those after the pixels done, and
what it has still to read codes the pixels still to come (R135). -/
structure DecodesImage (img : Nat → Pixel) (n : Nat) (s : State) : Prop where
  mode   : s.job.mode = .dec
  codec  : s.codec = Codec.after img s.pixPos.toNat
  header : s.phase = .decHeader → CodedFrom img n s.inBuf s.job.inLen.toNat 0 14 ∧ ∃ w h c cs,
    w.toNat * h.toNat = n ∧ StandsAt s.inBuf s.job.inLen.toNat 0 (encode (.header w h c cs))
  chunks : s.phase = .decChunks →
    s.job.n = n ∧ CodedFrom img n s.inBuf s.job.inLen.toNat s.pixPos.toNat s.inPos.toNat

/-- The codec registers of `t` are those after each pixel that the step from `s` to `t` covers. -/
def CoversPixels (img : Nat → Pixel) (s t : State) : Prop :=
  ∀ i, s.pixPos.toNat < i → i ≤ t.pixPos.toNat → t.codec = Codec.after img i

/-- A step that does no pixel covers none. -/
theorem coversPixels_of_eq (h : t.pixPos = s.pixPos) : CoversPixels img s t :=
  fun _ h1 h2 => absurd h1 (Nat.not_lt.2 (h ▸ h2))

/-- A failed pass keeps its codec registers (R223). -/
theorem DecodesImage.of_error {n : Nat} (hd : DecodesImage img n s) (hp : t.phase = .error)
    (hmode : t.job.mode = s.job.mode) (hcodec : t.codec = s.codec) (hpix : t.pixPos = s.pixPos) :
    DecodesImage img n t ∧ CoversPixels img s t := by
  refine ⟨⟨hmode.trans hd.mode, ?_, fun e => ?_, fun e => ?_⟩, coversPixels_of_eq hpix⟩
  · rw [hcodec, hpix]; exact hd.codec
  · cases hp.symm.trans e
  · cases hp.symm.trans e

/-- A chunk of `len` bytes and `k` pixels, the codec registers after each of which are those of `t`. -/
theorem DecodesImage.of_decoded {n k len : Nat} {p : Pixel} (hd : DecodesImage img n s) (hp : s.phase = .decChunks)
    (hdec : Decoded s t p k len) (hk : s.pixPos.toNat + k ≤ s.job.n) (hpos : 0 < k)
    (hl : s.inPos.toNat + len ≤ s.job.inLen.toNat)
    (hcov : ∀ i, s.pixPos.toNat < i → i ≤ s.pixPos.toNat + k → t.codec = Codec.after img i)
    (hrest : CodedFrom img n s.inBuf s.job.inLen.toNat (s.pixPos.toNat + k) (s.inPos.toNat + len)) :
    DecodesImage img n t ∧ CoversPixels img s t := by
  obtain ⟨hn, -⟩ := hd.chunks hp
  obtain ⟨-, hjob, hin, -⟩ := hdec.kept
  refine ⟨⟨by rw [hjob]; exact hd.mode, ?_, fun e => ?_, fun _ => ⟨by rw [hjob]; exact hn, ?_⟩⟩, ?_⟩
  · rw [hdec.pixPos]
    exact hcov _ (Nat.lt_add_of_pos_right hpos) (Nat.le_refl _)
  · rcases phase_of_decoded hdec hk with hpt | hpt <;> cases hpt.symm.trans e
  · rw [hjob, hin, hdec.pixPos, hdec.inPos, addr_toNat_add hl]
    exact hrest
  · intro i h1 h2
    rw [hdec.pixPos] at h2
    exact hcov i h1 h2

/-- R113: the header step. -/
theorem DecodesImage.headerStep {n : Nat} (hd : DecodesImage img n s) (h : PassInv s) (hp : s.phase = .decHeader)
    (hs : engineStep s = .next t) : DecodesImage img n t ∧ CoversPixels img s t := by
  obtain ⟨hcoded, w, ht, c, cs, hn, hb, hl⟩ := hd.header hp
  obtain ⟨-, -, -, -, hpix, -⟩ := h.decHeader hp
  have hl : 14 ≤ s.job.inLen.toNat := (Nat.zero_add _).symm.trans_le hl
  have hstep := (engineStep_decHeader_ok hp (fetchHeader_of_bytes hl hb)).trans (exec_decHeader hp w ht c cs)
  obtain rfl := Host.Outcome.next.inj (hstep.symm.trans hs)
  rcases s.decodeHeader_cases w ht c cs with ⟨e, -, he⟩ | ⟨-, -, he⟩ | ⟨-, -, he⟩ <;> rw [he]
  · exact hd.of_error rfl rfl rfl rfl
  · exact hd.of_error rfl rfl rfl rfl
  · refine ⟨⟨hd.mode, hd.codec, nofun, fun _ => ⟨hn, ?_⟩⟩, coversPixels_of_eq rfl⟩
    rw [State.acceptHeader_pixPos, hpix]
    exact hcoded

/-- R143 to R153: a chunk step meets the chunk that codes its pixels, and does them. -/
theorem DecodesImage.chunkStep {n : Nat} (hd : DecodesImage img n s) (h : PassInv s) (hp : s.phase = .decChunks)
    (hs : engineStep s = .next t) : DecodesImage img n t ∧ CoversPixels img s t := by
  have hr := h.chunkReady hp
  obtain ⟨hn, hcoded⟩ := hd.chunks hp
  have hlt := hr.pixels
  cases hcoded with
  | all hi => omega
  | run len1 hl61 hj hjn hrep hb hrest =>
    have hf := fetchChunk_of_bytes (i := .opRun len1) rfl (decide_eq_true hl61) hb
    have hstep := (engineStep_decChunks_ok hp hlt hf).trans (exec_decChunks_run hp len1)
    obtain rfl := Host.Outcome.next.inj (hstep.symm.trans hs)
    obtain ⟨-, -, hdec⟩ := State.decodeRun_spec hr (len1.toNat + 1)
    rw [Nat.min_eq_left (by omega)] at hdec
    subst hj
    refine hd.of_decoded hp hdec (by omega) (Nat.succ_pos _) hb.2 (fun i h1 h2 => ?_) hrest
    have hrep : Repeats img s.pixPos.toNat i := fun k hk hki => hrep k hk (by omega)
    rw [s.decodeRun_codec, hd.codec, hrep.after_eq (Nat.le_of_lt h1)]
  | chunk c hc hb hrest =>
    rw [← hd.codec] at hc
    have hne : img s.pixPos.toNat ≠ s.prev := ne_prev_of_chunkOf hc
    obtain ⟨c', hc', hslot, hrun⟩ := chunkOf_some hne s.cache
    obtain rfl := Option.some.inj (hc'.symm.trans hc)
    obtain ⟨len, hpx⟩ := chunkOf_exact hc
    have hf := fetchChunk_of_bytes hslot (wellFormed_of_chunk hslot hrun _) hb
    have hstep := (engineStep_decChunks_ok hp hlt hf).trans (exec_decChunks_pixel hp hpx)
    obtain rfl := Host.Outcome.next.inj (hstep.symm.trans hs)
    obtain ⟨-, hdec⟩ := State.decodePixel_spec hr (img s.pixPos.toNat) len
    rw [← chunkPixel_length hpx] at hrest
    refine hd.of_decoded hp hdec hlt Nat.one_pos ?_ (fun i h1 h2 => ?_) hrest
    · rw [chunkPixel_length hpx]; exact hb.2
    · obtain rfl : i = s.pixPos.toNat + 1 := by omega
      rw [s.decodePixel_codec, Codec.after, ← hd.codec]
      exact (Codec.next_of_ne hne).symm

theorem DecodesImage.step {n : Nat} (hd : DecodesImage img n s) (h : PassInv s) (hs : engineStep s = .next t) :
    DecodesImage img n t ∧ CoversPixels img s t := by
  have rests (e : engineStep s = .next s) : DecodesImage img n t ∧ CoversPixels img s t := by
    cases e.symm.trans hs
    exact ⟨hd, coversPixels_of_eq rfl⟩
  cases hp : s.phase with
  | idle => exact rests (by simp only [engineStep, hp])
  | done => exact rests (by simp only [engineStep, hp])
  | error => exact rests (by simp only [engineStep, hp])
  | decHeader => exact hd.headerStep h hp hs
  | decChunks => exact hd.chunkStep h hp hs
  | encHeader =>
    obtain ⟨hmode, -⟩ := h.encHeader hp
    cases hmode.symm.trans hd.mode
  | encPixels =>
    obtain ⟨hf, -⟩ := h.encPixels hp
    cases hf.mode.symm.trans hd.mode
  | encTrailer =>
    obtain ⟨hf, -⟩ := h.encTrailer hp
    cases hf.mode.symm.trans hd.mode

/-- A decode pass just started on the bytes of an encode pass that completes decodes its image. -/
theorem decodesImage_of_encodePass {d : State} {k : Nat} (h : PassInv s) (hh : s.host = []) (hp : s.phase = .encHeader)
    (hr : Sys2Proof.core.run k s = .next t) (ht : t.phase = .done) (hd : PassInv d) (hpd : d.phase = .decHeader)
    (hlen : d.job.inLen = t.csr.outLen) (hm : ∀ a, a < t.csr.outLen.toNat → d.inBuf.read a = t.outBuf.read a) :
    DecodesImage s.pixel (s.job.w.toNat * s.job.h.toNat) d := by
  obtain ⟨hout, -⟩ := ended_of_done (passInv_run h hr) ht
  rw [hout] at hlen hm
  obtain ⟨hheader, hcoded⟩ := coded_of_encodePass h hh hp hr ht hm
  obtain ⟨hmode, hfresh⟩ := hd.decHeader hpd
  have hcodec := codec_of_fresh hfresh
  obtain ⟨-, -, -, hpix, -⟩ := hfresh
  rw [← hlen] at hheader hcoded
  refine ⟨hmode, ?_, fun _ => ⟨hcoded, _, _, _, _, rfl, hheader⟩, fun e => ?_⟩
  · rw [hcodec, hpix]; rfl
  · cases hpd.symm.trans e

/-- R135, the decoder's side: at every step of a decode pass. -/
theorem decodesImage_run {n k : Nat} (h : PassInv s) (hh : s.host = []) (hd : DecodesImage img n s)
    (hr : Sys2Proof.core.run k s = .next t) : t.host = [] ∧ PassInv t ∧ DecodesImage img n t :=
  run_keeps (P := fun u => PassInv u ∧ DecodesImage img n u) (fun u v hu ⟨hi, hdu⟩ hs => by
    have he := (step_engine hu).symm.trans hs
    obtain ⟨hdv, -⟩ := hdu.step hi he
    exact ⟨hi.engineMove (engineMove_of_next he), hdv⟩) hh ⟨h, hd⟩ hr

/-- Settles O56: on either side the codec registers are those after the pixels done, in the one image. -/
theorem cachesStayInStep : Obligations.CachesStayInStep := by
  intro s t d k h hh hp hr ht hd hhd hpd _ hlen hm _ _ e u hre hru
  have same {a b : State} (hc : a.codec = b.codec) : a.cache = b.cache ∧ a.prev = b.prev :=
    ⟨congrArg Codec.cache hc, congrArg Codec.prev hc⟩
  obtain ⟨hmode, hfresh, -⟩ := h.encHeader hp
  have hee := encodesImage_run h hh (encodesImage_of_fresh hmode hfresh) hre
  have hdd := decodesImage_of_encodePass h hh hp hr ht hd hpd hlen hm
  obtain ⟨hhu, hiu, hdu⟩ := decodesImage_run hd hhd hdd hru
  refine ⟨fun _ hpix => same ?_, fun v hs hlt hle => same ?_⟩
  · rw [hdu.codec, hee.codec, hpix]
  · obtain ⟨-, hcov⟩ := hdu.step hiu ((step_engine hhu).symm.trans hs)
    rw [hcov _ hlt hle, hee.codec]

end Sys2Proof.Machine

namespace Sys2Proof.Machine

open Sys2Proof.Safety

variable {s t : State}

/-! ### A chunk that stands for a pixel, applied (42_chunk_codec.md) -/

/-- R140: a state whose `prev` and cache are those of the non-run update. -/
theorem nonRun_of_store {px : Pixel} (hprev : t.prev = px) (hcache : t.cache = store s.cache (cacheIndex px) px) :
    NonRun s t px := by
  refine ⟨hprev, ?_, fun i hi => ?_⟩ <;> rw [hcache]
  · exact lookup_store_same _ _ _
  · exact lookup_store_other hi _ _

/-- R145, R147, R149, R151, R153: what every chunk but an OP_RUN does to a decode pass. -/
theorem exec_decodes_pixel {i : Instr} {px : Pixel} {len : Nat} (hr : ChunkReady s)
    (h : chunkPixel s i = some (px, len)) : ∃ t, exec i s = .next t ∧ NonRun s t px ∧ Decoded s t px 1 len :=
  ⟨_, exec_decChunks_pixel hr.phase h, State.decodePixel_spec hr px len⟩

/-- Settles O15: the chunk stands for the pixel in its slot. -/
theorem indexDecodes : Obligations.IndexDecodes := fun _ _ hr => exec_decodes_pixel hr rfl

/-- Settles O19: the pixel of OP_RGB has the alpha of `prev`. -/
theorem rgbDecodes : Obligations.RgbDecodes := fun _ _ _ _ hr => exec_decodes_pixel hr rfl

/-- Settles O20: the chunk stands for its four samples. -/
theorem rgbaDecodes : Obligations.RgbaDecodes := fun _ _ _ _ _ hr => exec_decodes_pixel hr rfl

/-- Settles O18: what `decodeRun` does, for a run one longer than the field. -/
theorem runDecodes : Obligations.RunDecodes := fun _ len1 hr =>
  ⟨_, exec_decChunks_run hr.phase len1, State.decodeRun_spec hr (len1.toNat + 1)⟩

/-- R147: the samples of OP_DIFF in exact integers, wrapped once. -/
theorem diffPixel_eq (p : Pixel) (dr2 dg2 db2 : BitVec 2) :
    diffPixel p dr2 dg2 db2 = ⟨BitVec.ofInt 8 (p.r.toNat + dr2.toNat - 2), BitVec.ofInt 8 (p.g.toNat + dg2.toNat - 2),
      BitVec.ofInt 8 (p.b.toNat + db2.toNat - 2), p.a⟩ := by
  simp [diffPixel, Int.sub_eq_add_neg, BitVec.ofInt_add, BitVec.ofInt_neg, BitVec.sub_eq_add_neg]

/-- R149: the samples of OP_LUMA in exact integers, wrapped once. -/
theorem lumaPixel_eq (p : Pixel) (dg32 : BitVec 6) (drg8 dbg8 : BitVec 4) :
    lumaPixel p dg32 drg8 dbg8 =
      ⟨BitVec.ofInt 8 (p.r.toNat + (dg32.toNat - 32 : Int) - 8 + drg8.toNat),
        BitVec.ofInt 8 (p.g.toNat + (dg32.toNat - 32 : Int)),
        BitVec.ofInt 8 (p.b.toNat + (dg32.toNat - 32 : Int) - 8 + dbg8.toNat), p.a⟩ := by
  simp [lumaPixel, Int.sub_eq_add_neg, BitVec.ofInt_add, BitVec.ofInt_neg, BitVec.sub_eq_add_neg]

/-- Settles O16: the chunk stands for `diffPixel`, in exact integers. -/
theorem diffDecodes : Obligations.DiffDecodes := fun s dr2 dg2 db2 hr =>
  exec_decodes_pixel hr (congrArg (fun px => some (px, 1)) (diffPixel_eq s.prev dr2 dg2 db2))

/-- Settles O17: the chunk stands for `lumaPixel`, in exact integers. -/
theorem lumaDecodes : Obligations.LumaDecodes := fun s dg32 drg8 dbg8 hr =>
  exec_decodes_pixel hr (congrArg (fun px => some (px, 2)) (lumaPixel_eq s.prev dg32 drg8 dbg8))

/-! ### The tag dispatcher (R154) -/

/-- R154 with each tier's chunk in its place. -/
theorem chunkOf_eq (px prev : Pixel) (cache : Vector Pixel 64) :
    chunkOf px prev cache =
      if px = prev then none
      else if lookup cache (cacheIndex px) = px then some (.opIndex (cacheIndex px))
      else if px.a ≠ prev.a then some (.opRgba px.r px.g px.b px.a)
      else if (-2 ≤ deltaR px prev ∧ deltaR px prev ≤ 1) ∧ (-2 ≤ deltaG px prev ∧ deltaG px prev ≤ 1) ∧
          (-2 ≤ deltaB px prev ∧ deltaB px prev ≤ 1) then some (diffChunk px prev)
      else if (-32 ≤ deltaG px prev ∧ deltaG px prev ≤ 31) ∧ (-8 ≤ deltaRG px prev ∧ deltaRG px prev ≤ 7) ∧
          (-8 ≤ deltaBG px prev ∧ deltaBG px prev ≤ 7) then some (lumaChunk px prev)
      else some (.opRgb px.r px.g px.b) := by
  unfold chunkOf classify
  split_ifs <;> rfl

/-- R146: the fields of OP_DIFF are the biased sums when none of them is negative. -/
theorem diffChunk_eq {px prev : Pixel} (hr : -2 ≤ deltaR px prev) (hg : -2 ≤ deltaG px prev) (hb : -2 ≤ deltaB px prev) :
    diffChunk px prev = .opDiff (BitVec.ofNat 2 (deltaR px prev + 2).toNat) (BitVec.ofNat 2 (deltaG px prev + 2).toNat)
      (BitVec.ofNat 2 (deltaB px prev + 2).toNat) := by
  rw [diffChunk, biased_eq, biased_eq, biased_eq] <;> omega

/-- R148: the fields of OP_LUMA are the biased sums when none of them is negative. -/
theorem lumaChunk_eq {px prev : Pixel} (hg : -32 ≤ deltaG px prev) (hrg : -8 ≤ deltaRG px prev)
    (hbg : -8 ≤ deltaBG px prev) :
    lumaChunk px prev = .opLuma (BitVec.ofNat 6 (deltaG px prev + 32).toNat)
      (BitVec.ofNat 4 (deltaRG px prev + 8).toNat) (BitVec.ofNat 4 (deltaBG px prev + 8).toNat) := by
  rw [lumaChunk, biased_eq, biased_eq, biased_eq] <;> omega

/-- The range of OP_DIFF's deltas, value by value (R146). -/
theorem diff_range_iff (v : Int) : -2 ≤ v ∧ v ≤ 1 ↔ v = -2 ∨ v = -1 ∨ v = 0 ∨ v = 1 := by omega

/-- The two spellings of a range of integers: upper end in, or one above it out. -/
theorem le_and_le_iff_lt_add_one (low v high : Int) : low ≤ v ∧ v ≤ high ↔ low ≤ v ∧ v < high + 1 :=
  and_congr_right' Int.lt_add_one_iff.symm

/-- Settles O24: tier by tier; in a tier's range none of its biased sums is negative. -/
theorem dispatcherPriority : Obligations.DispatcherPriority := by
  intro px prev cache dr dg db
  rw [chunkOf_eq]
  refine ite_congr rfl (fun _ => rfl) fun _ => ite_congr rfl (fun _ => rfl) fun _ => ite_congr rfl (fun _ => rfl) fun _ =>
    ite_congr ?_ (fun hdiff => ?_) fun _ => ite_congr ?_ (fun hluma => ?_) fun _ => rfl
  · exact propext (and_congr (diff_range_iff dr) (and_congr (diff_range_iff dg) (diff_range_iff db)))
  · obtain ⟨hr, hg, hb⟩ := hdiff
    exact congrArg some (diffChunk_eq ((diff_range_iff _).2 hr).1 ((diff_range_iff _).2 hg).1 ((diff_range_iff _).2 hb).1)
  · exact propext (and_congr (le_and_le_iff_lt_add_one _ dg 31)
      (and_congr (le_and_le_iff_lt_add_one _ (dr - dg) 7) (le_and_le_iff_lt_add_one _ (db - dg) 7)))
  · obtain ⟨⟨hg, -⟩, ⟨hrg, -⟩, hbg, -⟩ := hluma
    exact congrArg some (lumaChunk_eq hg hrg hbg)

/-! ### A pixel emitted (R173) -/

/-- R173: everything a pixel step that fits leaves, from the run counter and the cache it writes. -/
theorem State.endPixelStep_spec {sb : List Byte} (hr : PixelReady s) (h : Fits s sb) (r : BitVec 6) (prev px : Pixel)
    (cache : Vector Pixel 64) (ht : t = s.endPixelStep { s with run := r, prev := prev, cache := cache } px sb) :
    t.run = r ∧ t.prev = px ∧ t.cache = cache ∧ Emitted s t sb := by
  subst ht
  have hem := State.endPixelStep_emitted (t := { s with run := r, prev := prev, cache := cache }) hr h rfl
    ⟨rfl, rfl, rfl, rfl, rfl, rfl, rfl⟩ px
  refine ⟨?_, ?_, ?_, hem⟩ <;> rw [State.endPixelStep_fits h]

/-- Settles O25: the pixel step's end, with the pending run's byte before the chunk. -/
theorem chunkEmits : Obligations.ChunkEmits := by
  intro s i hr hne hi sb hfit
  have hsb : sb = s.flushBytes ++ encode i := by rw [flushBytes_eq]
  rw [hsb] at hfit ⊢
  obtain ⟨hrun, hprev, hcache, hem⟩ := State.endPixelStep_spec hr hfit 0 s.readPixel s.readPixel
    (store s.cache (cacheIndex s.readPixel) s.readPixel) rfl
  exact ⟨_, exec_encPixels_chunk hr hne hi, nonRun_of_store hprev hcache, hrun, hem⟩

/-- Settles O26: the pixel step's end, with the run's byte and the cache as it was. -/
theorem runFlushes : Obligations.RunFlushes := by
  intro s hr heq _ hend sb hfit
  have hsb : sb = encode (.opRun s.run) := by rw [encode, run_byte]
  rw [hsb] at hfit ⊢
  obtain ⟨hrun, hprev, hcache, hem⟩ := State.endPixelStep_spec hr hfit 0 s.prev s.readPixel s.cache rfl
  exact ⟨_, exec_encPixels_run hr heq hend, hrun, hprev.trans heq, hcache, hem⟩

/-! ### The codec's properties (R157, R158) -/

/-- Settles O33: the chosen chunk stands for its pixel, and the decoder writes that one pixel. -/
theorem codecIsExact : Obligations.CodecIsExact := by
  intro px s i hr hi
  obtain ⟨len, hp⟩ := chunkOf_exact hi
  obtain ⟨t, ht, hn, hd⟩ := exec_decodes_pixel hr hp
  exact ⟨t, ht, hn.prev, hd.written 0 Nat.one_pos⟩

/-- R157: of the chunks only OP_INDEX and OP_RGBA stand for a pixel whose alpha is not that of `prev`. -/
theorem chunkPixel_alpha {i : Instr} {px : Pixel} {len : Nat} (h : chunkPixel s i = some (px, len))
    (ha : px.a ≠ s.prev.a) : (∃ x, i = .opIndex x) ∨ ∃ r g b a, i = .opRgba r g b a := by
  cases i with
  | opIndex x => exact .inl ⟨x, rfl⟩
  | opRgba r g b a => exact .inr ⟨r, g, b, a, rfl⟩
  | opRun | header | endMarker => cases h
  | opDiff | opLuma | opRgb =>
    cases h
    exact absurd rfl ha

/-- A record applied in DEC_CHUNKS keeps `prev` (R143) or makes it the pixel the chunk stands for (R140). -/
theorem exec_decChunks_prev {i : Instr} (hp : s.phase = .decChunks) (h : exec i s = .next t) :
    t.prev = s.prev ∨ ∃ len, chunkPixel s i = some (t.prev, len) := by
  cases hi : chunkPixel s i with
  | some q =>
    obtain ⟨px, len⟩ := q
    cases (exec_decChunks_pixel hp hi).symm.trans h
    have hprev : (s.decodePixel px len).prev = px := congrArg Codec.prev (s.decodePixel_codec px len)
    exact .inr ⟨len, by rw [hprev]⟩
  | none =>
    cases i with
    | opRun len1 =>
      cases (exec_decChunks_run hp len1).symm.trans h
      exact .inl (congrArg Codec.prev (s.decodeRun_codec _))
    | header => simp [exec, execHeader, hp] at h
    | endMarker => simp [exec, execEndMarker, hp] at h
    | _ => cases hi

/-- Settles O34: both directions by the pixel a chunk stands for. -/
theorem onlyRgbaAndIndexChangeAlpha : Obligations.OnlyRgbaAndIndexChangeAlpha := by
  refine ⟨fun s t i hp h ha => ?_, fun px prev cache i ha hi => ?_⟩
  · obtain hkept | ⟨len, hi⟩ := exec_decChunks_prev hp h
    · exact absurd (congrArg Pixel.a hkept) ha
    · exact chunkPixel_alpha hi ha
  · obtain ⟨len, hp⟩ := chunkOf_exact (s := { State.reset with prev := prev, cache := cache }) hi
    exact chunkPixel_alpha hp ha

end Sys2Proof.Machine

namespace Sys2Proof.Machine

open Sys2Proof.Safety

variable {s s' t t' : State}

/-! ### START (R170, R190) -/

/-- R31, R170, R190: a write of CTRL with START = 1 outside a pass keeps MODE and starts a pass of that mode. -/
theorem State.writeCsr_start {v : BitVec 64} (hb : s.busy = false) (hs : v.getLsbD 0 = true) : s.writeCsr 0 v =
    { s with csr := { s.csr with ctrl := if v.getLsbD 1 then 2 else 0 } }.start (if v.getLsbD 1 then .dec else .enc) := by
  have hs32 : (v.setWidth 32).getLsbD 0 = true := by simpa using hs
  have hm32 : (v.setWidth 32).getLsbD 1 = v.getLsbD 1 := by simp
  rw [State.writeCsr, if_neg (by simp [hb])]
  show s.writeCtrl (v.setWidth 32) = _
  simp only [State.writeCtrl, if_pos hs32, modeBit_eq, hm32]

/-- Settles O7: the accepted START, in the two modes. -/
theorem startOpensPass : Obligations.StartOpensPass := by
  intro s rest v hh hb hs
  have hstart := State.writeCsr_start (s := { s with host := rest }) hb hs
  refine ⟨_, (step_host hh).trans (congrArg Host.Outcome.next hstart), ?_⟩
  cases v.getLsbD 1
  · exact ⟨⟨rfl, rfl, rfl, rfl, rfl, rfl⟩, rfl, rfl, rfl, rfl, rfl, rfl, rfl, rfl, rfl,
      fun _ => ⟨rfl, rfl, rfl, rfl, rfl, rfl, rfl⟩, nofun⟩
  · exact ⟨⟨rfl, rfl, rfl, rfl, rfl, rfl⟩, rfl, rfl, rfl, rfl, rfl, rfl, rfl, rfl, rfl, nofun, fun _ => ⟨rfl, rfl⟩⟩

/-! ### An instruction outside its phase (R171, R191) -/

/-- Every chunk has its meaning from its two directions. -/
theorem exec_chunk {i : Instr} (hs : i.slot = .chunk) (s : State) :
    ∃ applied emitted, exec i s = runChunk i applied emitted s := by
  cases i with
  | header | endMarker => cases hs
  | _ => exact ⟨_, _, rfl⟩

/-- A record in a header slot is a header. -/
theorem eq_header_of_slot {i : Instr} (hs : i.slot = .header) : ∃ w h c cs, i = .header w h c cs := by
  cases i with
  | header w h c cs => exact ⟨w, h, c, cs, rfl⟩
  | _ => cases hs

/-- A record in a trailer slot is the end marker. -/
theorem eq_endMarker_of_slot {i : Instr} (hs : i.slot = .trailer) : i = .endMarker := by
  cases i with
  | endMarker => rfl
  | _ => cases hs

/-- R225, R235: in IDLE, DONE and ERROR no instruction changes anything. -/
theorem exec_ended (i : Instr) (hp : s.phase = .idle ∨ s.phase = .done ∨ s.phase = .error) : exec i s = .next s := by
  cases hs : i.slot with
  | chunk =>
    obtain ⟨a, e, he⟩ := exec_chunk hs s
    rw [he]
    rcases hp with hp | hp | hp <;> simp only [runChunk, hp]
  | header =>
    obtain ⟨w, h, c, cs, rfl⟩ := eq_header_of_slot hs
    rcases hp with hp | hp | hp <;> simp only [exec, execHeader, hp]
  | trailer =>
    obtain rfl := eq_endMarker_of_slot hs
    rcases hp with hp | hp | hp <;> simp only [exec, execEndMarker, hp]

/-- Settles O14: chunk, header and end marker, each by the phases that do not run it. -/
theorem execOutsideItsPhase : Obligations.ExecOutsideItsPhase := by
  intro s i
  refine ⟨exec_ended i, fun hs hp => ?_, fun hs hp hne => ?_, fun hs hp => ?_, fun hs hp hne => ?_, fun hi hp => ?_⟩
  · obtain ⟨a, e, he⟩ := exec_chunk hs s
    rw [he]
    rcases hp with hp | hp | hp <;> simp only [runChunk, hp]
  · obtain ⟨a, e, he⟩ := exec_chunk hs s
    simp only [he, runChunk, hp, hne, and_false, if_false]
  · obtain ⟨w, h, c, cs, rfl⟩ := eq_header_of_slot hs
    rcases hp with hp | hp | hp <;> simp only [exec, execHeader, hp]
  · obtain ⟨w, h, c, cs, rfl⟩ := eq_header_of_slot hs
    simp only [exec, execHeader, hp]
    exact if_neg fun ⟨hw, hh, hc, hcs⟩ => hne (by rw [hw, hh, hc, hcs])
  · subst hi
    rcases hp with hp | hp | hp | hp <;> simp only [exec, execEndMarker, hp]

/-! ### The pixel step as one equation (R173, R174) -/

/-- R173, R174: the bytes of the pixel step: the pending run when the pixel breaks it, then the chunk the step emits. -/
def State.stepBytes (s : State) : List Byte :=
  (if s.readPixel = s.prev then [] else s.flushBytes) ++ s.nextChunk.elim [] encode

/-- R173, R174: the run counter after the pixel step: a run goes on only when nothing is emitted. -/
def State.stepRun (s : State) : BitVec 6 := if s.nextChunk = none then s.run + 1 else 0

theorem engineStep_encPixels_some {i : Instr} (hr : PixelReady s) (hi : s.nextChunk = some i) :
    engineStep s = exec i s := by
  simp only [engineStep, hr.phase, if_pos hr.pixels, hi]

theorem engineStep_encPixels_none (hr : PixelReady s) (hi : s.nextChunk = none) :
    engineStep s = .next s.encodeRunOn := by
  simp only [engineStep, hr.phase, if_pos hr.pixels, hi]

theorem engineStep_encTrailer (hp : s.phase = .encTrailer) : engineStep s = .next s.encodeEnd := by
  simp only [engineStep, hp]
  exact exec_encTrailer hp

theorem engineStep_ended (hp : s.phase = .idle ∨ s.phase = .done ∨ s.phase = .error) : engineStep s = .next s := by
  rcases hp with hp | hp | hp <;> simp only [engineStep, hp]

/-- A step that emits nothing has a pixel of the run. -/
theorem readPixel_eq_prev_of_nextChunk_none (hi : s.nextChunk = none) : s.readPixel = s.prev := by
  by_contra hne
  obtain ⟨i, hc, -⟩ := chunkOf_some hne s.cache
  cases ((nextChunk_chunk hne).trans hc).symm.trans hi

/-- R173: the pixel step, whatever its pixel: `stepBytes` is committed, `prev` and the cache go on by the pixel (R140,
R142), and the run counter is `stepRun`. -/
theorem engineStep_encPixels (hr : PixelReady s) : engineStep s = .next
    (s.endPixelStep { s with run := s.stepRun, cache := (s.codec.next s.readPixel).cache } s.readPixel s.stepBytes) := by
  by_cases heq : s.readPixel = s.prev
  · have hcache : (s.codec.next s.readPixel).cache = s.cache := by rw [heq]; exact congrArg _ s.codec.next_prev
    rw [hcache, State.stepBytes, if_pos heq, State.stepRun]
    have hnext := nextChunk_run heq
    split_ifs at hnext with hf
    · rw [engineStep_encPixels_some hr hnext, exec_encPixels_run hr heq hf, hnext]
      rfl
    · rw [engineStep_encPixels_none hr hnext, hnext]
      rfl
  · have hcache : (s.codec.next s.readPixel).cache = store s.cache (cacheIndex s.readPixel) s.readPixel :=
      congrArg _ (Codec.next_of_ne (c := s.codec) heq)
    obtain ⟨i, hi, -⟩ := chunkOf_some heq s.cache
    have hnext := (nextChunk_chunk heq).trans hi
    rw [engineStep_encPixels_some hr hnext, exec_encPixels_chunk hr heq hi, hcache, State.stepBytes, if_neg heq,
      State.stepRun, hnext]
    rfl

/-- Settles O13: header, pixel and trailer step; a run that goes on emits no byte. -/
theorem stepRunsEncoderRecord : Obligations.StepRunsEncoderRecord := by
  intro s hh
  rw [step_engine hh]
  refine ⟨fun hp => (engineStep_encHeader hp).trans (exec_encHeader hp).symm,
    fun hp => (engineStep_encTrailer hp).trans (exec_encTrailer hp).symm, fun hr i => engineStep_encPixels_some hr,
    fun hr hi hfit => ?_⟩
  · have heq := readPixel_eq_prev_of_nextChunk_none hi
    obtain ⟨hrun, hprev, hcache, hem⟩ := State.endPixelStep_spec hr hfit (s.run + 1) s.prev s.readPixel s.cache rfl
    exact ⟨_, engineStep_encPixels_none hr hi, hem, hrun, hprev.trans heq, hcache⟩

/-- R173, R174: how many bytes a pixel step emits, by what becomes of the pending run. -/
theorem State.stepBytes_length (s : State) : s.stepBytes.length =
    (if s.readPixel = s.prev then 0 else if s.run.toNat = 0 then 0 else 1) + (s.nextChunk.elim [] encode).length := by
  rw [State.stepBytes, List.length_append, apply_ite List.length, flushBytes_length, List.length_nil]

/-- Settles O27: the commit of the pixel step, and that of the trailer step. -/
theorem encodeOverflowRaises : Obligations.EncodeOverflowRaises := by
  intro s hh
  rw [step_engine hh]
  refine ⟨fun hr hover => ⟨_, engineStep_encPixels hr, ?_⟩,
    fun hp hover => ⟨_, ?_, s.raise_failedKeepingCsrs .outOverflow⟩⟩
  · have hrun : s.run.toNat = 0 ↔ s.run = 0 := (BitVec.toNat_inj (y := 0)).trans Iff.rfl
    have hlong : s.job.outCap.toNat < s.outPos.toNat + s.stepBytes.length := by
      rw [State.stepBytes_length]
      refine hover.trans_eq (congrArg _ ?_)
      by_cases heq : s.readPixel = s.prev <;> cases s.nextChunk <;> simp [heq, hrun]
    rw [State.endPixelStep_overflow hlong]
    exact s.raise_failedKeepingCsrs .outOverflow
  · rw [engineStep_encTrailer hp, State.encodeEnd, if_pos (by exact hover)]

/-- Settles O35: OP_RGBA has five bytes, and a chunk of a 3-channel image has at most four. -/
theorem threeChannelsNeverRgba : Obligations.ThreeChannelsNeverRgba := by
  intro s r g b a h hp hc hi
  obtain ⟨hf, -⟩ := h.encPixels hp
  by_cases heq : s.readPixel = s.prev
  · rw [nextChunk_run heq] at hi
    split at hi <;> cases hi
  · obtain ⟨-, hl⟩ := chunkOf_length ((nextChunk_chunk heq).symm.trans hi) (c := 3) (.inl rfl) fun _ => by
      rw [readPixel_alpha hc, hf.alpha hc]
    simp [encode] at hl

/-! ### An encode pass with enough OUT_CAP (R171, R176, R177, R179) -/

/-- A run goes on by one more step. -/
theorem run_snoc {k : Nat} {u : State} (hh : s.host = []) (hr : Sys2Proof.core.run k s = .next t) (hs : step t = .next u) :
    Sys2Proof.core.run (k + 1) s = .next u := by
  induction k generalizing s with
  | zero => cases hr; exact run_succ 0 hs
  | succ k ih =>
    obtain ⟨v, hv, -, hvh, hrest⟩ := run_succ_engine hh hr
    exact (run_succ (k + 1) hv).trans (ih hvh hrest)

/-- R111: a legal job with the IN_LEN of its image passes every check. -/
theorem jobError_none {p : Config.Params} {j : Job} (hlegal : legalHeader p j.w j.h j.c j.cs = true)
    (hlen : j.inLen.toNat = j.w.toNat * j.h.toNat * j.c.toNat) : jobError p j = none := by
  simp [jobError, fieldError_none_iff.2 hlegal, hlen]

/-- R179: with its own pixel done, a pixel step has not written past the bound, C + 1 bytes for each pixel. -/
theorem stepBytes_bound (h : PassInv s) (hp : s.phase = .encPixels) :
    s.outPos.toNat + s.stepBytes.length ≤ 14 + (s.pixPos.toNat + 1) * (s.job.c.toNat + 1) := by
  obtain ⟨hf, -, -⟩ := h.encPixels hp
  obtain ⟨-, hchan, -⟩ := legalJob_bounds h.params hf.legal
  have hpend := hf.pending
  have hhigh := hf.sizeHigh
  rw [State.stepBytes_length]
  by_cases heq : s.readPixel = s.prev
  · have hchunk : (s.nextChunk.elim [] encode).length ≤ 1 := by
      rw [nextChunk_run heq]
      split <;> simp [encode]
    rw [if_pos heq]
    rcases channels_toNat hchan with hc | hc <;> rw [hc] at hhigh ⊢ <;> omega
  · obtain ⟨i, hi, -⟩ := chunkOf_some heq s.cache
    have hchunk : (s.nextChunk.elim [] encode).length ≤ s.job.c.toNat + 1 := by
      rw [nextChunk_chunk heq, hi]
      refine (chunkOf_length hi (channels_toNat hchan) fun hc => ?_).2
      have hc3 : s.job.c = 3 := BitVec.eq_of_toNat_eq hc
      rw [readPixel_alpha hc3, hf.alpha hc3]
    rw [if_neg heq]
    rcases channels_toNat hchan with hc | hc <;> rw [hc] at hhigh hchunk ⊢ <;> split <;> omega

/-- The encode pass that began at `s` stands at `u` with `k` pixels of its image done. -/
structure PixelsDone (s u : State) (k : Nat) : Prop where
  inv    : PassInv u
  host   : u.host = []
  job    : u.job = { s.job with n := s.job.w.toNat * s.job.h.toNat }
  pixPos : u.pixPos.toNat = k
  phase  : u.phase = if k = s.job.w.toNat * s.job.h.toNat then .encTrailer else .encPixels
  beyond : ∀ a, u.outPos.toNat ≤ a → u.outBuf.read a = s.outBuf.read a

/-- R111, R112: the header step of a legal job. -/
theorem headerStep_pixelsDone (h : PassInv s) (hh : s.host = []) (hp : s.phase = .encHeader)
    (hlegal : legalHeader s.params s.job.w s.job.h s.job.c s.job.cs = true)
    (hlen : s.job.inLen.toNat = s.job.w.toNat * s.job.h.toNat * s.job.c.toNat) (hroom : 14 ≤ s.job.outCap.toNat) :
    ∃ u, step s = .next u ∧ PixelsDone s u 0 := by
  obtain ⟨-, ⟨-, -, -, hpix, -, hout⟩, -⟩ := h.encHeader hp
  have hfit : Fits s (encode (.header s.job.w s.job.h s.job.c s.job.cs)) := by
    simpa [hout, Fits, encode, magic, bytesBe32] using hroom
  have he := (State.encodeHeader_passes (jobError_none hlegal hlen) s.job.w s.job.h s.job.c s.job.cs).trans
    (State.commit_fits hfit _)
  have hinv := h.encodeHeader hp
  have hs := (step_engine hh).trans (engineStep_encHeader hp)
  rw [he] at hinv hs
  obtain ⟨-, -, hn⟩ := hinv.encPixels rfl
  refine ⟨_, hs, hinv, hh, rfl, by simp [hpix], ?_, fun a ha => ?_⟩
  · rw [if_neg (Nat.ne_of_lt (by simpa [hpix] using hn))]
  · exact Memory.read_writeBytes_outside (.inr ((outPos_toNat_add hfit).symm.trans_le ha)) _

/-- R173, R176: a pixel step with the room that R179 asks for. -/
theorem PixelsDone.pixelStep {u : State} {k : Nat} (hd : PixelsDone s u k) (hk : k < s.job.w.toNat * s.job.h.toNat)
    (hroom : 14 + s.job.w.toNat * s.job.h.toNat * (s.job.c.toNat + 1) ≤ s.job.outCap.toNat) :
    ∃ v, step u = .next v ∧ PixelsDone s v (k + 1) := by
  have hp : u.phase = .encPixels := by rw [hd.phase, if_neg (Nat.ne_of_lt hk)]
  have hr := pixelReady_of_passInv hd.inv hp
  have hfit : Fits u u.stepBytes := by
    refine (stepBytes_bound hd.inv hp).trans (le_trans ?_ (hroom.trans_eq (by rw [hd.job])))
    rw [hd.pixPos, hd.job]
    exact Nat.add_le_add_left (Nat.mul_le_mul_right _ hk) 14
  have hstep := engineStep_encPixels hr
  obtain ⟨-, -, -, hem⟩ :=
    State.endPixelStep_spec hr hfit u.stepRun u.prev u.readPixel (u.codec.next u.readPixel).cache rfl
  obtain ⟨hjob, -, -, -, -, hhost, -⟩ := hem.kept
  refine ⟨_, (step_engine hd.host).trans hstep, hd.inv.engineMove (engineMove_of_next hstep), hhost.trans hd.host,
    hjob.trans hd.job, by rw [hem.pixPos, hd.pixPos], by rw [hem.phase, hd.pixPos, hd.job], fun a ha => ?_⟩
  rw [hem.outPos] at ha
  rw [hem.outside a (.inr ha), hd.beyond a (by omega)]

/-- R171: the header step and then one step for each pixel, none of which fails. -/
theorem run_pixelsDone (h : PassInv s) (hh : s.host = []) (hp : s.phase = .encHeader)
    (hlegal : legalHeader s.params s.job.w s.job.h s.job.c s.job.cs = true)
    (hlen : s.job.inLen.toNat = s.job.w.toNat * s.job.h.toNat * s.job.c.toNat)
    (hroom : 14 + s.job.w.toNat * s.job.h.toNat * (s.job.c.toNat + 1) ≤ s.job.outCap.toNat) {k : Nat}
    (hk : k ≤ s.job.w.toNat * s.job.h.toNat) : ∃ u, Sys2Proof.core.run (k + 1) s = .next u ∧ PixelsDone s u k := by
  induction k with
  | zero =>
    obtain ⟨u, hs, hd⟩ := headerStep_pixelsDone h hh hp hlegal hlen (by omega)
    exact ⟨u, run_succ 0 hs, hd⟩
  | succ k ih =>
    obtain ⟨u, hr, hd⟩ := ih (Nat.le_of_succ_le hk)
    obtain ⟨v, hs, hd'⟩ := hd.pixelStep hk hroom
    exact ⟨v, run_snoc hh hr hs, hd'⟩

/-- R28: with the pixels done so far, the pass is BUSY. -/
theorem PixelsDone.busy {u : State} {k : Nat} (hd : PixelsDone s u k) : u.busy = true := by
  refine State.busy_of_statusBusy (statusBusy_of_phase hd.inv.status ?_)
  rw [hd.phase]
  split <;> simp

/-- R179: with all pixels done, the end marker fits too. -/
theorem PixelsDone.trailer_fits {u : State} (hd : PixelsDone s u (s.job.w.toNat * s.job.h.toNat))
    (hroom : 14 + s.job.w.toNat * s.job.h.toNat * (s.job.c.toNat + 1) + 8 ≤ s.job.outCap.toNat) :
    u.outPos.toNat + 8 ≤ u.job.outCap.toNat := by
  obtain ⟨hf, -, -, hrun⟩ := hd.inv.encTrailer (hd.phase.trans (if_pos rfl))
  have hhigh := hf.sizeHigh
  rw [hd.pixPos, hrun, hd.job] at hhigh
  rw [hd.job]
  exact (Nat.add_le_add_right hhigh 8).trans hroom

/-- R179, R39 to R41: what the invariant says of an encode pass that is done. -/
theorem done_counters (h : PassInv t) (hp : t.phase = .done) (hmode : t.job.mode = .enc) :
    t.csr.pixPos.toNat = t.job.n ∧ t.csr.inPos.toNat = t.job.n * t.job.c.toNat ∧ 22 ≤ t.csr.outLen.toNat ∧
      t.job.n ≤ 62 * (t.csr.outLen.toNat - 22) ∧ t.csr.outLen.toNat ≤ 22 + t.job.n * (t.job.c.toNat + 1) := by
  have hfacts := h.facts
  simp only [PhaseFacts, hp] at hfacts
  obtain ⟨⟨hout, hin, hpix⟩, -, hn, henc, -⟩ := hfacts
  rw [hout, hin, hpix]
  exact ⟨hn, henc hmode⟩

/-- Settles O51: header, pixels and trailer, each in one step that fits; the bounds by the invariant in DONE. -/
theorem encodePassCompletes : Obligations.EncodePassCompletes := by
  intro s h hh hp n c hlegal hlen hroom
  have hpixels {k : Nat} (hk : k ≤ n) := run_pixelsDone h hh hp hlegal hlen ((Nat.le_add_right _ 8).trans hroom) hk
  constructor
  · intro k hk
    cases k with
    | zero => exact ⟨s, rfl, State.busy_of_statusBusy (statusBusy_of_phase h.status (.inl hp))⟩
    | succ k =>
      obtain ⟨u, hr, hd⟩ := hpixels (k := k) (by omega)
      exact ⟨u, hr, hd.busy⟩
  obtain ⟨u, hr, hd⟩ := hpixels (Nat.le_refl n)
  have hpu : u.phase = .encTrailer := hd.phase.trans (if_pos rfl)
  obtain ⟨hf, -⟩ := hd.inv.encTrailer hpu
  obtain ⟨t, ht, hdone, hout, hbytes, houtside, hcsr, hjob, -⟩ := endMarkerEncodes u hpu (hd.trailer_fits hroom)
  have hstep := (engineStep_encTrailer hpu).trans ((exec_encTrailer hpu).symm.trans ht)
  have hinv := hd.inv.engineMove (engineMove_of_next hstep)
  obtain ⟨hcpix, hcin, h22, hlow, hhigh⟩ := done_counters hinv hdone (by rw [hjob]; exact hf.mode)
  have houtLen : t.csr.outLen = t.outPos := by rw [hcsr]
  rw [hjob, hd.job] at hcpix hcin hlow hhigh
  refine ⟨t, run_snoc hh hr ((step_engine hd.host).trans hstep), hdone, hcpix, hcin, ?_, hhigh, ?_, fun a ha => ?_⟩
  · change n ≤ _ at hlow
    omega
  · rw [houtLen, hout, Nat.add_sub_cancel]
    exact hbytes
  · rw [houtLen, hout] at ha
    rw [houtside a (.inr ha), hd.beyond a (by omega)]

/-! ### Two encode passes over the same job and IN (R178) -/

/-- The same bytes written at the same offset: what agrees below it agrees up to their end. -/
theorem Memory.writeBytes_agree {m m' : Memory} {q : Nat} (h : ∀ a, a < q → m.read a = m'.read a) (bs : List Byte) :
    ∀ a, a < q + bs.length → (m.writeBytes q bs).read a = (m'.writeBytes q bs).read a := by
  induction bs generalizing m m' q with
  | nil => exact h
  | cons v rest ih =>
    intro a ha
    refine ih (fun b hb => ?_) a (by rw [List.length_cons] at ha; omega)
    rcases Nat.lt_succ_iff_lt_or_eq.1 hb with hlt | rfl
    · rw [Memory.read_write_other (Nat.ne_of_lt hlt), Memory.read_write_other (Nat.ne_of_lt hlt), h b hlt]
    · rw [Memory.read_write_same, Memory.read_write_same]

/-- Two states of encode passes that agree on all that R178 names, and on the registers in between: they may differ in OUT
from `out_pos` on, in the other CSRs, in the free values and in what the host last read. -/
structure InStep (s s' : State) : Prop where
  phase  : s'.phase = s.phase
  status : s'.csr.status = s.csr.status
  job    : s'.job = s.job
  params : s'.params = s.params
  codec  : s'.codec = s.codec
  run    : s'.run = s.run
  pixPos : s'.pixPos = s.pixPos
  inPos  : s'.inPos = s.inPos
  outPos : s'.outPos = s.outPos
  inBuf  : ∀ a, a < s.job.inLen.toNat → s'.inBuf.read a = s.inBuf.read a
  outBuf : s.phase ≠ .error → ∀ a, a < s.outPos.toNat → s'.outBuf.read a = s.outBuf.read a

theorem InStep.raise (h : InStep s s') (e : ErrCode) : InStep (s.raise e) (s'.raise e) :=
  { h with phase := rfl, status := rfl, outBuf := fun hne => absurd rfl hne }

theorem InStep.complete (h : InStep s s') (hp : s.phase ≠ .error) : InStep s.complete s'.complete :=
  { h with phase := rfl, status := rfl, outBuf := fun _ => h.outBuf hp }

/-- R175: the same bytes committed in both passes. -/
theorem InStep.commit (h : InStep s s') (ht : InStep t t') (hout : t.outPos = s.outPos) (hp : t.phase ≠ .error)
    (sb : List Byte) : InStep (s.commit t sb) (s'.commit t' sb) := by
  rcases s.commit_cases t sb with ⟨hover, e⟩ | ⟨hfit, e⟩
  · rw [e, State.commit_overflow (by rw [h.job, h.outPos]; exact hover)]
    exact h.raise .outOverflow
  · have hfit' : Fits s' sb := by unfold Fits; rw [h.job, h.outPos]; exact hfit
    rw [e, State.commit_fits hfit', h.outPos]
    refine { ht with outPos := rfl, outBuf := fun _ a ha => ?_ }
    rw [outPos_toNat_add hfit] at ha
    exact Memory.writeBytes_agree (fun b hb => ht.outBuf hp b (by rw [hout]; exact hb)) sb a ha

theorem InStep.encodeHeader (h : InStep s s') (w ht : Word32) (c cs : Byte) (hp : s.phase ≠ .error) :
    InStep (s.encodeHeader w ht c cs) (s'.encodeHeader w ht c cs) := by
  have hj : jobError s'.params s'.job = jobError s.params s.job := by rw [h.params, h.job]
  cases he : jobError s.params s.job with
  | some e =>
    rw [State.encodeHeader_error he, State.encodeHeader_error (hj.trans he)]
    exact h.raise e
  | none =>
    rw [State.encodeHeader_passes he, State.encodeHeader_passes (hj.trans he), h.job]
    refine h.commit ?_ ?_ ?_ _
    · exact { h with phase := rfl, job := rfl, outBuf := fun _ => h.outBuf hp }
    · rfl
    · exact nofun

theorem InStep.encodeEnd (h : InStep s s') (hp : s.phase ≠ .error) : InStep s.encodeEnd s'.encodeEnd := by
  unfold State.encodeEnd
  rw [h.job, h.outPos]
  split
  · exact h.raise .outOverflow
  · next hover =>
    have hfit : Fits s (encode .endMarker) := Nat.not_lt.1 hover
    refine (h.commit h rfl hp _).complete ?_
    rw [State.commit_fits hfit]
    exact hp

theorem InStep.lastPixel (h : InStep s s') : s'.lastPixel = s.lastPixel := by
  rw [State.lastPixel, h.pixPos, h.job, State.lastPixel]

theorem InStep.endPixelStep (h : InStep s s') (hp : s.phase ≠ .error) (r : BitVec 6) (cache : Vector Pixel 64) (px : Pixel)
    (sb : List Byte) : InStep (s.endPixelStep { s with run := r, cache := cache } px sb)
      (s'.endPixelStep { s' with run := r, cache := cache } px sb) := by
  unfold State.endPixelStep
  rw [h.pixPos, h.inPos, h.job, h.lastPixel]
  refine h.commit ?_ ?_ ?_ sb
  · exact { h with
      phase := rfl, job := rfl, codec := rfl, run := rfl, pixPos := rfl, inPos := rfl, outBuf := fun _ => h.outBuf hp }
  · rfl
  · cases s.lastPixel <;> exact nofun

/-- R172 to R174: the two passes read the same pixel, and code it alike. -/
theorem InStep.pixelStep (h : InStep s s') (hi : PassInv s) (hp : s.phase = .encPixels) (hs : engineStep s = .next t)
    (hs' : engineStep s' = .next t') : InStep t t' := by
  have hr := pixelReady_of_passInv hi hp
  have hr' : PixelReady s' :=
    ⟨h.phase.trans hp, by rw [h.pixPos, h.job]; exact hr.pixels, by rw [h.job]; exact hr.count⟩
  have hpx : s'.readPixel = s.readPixel := readPixel_congr hi hp h.job h.pixPos h.inBuf
  have hprev : s'.prev = s.prev := congrArg Codec.prev h.codec
  have hcache : s'.cache = s.cache := congrArg Codec.cache h.codec
  have hnext : s'.nextChunk = s.nextChunk := by
    simp only [State.nextChunk, hpx, hprev, hcache, h.run, h.lastPixel]
  have hbytes : s'.stepBytes = s.stepBytes := by
    simp only [State.stepBytes, hpx, hprev, hnext, State.flushBytes, h.run]
  have hrun : s'.stepRun = s.stepRun := by simp only [State.stepRun, hnext, h.run]
  cases (engineStep_encPixels hr).symm.trans hs
  cases (engineStep_encPixels hr').symm.trans hs'
  rw [hpx, hbytes, hrun, h.codec]
  exact h.endPixelStep (by rw [hp]; decide) _ _ _ _

/-- R178: a step in both passes. -/
theorem InStep.engineStep (h : InStep s s') (hi : PassInv s) (hmode : s.job.mode = .enc) (hs : engineStep s = .next t)
    (hs' : engineStep s' = .next t') : InStep t t' := by
  have kept (hp : s.phase = .idle ∨ s.phase = .done ∨ s.phase = .error) : InStep t t' := by
    cases (engineStep_ended hp).symm.trans hs
    cases (engineStep_ended (by rw [h.phase]; exact hp)).symm.trans hs'
    exact h
  cases hp : s.phase with
  | idle => exact kept (.inl hp)
  | done => exact kept (.inr (.inl hp))
  | error => exact kept (.inr (.inr hp))
  | encHeader =>
    cases (engineStep_encHeader hp).symm.trans hs
    cases (engineStep_encHeader (h.phase.trans hp)).symm.trans hs'
    rw [h.job]
    exact h.encodeHeader _ _ _ _ (by rw [hp]; decide)
  | encPixels => exact h.pixelStep hi hp hs hs'
  | encTrailer =>
    cases (engineStep_encTrailer hp).symm.trans hs
    cases (engineStep_encTrailer (h.phase.trans hp)).symm.trans hs'
    exact h.encodeEnd (by rw [hp]; decide)
  | decHeader =>
    obtain ⟨hdec, -⟩ := hi.decHeader hp
    cases hmode.symm.trans hdec
  | decChunks =>
    obtain ⟨hf, -⟩ := hi.decChunks hp
    cases hmode.symm.trans hf.mode

/-- R178: the same number of steps in both passes. -/
theorem inStep_run {k : Nat} (h : InStep s s') (hi : PassInv s) (hmode : s.job.mode = .enc) (hh : s.host = [])
    (hh' : s'.host = []) (hr : Sys2Proof.core.run k s = .next t) (hr' : Sys2Proof.core.run k s' = .next t') :
    InStep t t' := by
  induction k generalizing s s' with
  | zero => cases hr; cases hr'; exact h
  | succ k ih =>
    obtain ⟨u, hs, hm, hu, hrest⟩ := run_succ_engine hh hr
    obtain ⟨u', hs', -, hu', hrest'⟩ := run_succ_engine hh' hr'
    have hnext := h.engineStep hi hmode ((step_engine hh).symm.trans hs) ((step_engine hh').symm.trans hs')
    have hmode' : u.job.mode = .enc := by
      rcases hm.encode_cases hi hmode with ⟨e, -⟩ | ⟨-, _, hem, -⟩
      · exact e.trans hmode
      · obtain ⟨e, -⟩ := hem.kept
        rw [e]; exact hmode
    exact ih hnext (hi.engineMove hm) hmode' hu hu' hrest hrest'

/-- Two encode passes just started with the same job and the same bytes below IN_LEN are in step. -/
theorem inStep_of_fresh (h : PassInv s) (h' : PassInv s') (hp : s.phase = .encHeader) (hp' : s'.phase = .encHeader)
    (hjob : s.job = s'.job) (hparams : s.params = s'.params)
    (hin : ∀ a, a < s.job.inLen.toNat → s.inBuf.read a = s'.inBuf.read a) : InStep s s' := by
  obtain ⟨-, hf, -⟩ := h.encHeader hp
  obtain ⟨-, hf', -⟩ := h'.encHeader hp'
  have hcodec : s'.codec = s.codec := (codec_of_fresh hf').trans (codec_of_fresh hf).symm
  have hstatus : s'.csr.status = s.csr.status :=
    (statusBusy_of_phase h'.status (.inl hp')).trans (statusBusy_of_phase h.status (.inl hp)).symm
  obtain ⟨-, -, hrun, hpix, hinPos, hout⟩ := hf
  obtain ⟨-, -, hrun', hpix', hinPos', hout'⟩ := hf'
  refine ⟨hp'.trans hp.symm, hstatus, hjob.symm, hparams.symm, hcodec, hrun'.trans hrun.symm, hpix'.trans hpix.symm,
    hinPos'.trans hinPos.symm, hout'.trans hout.symm, fun a ha => (hin a ha).symm, fun _ a ha => ?_⟩
  rw [hout] at ha
  exact absurd ha (Nat.not_lt_zero a)

/-! ### Free values (R178) -/

/-- A step of the engine draws a free value only when it takes an error. -/
theorem EngineMove.draws_cases (hm : EngineMove s t) : t.phase = .error ∨ t.draws = s.draws := by
  have pixel (u : State) (px : Pixel) (sb : List Byte) (hu : u.draws = s.draws) :
      (s.endPixelStep u px sb).phase = .error ∨ (s.endPixelStep u px sb).draws = s.draws := by
    rcases s.endPixelStep_cases u px sb with ⟨-, e⟩ | ⟨-, e⟩ <;> rw [e]
    · exact .inl rfl
    · exact .inr hu
  cases hm with
  | rest | full => exact .inr rfl
  | encHeader =>
    rcases s.encodeHeader_cases s.job.w s.job.h s.job.c s.job.cs with ⟨_, -, e⟩ | ⟨-, -, -, e⟩ <;> rw [e]
    · exact .inl rfl
    · exact .inr rfl
  | encRunOn | encRun | encChunk => exact pixel _ _ _ rfl
  | encEnd =>
    rcases s.encodeEnd_cases with ⟨-, e⟩ | ⟨-, e⟩ <;> rw [e]
    · exact .inl rfl
    · exact .inr rfl
  | decHeaderBad | decTrunc => exact .inl rfl
  | decHeader _ _ w h c cs =>
    rcases s.decodeHeader_cases w h c cs with ⟨_, -, e⟩ | ⟨-, -, e⟩ | ⟨-, -, e⟩ <;> rw [e]
    · exact .inl rfl
    · exact .inl rfl
    · exact .inr rfl
  | decRun _ _ _ len1 =>
    obtain ⟨-, -, -, -, -, -, -, -, -, hwrite, -, -⟩ :=
      s.writePixels_kept s.prev (min (len1.toNat + 1) (s.job.n - s.pixPos.toNat))
    obtain ⟨-, -, -, -, -, -, -, -, -, -, hfull, -, -⟩ := State.completeIfFull_kept
      { s.writePixels s.prev (min (len1.toNat + 1) (s.job.n - s.pixPos.toNat)) with inPos := s.inPos + 1 }
    exact .inr (hfull.trans hwrite)
  | decPixel _ _ px len =>
    obtain ⟨-, -, -, -, -, -, -, -, -, -, hfull, -, -⟩ := State.completeIfFull_kept
      { (s.nonRunUpdate px).writePixel px with inPos := s.inPos + BitVec.ofNat 64 len }
    exact .inr hfull

/-- A run of the engine that does not fail draws no free value. -/
theorem run_draws {k : Nat} (hh : s.host = []) (hr : Sys2Proof.core.run k s = .next t) (hne : t.phase ≠ .error) :
    t.draws = s.draws := by
  obtain ⟨-, ht⟩ := run_keeps (P := fun u => u.phase = .error ∨ u.draws = s.draws) (fun u v hu hpu hs => by
    rcases hpu with hp | hd
    · cases (step_ended hu (.inr hp)).symm.trans hs
      exact .inl hp
    · rcases (engineMove_of_next ((step_engine hu).symm.trans hs)).draws_cases with hp | e
      · exact .inl hp
      · exact .inr (e.trans hd)) hh (.inr rfl) hr
  exact ht.resolve_left hne

/-- R39 to R41: after a pass, failed or not, the counters stand in their CSRs. -/
theorem ended_of_passInv (h : PassInv s) (hp : s.phase = .done ∨ s.phase = .error) : Ended s := by
  rcases hp with hp | hp
  · exact ended_of_done h hp
  · simpa only [PhaseFacts, hp] using h.facts

/-- Settles O53: the two passes are in step, and after a pass the CSRs hold the counters that agree. -/
theorem encodePassIsDeterministic : Obligations.EncodePassIsDeterministic := by
  intro s s' k t t' h h' hh hh' hp hp' hjob hparams hin hr hr'
  obtain ⟨hmode, -⟩ := h.encHeader hp
  have hst := inStep_run (inStep_of_fresh h h' hp hp' hjob hparams hin) h hmode hh hh' hr hr'
  refine ⟨hst.phase.symm, hst.status.symm, hst.outPos.symm,
    fun hne => ⟨run_draws hh hr hne, fun a ha => (hst.outBuf hne a ha).symm⟩, fun hend => ?_⟩
  obtain ⟨hout, hinp, hpix⟩ := ended_of_passInv (passInv_run h hr) hend
  obtain ⟨hout', hinp', hpix'⟩ := ended_of_passInv (passInv_run h' hr') (by rw [hst.phase]; exact hend)
  exact ⟨by rw [hout, hout', hst.outPos], by rw [hinp, hinp', hst.inPos], by rw [hpix, hpix', hst.pixPos]⟩

end Sys2Proof.Machine

namespace Sys2Proof.Machine

open Sys2Proof.Safety

variable {s t : State}

/-! ### The chunk step and the bytes of IN (R193, R194, R196) -/

/-- Settles O11: the fetch reads the chunk back, and the step executes what is fetched. -/
theorem stepRunsChunkAtInPos : Obligations.StepRunsChunkAtInPos :=
  fun _ _ hh hp hn hl hslot hw hb =>
    (step_engine hh).trans (engineStep_decChunks_ok hp hn (fetchChunk_of_bytes hslot hw ⟨hb, hl⟩))

/-- R194, R222: a chunk step whose fetch fails takes the error and applies nothing. -/
theorem chunkStep_raises {e : ErrCode} (hh : s.host = []) (hp : s.phase = .decChunks) (hn : s.pixPos.toNat < s.job.n)
    (hf : s.fetchChunk = .error e) :
    ∃ t, step s = .next t ∧ FailedKeepingCsrs s t e.errClass.toNat e.code.toNat :=
  ⟨_, (step_engine hh).trans (engineStep_decChunks_error hp hn hf), s.raise_failedKeepingCsrs e⟩

/-- Settles O21: in either case the bounds leave the fetch one answer. -/
theorem truncationRaises : Obligations.TruncationRaises := by
  intro s hh hp hn
  refine ⟨fun hnone => ?_, fun hfirst hpast => ?_⟩
  · obtain ⟨-, hf⟩ | ⟨hlt, -⟩ | ⟨i, -, -, -, hfits, hpos, -⟩ := fetchChunk_cases s
    · exact chunkStep_raises hh hp hn hf
    · omega
    · omega
  · obtain ⟨hnone, -⟩ | ⟨-, -, hf⟩ | ⟨i, -, -, hlen, hfits, -⟩ := fetchChunk_cases s
    · omega
    · exact chunkStep_raises hh hp hn hf
    · omega

/-- Settles O43: the fetch reads the chunk's bytes alone, and the step is the same where the fetch is. -/
theorem chunkStepReadsItsChunk : Obligations.ChunkStepReadsItsChunk := by
  intro s m hp hm
  obtain ⟨hpos, -⟩ := chunkLen_bounds (s.inBuf.read s.inPos.toNat)
  refine engineStep_inBuf (fun h => nomatch hp.symm.trans h) (fun h => nomatch hp.symm.trans h) (fun _ => ?_)
  exact fetchChunk_congr rfl rfl (fun _ => hm _ (Nat.le_refl _) (Nat.lt_add_of_pos_right hpos)) fun _ => hm

/-! ### The DEC_HEADER step (R113, R192) -/

theorem State.decodeHeader_error {w h : Word32} {c cs : Byte} {e : ErrCode}
    (he : fieldError s.params w h c cs = some e) : s.decodeHeader w h c cs = s.raiseDecHeader e := by
  simp only [State.decodeHeader, he]

theorem State.decodeHeader_overflow {w h : Word32} {c cs : Byte} (he : fieldError s.params w h c cs = none)
    (hcap : s.job.outCap.toNat < w.toNat * h.toNat * c.toNat) :
    s.decodeHeader w h c cs = (s.reportHeader w h c cs).raise .outOverflow := by
  simp only [State.decodeHeader, he, if_pos hcap]

theorem State.decodeHeader_accepts {w h : Word32} {c cs : Byte} (he : fieldError s.params w h c cs = none)
    (hcap : ¬s.job.outCap.toNat < w.toNat * h.toNat * c.toNat) :
    s.decodeHeader w h c cs = s.acceptHeader w h c cs := by
  simp only [State.decodeHeader, he, if_neg hcap]

/-- Settles O29, check by check in R113's order; a header that passes them all is accepted or does not fit OUT. -/
theorem headerDecodes : Obligations.HeaderDecodes := by
  intro s w h c cs hp n
  refine ⟨_, exec_decHeader hp w h c cs, ?_⟩
  have hfield := fieldError_eq s.params w h c cs
  have hfail {e : ErrCode} (he : fieldError s.params w h c cs = some e) :
      Failed s (s.decodeHeader w h c cs) e.errClass.toNat e.code.toNat := by
    rw [State.decodeHeader_error he]
    exact s.raiseDecHeader_failed e
  split_ifs at hfield ⊢
  · exact hfail hfield
  · exact hfail hfield
  · exact hfail hfield
  · exact hfail hfield
  · next hcap =>
    rw [State.decodeHeader_overflow hfield hcap]
    exact ⟨⟨rfl, rfl, rfl, rfl⟩, { (s.reportHeader w h c cs).raise_failed .outOverflow with }⟩
  · next hcap =>
    rw [State.decodeHeader_accepts hfield hcap]
    exact ⟨⟨rfl, rfl, rfl, rfl⟩, rfl, rfl, rfl, rfl, rfl, rfl, rfl, rfl, rfl, rfl, rfl, rfl, rfl, rfl, rfl⟩

end Sys2Proof.Machine

namespace Sys2Proof.Machine

open Sys2Proof.Safety

variable {s t : State} {img : Nat → Pixel}

/-! ### The job along an encode pass (R29) -/

/-- Where an encode pass stands once its header step is done. -/
def PastEncHeader (s : State) : Prop :=
  s.phase = .encPixels ∨ s.phase = .encTrailer ∨ s.phase = .done ∨ s.phase = .error

/-- R29: once the header is written, a step of an encode pass keeps the job. -/
theorem PastEncHeader.step (h : PassInv s) (hp : PastEncHeader s) (hs : engineStep s = .next t) :
    PastEncHeader t ∧ t.job = s.job := by
  have kept (hp' : s.phase = .done ∨ s.phase = .error) : PastEncHeader t ∧ t.job = s.job := by
    cases (engineStep_ended (.inr hp')).symm.trans hs
    exact ⟨hp, rfl⟩
  rcases hp with hp | hp | hp | hp
  · cases (engineStep_encPixels (pixelReady_of_passInv h hp)).symm.trans hs
    rcases State.endPixelStep_cases s _ s.readPixel s.stepBytes with ⟨-, e⟩ | ⟨-, e⟩ <;> rw [e]
    · exact ⟨.inr (.inr (.inr rfl)), rfl⟩
    · refine ⟨?_, rfl⟩
      unfold PastEncHeader
      split
      · exact .inr (.inl rfl)
      · exact .inl rfl
  · cases (engineStep_encTrailer hp).symm.trans hs
    rcases s.encodeEnd_cases with ⟨-, e⟩ | ⟨-, e⟩ <;> rw [e]
    · exact ⟨.inr (.inr (.inr rfl)), rfl⟩
    · exact ⟨.inr (.inr (.inl rfl)), rfl⟩
  · exact kept (.inl hp)
  · exact kept (.inr hp)

/-- R111, R112: an encode pass that completes has a legal job, and ends with that job and its pixel count. -/
theorem legalJob_of_encodePass {k : Nat} (h : PassInv s) (hh : s.host = []) (hp : s.phase = .encHeader)
    (hr : Sys2Proof.core.run k s = .next t) (ht : t.phase = .done) :
    legalHeader s.params s.job.w s.job.h s.job.c s.job.cs = true ∧
      t.job = { s.job with n := s.job.w.toNat * s.job.h.toNat } := by
  cases k with
  | zero =>
    cases hr
    cases hp.symm.trans ht
  | succ k =>
    obtain ⟨u, hs, hmove, hu, hrest⟩ := run_succ_engine hh hr
    have hiu := h.engineMove hmove
    have hne := phase_ne_error_of_run hu hrest ht
    obtain rfl := Host.Outcome.next.inj (((step_engine hh).trans (engineStep_encHeader hp)).symm.trans hs)
    rcases s.encodeHeader_cases s.job.w s.job.h s.job.c s.job.cs with ⟨e, -, he⟩ | ⟨hlegal, -, -, he⟩
    · exact absurd (congrArg State.phase he) hne
    rw [he] at hu hiu hrest
    obtain ⟨-, -, -, hjob⟩ := run_keeps
      (P := fun v => PassInv v ∧ PastEncHeader v ∧ v.job = { s.job with n := s.job.w.toNat * s.job.h.toNat })
      (fun v v' hv ⟨hi, hpv, hj⟩ hsv => by
        have hev := (step_engine hv).symm.trans hsv
        obtain ⟨hpv', hj'⟩ := hpv.step hi hev
        exact ⟨hi.engineMove (engineMove_of_next hev), hpv', hj'.trans hj⟩)
      hu ⟨hiu, .inl rfl, rfl⟩ hrest
    exact ⟨hlegal, hjob⟩

/-! ### The decoder writes its image (R195, R199) -/

/-- R140, R143: every chunk writes copies of the previous pixel that it leaves, at least one. -/
theorem exec_decChunks_writes_prev {i : Instr} (hr : ChunkReady s) (hs : i.slot = .chunk) :
    ∃ t k, exec i s = .next t ∧ 0 < k ∧ s.pixPos.toNat + k ≤ s.job.n ∧ Decoded s t t.prev k (encode i).length := by
  have hn := hr.pixels
  cases i with
  | header => cases hs
  | endMarker => cases hs
  | opRun l =>
    obtain ⟨hprev, -, hd⟩ := State.decodeRun_spec hr (l.toNat + 1)
    rw [← hprev] at hd
    exact ⟨_, _, exec_decChunks_run hr.phase l, by omega, by omega, hd⟩
  | _ =>
    refine ⟨_, 1, exec_decChunks_pixel hr.phase rfl, Nat.one_pos, hn, ?_⟩
    obtain ⟨hnon, hd⟩ := State.decodePixel_spec hr _ _
    rw [hnon.prev]
    exact hd

/-- Where pixels are still to come, a legal chunk stands at the offset reached. -/
theorem CodedFrom.next_chunk {n limit i q : Nat} {m : Memory} (h : CodedFrom img n m limit i q) (hi : i < n) :
    ∃ c : Instr, c.slot = .chunk ∧ (∀ p, c.wellFormed p = true) ∧ StandsAt m limit q (encode c) := by
  cases h with
  | all heq => omega
  | run len1 hl _ _ _ hb => exact ⟨.opRun len1, rfl, fun _ => decide_eq_true hl, hb⟩
  | chunk c hc hb =>
    obtain ⟨c', hc', hslot, hrun⟩ := chunkOf_some (ne_prev_of_chunkOf hc) (Codec.after img i).cache
    obtain rfl := Option.some.inj (hc'.symm.trans hc)
    exact ⟨_, hslot, wellFormed_of_chunk hslot hrun, hb⟩

/-- A chunk step on the stream of an image never fails: it writes its previous pixel. -/
theorem DecodesImage.chunkStep_writes_prev {n : Nat} (hd : DecodesImage img n s) (h : PassInv s)
    (hp : s.phase = .decChunks) : ∃ t k len, engineStep s = .next t ∧ 0 < k ∧ s.pixPos.toNat + k ≤ s.job.n ∧
      Decoded s t t.prev k len := by
  have hr := h.chunkReady hp
  obtain ⟨hn, hcoded⟩ := hd.chunks hp
  obtain ⟨i, hslot, hw, hb⟩ := hcoded.next_chunk (hn ▸ hr.pixels)
  obtain ⟨t, k, ht, hdec⟩ := exec_decChunks_writes_prev hr hslot
  exact ⟨t, k, _, (engineStep_decChunks_ok hp hr.pixels (fetchChunk_of_bytes hslot (hw _) hb)).trans ht, hdec⟩

/-- The pixel just done is the previous one (R140, R142). -/
theorem Codec.after_succ_prev (img : Nat → Pixel) (i : Nat) : (Codec.after img (i + 1)).prev = img i := by
  rw [Codec.after, Codec.next]
  split
  · next heq => exact heq.symm
  · rfl

/-- The pixels done so far stand in OUT. -/
def Restored (img : Nat → Pixel) (s : State) : Prop :=
  ∀ i, i < s.pixPos.toNat → PixelAt s.outBuf s.job.c.toNat i (img i)

/-- A chunk that writes its previous pixel, which is each pixel it covers, restores those. -/
theorem Restored.decoded {k len : Nat} (hw : Restored img s) (hc : s.job.c = 3 ∨ s.job.c = 4)
    (hdec : Decoded s t t.prev k len) (hcov : CoversPixels img s t) : Restored img t := by
  obtain ⟨-, hjob, -⟩ := hdec.kept
  intro i hi
  rw [hjob]
  rcases Nat.lt_or_ge i s.pixPos.toNat with hlt | hge
  · exact pixelAt_congr (channels_toNat hc) (hw i hlt) fun a _ ha =>
      hdec.outside a (.inl (ha.trans_le (Nat.mul_le_mul_right _ hlt)))
  · have hprev : t.prev = img i := by
      rw [← Codec.after_succ_prev img i, ← hcov (i + 1) (by omega) hi]
      rfl
    rw [hdec.pixPos] at hi
    have hwritten := hdec.written (i - s.pixPos.toNat) (by omega)
    rwa [Nat.add_sub_cancel' hge, hprev] at hwritten

/-- R196, R197: on the stream of an image the chunk loop ends in DONE, with the header's CSRs as they were and the image
in OUT. -/
theorem DecodesImage.run_restores {n : Nat} (hd : DecodesImage img n s) (h : PassInv s) (hh : s.host = [])
    (hp : s.phase = .decChunks) (hw : Restored img s) :
    ∃ m u, Sys2Proof.core.run m s = .next u ∧ u.phase = .done ∧ u.job = s.job ∧
      HeaderCsrs u s.job.w s.job.h s.job.c s.job.cs ∧ Restored img u := by
  induction hleft : s.job.n - s.pixPos.toNat using Nat.strong_induction_on generalizing s with
  | _ left ih =>
    have hr := h.chunkReady hp
    obtain ⟨t, k, len, he, hpos, hk, hdec⟩ := hd.chunkStep_writes_prev h hp
    obtain ⟨hdt, hcov⟩ := hd.chunkStep h hp he
    have hwt := hw.decoded hr.channels hdec hcov
    have hs := (step_engine hh).trans he
    obtain ⟨-, hjob, -, -, -, hhost, -⟩ := hdec.kept
    rcases Nat.lt_or_eq_of_le hk with hlt | heq
    · obtain ⟨hpt, -⟩ := hdec.goesOn hlt
      have hless : t.job.n - t.pixPos.toNat < left := by
        rw [hjob, hdec.pixPos]
        omega
      obtain ⟨m, u, hrun, hdone, hju, hcsrs, hwu⟩ :=
        ih _ hless hdt (h.engineMove (engineMove_of_next he)) (hhost.trans hh) hpt hwt rfl
      rw [hjob] at hju hcsrs
      exact ⟨m + 1, u, (run_succ m hs).trans hrun, hdone, hju, hcsrs, hwu⟩
    · obtain ⟨hpt, hcsr⟩ := hdec.ends heq
      obtain ⟨-, hcsrs, -⟩ := h.decChunks hp
      refine ⟨1, t, run_succ 0 hs, hpt, hjob, ?_, hwt⟩
      rw [HeaderCsrs, hcsr]
      exact hcsrs

/-! ### The raw bytes of an image (R62, R63) -/

/-- The raw image in IN stands there pixel by pixel. -/
theorem pixelAt_pixel (hc : s.job.c = 3 ∨ s.job.c = 4) (k : Nat) : PixelAt s.inBuf s.job.c.toNat k (s.pixel k) := by
  rcases hc with hc | hc <;> simp [PixelAt, State.pixel, pixelOfBytes, hc, Memory.readBytes]

/-- The same pixels in two buffers are the same bytes. -/
theorem read_eq_of_pixelAt {m m' : Memory} {c n : Nat} (hc : c = 3 ∨ c = 4)
    (hm : ∀ k, k < n → PixelAt m c k (img k)) (hm' : ∀ k, k < n → PixelAt m' c k (img k)) {a : Nat} (ha : a < n * c) :
    m.read a = m'.read a := by
  have hpos : 0 < c := by omega
  have hk : a / c < n := (Nat.div_lt_iff_lt_mul hpos).2 ha
  obtain ⟨hr, hg, hb, hal⟩ := hm _ hk
  obtain ⟨hr', hg', hb', hal'⟩ := hm' _ hk
  have hdiv : a / c * c + a % c = a := Nat.div_add_mod' a c
  have hmod := Nat.mod_lt a hpos
  obtain h0 | h1 | h2 | ⟨h3, h4⟩ : a % c = 0 ∨ a % c = 1 ∨ a % c = 2 ∨ a % c = 3 ∧ c = 4 := by omega
  · rw [h0] at hdiv
    exact hdiv ▸ hr.trans hr'.symm
  · rw [h1] at hdiv
    exact hdiv ▸ hg.trans hg'.symm
  · rw [h2] at hdiv
    exact hdiv ▸ hb.trans hb'.symm
  · rw [h3] at hdiv
    exact hdiv ▸ (hal h4).trans (hal' h4).symm

/-- R39, R197: what the invariant says of a decode pass that is done. -/
theorem decodeDone_counters (h : PassInv t) (hp : t.phase = .done) (hmode : t.job.mode = .dec) :
    t.pixPos.toNat = t.job.n ∧ t.csr.outLen.toNat = t.job.n * t.job.c.toNat := by
  have hfacts := h.facts
  simp only [PhaseFacts, hp] at hfacts
  obtain ⟨⟨hout, -⟩, -, hn, -, hdec⟩ := hfacts
  obtain ⟨hlen, -⟩ := hdec hmode
  exact ⟨hn, by rw [hout, hlen]⟩

/-- R113, R118: on the bytes of an encode pass that completes, with room for its pixels, the header step takes over the
encoder's header. -/
theorem headerStep_of_encodePass {d : State} {k : Nat} (h : PassInv s) (hh : s.host = []) (hp : s.phase = .encHeader)
    (hr : Sys2Proof.core.run k s = .next t) (ht : t.phase = .done) (hpd : d.phase = .decHeader)
    (hpar : d.params = s.params) (hlen : d.job.inLen = t.csr.outLen)
    (hm : ∀ a, a < t.csr.outLen.toNat → d.inBuf.read a = t.outBuf.read a)
    (hroom : t.job.n * t.job.c.toNat ≤ d.job.outCap.toNat) :
    engineStep d = .next (d.acceptHeader s.job.w s.job.h s.job.c s.job.cs) := by
  obtain ⟨hout, -⟩ := ended_of_done (passInv_run h hr) ht
  rw [hout] at hlen hm
  obtain ⟨⟨hbytes, hl⟩, -⟩ := coded_of_encodePass h hh hp hr ht hm
  obtain ⟨hlegal, hjob⟩ := legalJob_of_encodePass h hh hp hr ht
  rw [← hlen] at hl
  rw [hjob] at hroom
  have hl : 14 ≤ d.job.inLen.toNat := (Nat.zero_add _).symm.trans_le hl
  rw [engineStep_decHeader_ok hpd (fetchHeader_of_bytes hl hbytes), exec_decHeader hpd,
    State.decodeHeader_accepts (fieldError_none_iff.2 (hpar ▸ hlegal)) (Nat.not_lt.2 hroom)]

/-- Settles O55: the header step takes over the encoder's header, and the chunk loop restores the image in IN. -/
theorem decodeInvertsEncodePass : Obligations.DecodeInvertsEncodePass := by
  intro s t d k h hh hp hr ht hd hhd hpd hpar hlen hm hroom
  have he := headerStep_of_encodePass h hh hp hr ht hpd hpar hlen hm hroom
  obtain ⟨hda, -⟩ := (decodesImage_of_encodePass h hh hp hr ht hd hpd hlen hm).headerStep hd hpd he
  have hia := hd.engineMove (engineMove_of_next he)
  obtain ⟨-, -, -, -, hpix, -⟩ := hd.decHeader hpd
  have hwa : Restored s.pixel (d.acceptHeader s.job.w s.job.h s.job.c s.job.cs) := fun i hi => by
    rw [State.acceptHeader_pixPos, hpix] at hi
    exact absurd hi (Nat.not_lt_zero i)
  obtain ⟨m, u, hrun, hdone, hju, hcsrs, hwu⟩ := hda.run_restores hia hhd rfl hwa
  obtain ⟨-, hiu, hdu⟩ := decodesImage_run hia hhd hda hrun
  obtain ⟨hpixu, houtu⟩ := decodeDone_counters hiu hdone hdu.mode
  obtain ⟨hlegal, hjob⟩ := legalJob_of_encodePass h hh hp hr ht
  obtain ⟨-, -, -, hchan, -⟩ := legalHeader_iff.1 hlegal
  unfold Restored at hwu
  rw [hpixu, hju] at hwu
  rw [hju] at houtu
  rw [hjob]
  exact ⟨m + 1, u, (run_succ m ((step_engine hhd).trans he)).trans hrun, hdone, hcsrs, houtu, fun a ha =>
    read_eq_of_pixelAt (channels_toNat hchan) hwu (fun k _ => pixelAt_pixel hchan k) ha⟩

end Sys2Proof.Machine

namespace Sys2Proof.Machine

open Sys2Proof.Safety

variable {s t : State}

/-! ### The errors of the header fetch (R113, R211, R217) -/

/-- R113, R222: a header step whose fetch fails takes the error. -/
theorem headerStep_raises {e : ErrCode} (hh : s.host = []) (hp : s.phase = .decHeader) (hf : s.fetchHeader = .error e) :
    ∃ t, step s = .next t ∧ Failed s t e.errClass.toNat e.code.toNat :=
  ⟨_, (step_engine hh).trans (engineStep_decHeader_error hp hf), s.raiseDecHeader_failed e⟩

/-- Settles O30: in either case the length and the magic leave the fetch one answer. -/
theorem headerRecordChecks : Obligations.HeaderRecordChecks := by
  intro s hh hp
  refine ⟨fun hshort => ?_, fun hlen hmagic => ?_⟩
  · obtain ⟨-, hf⟩ | ⟨hlen, -⟩ | ⟨hlen, -⟩ := fetchHeader_cases s
    · exact headerStep_raises hh hp hf
    · omega
    · omega
  · obtain ⟨hshort, -⟩ | ⟨-, -, hf⟩ | ⟨-, hm, -⟩ := fetchHeader_cases s
    · omega
    · exact headerStep_raises hh hp hf
    · exact absurd hm hmagic

/-! ### What a CSR read changes (R46) -/

theorem State.readCsr_eq (s : State) (reg : BitVec 4) :
    ∃ d n, s.readCsr reg = { s with readData := d, draws := n } := by
  unfold State.readCsr
  split
  · exact ⟨_, _, rfl⟩
  · exact ⟨_, s.draws, rfl⟩

/-! ### What a step writes to STATUS (R32, R42, R220) -/

/-- The STATUS words that a step can leave where `w` stood. -/
inductive StatusEffect (w : Word32) : Word32 → Prop
  | kept : StatusEffect w w
  /-- R240. -/
  | cleared : StatusEffect w 0
  /-- R170, R190. -/
  | busy : StatusEffect w statusBusy
  /-- R177, R197. -/
  | done : StatusEffect w statusDone
  /-- R220, R222: an error, but never the unknown tag. -/
  | error (e : ErrCode) (he : e ≠ .decBadTag) : StatusEffect w (statusError e)

/-- R210: only the unknown tag has code 10. -/
theorem ErrCode.code_ne_ten {e : ErrCode} (he : e ≠ .decBadTag) : e.code ≠ 10 := by
  cases e
  case decBadTag => exact absurd rfl he
  all_goals decide

/-- R220: none of these words holds code 10 where `w` did not. -/
theorem StatusEffect.errCode {w w' : Word32} (h : StatusEffect w w') (hc : w'.extractLsb' 8 8 = 10) :
    w.extractLsb' 8 8 = 10 := by
  cases h with
  | kept => exact hc
  | cleared | busy | done => exact absurd hc (by decide)
  | error e he => exact absurd ((statusError_code e).symm.trans hc) (ErrCode.code_ne_ten he)

theorem State.endPixelStep_statusEffect (u : State) (px : Pixel) (sb : List Byte) (hu : u.csr = s.csr) :
    StatusEffect s.csr.status (s.endPixelStep u px sb).csr.status := by
  rcases s.endPixelStep_cases u px sb with ⟨-, e⟩ | ⟨-, e⟩ <;> rw [e]
  · exact .error .outOverflow (by decide)
  · simpa only [hu] using StatusEffect.kept

theorem State.completeIfFull_statusEffect (u : State) : StatusEffect u.csr.status u.completeIfFull.csr.status := by
  unfold State.completeIfFull
  split
  · exact .done
  · exact .kept

theorem State.decodeRun_statusEffect (s : State) (n : Nat) : StatusEffect s.csr.status (s.decodeRun n).csr.status := by
  obtain ⟨-, -, -, -, -, -, hcsr, -⟩ := s.writePixels_kept s.prev (min n (s.job.n - s.pixPos.toNat))
  rw [← hcsr]
  exact State.completeIfFull_statusEffect
    { s.writePixels s.prev (min n (s.job.n - s.pixPos.toNat)) with inPos := s.inPos + 1 }

/-- R220, R222: what a move of the engine writes to STATUS. -/
theorem EngineMove.statusEffect (hm : EngineMove s t) : StatusEffect s.csr.status t.csr.status := by
  cases hm with
  | rest | full => exact .kept
  | encHeader =>
    rcases s.encodeHeader_cases s.job.w s.job.h s.job.c s.job.cs with ⟨e, he, heq⟩ | ⟨-, -, -, heq⟩ <;> rw [heq]
    · exact .error e he
    · exact .kept
  | encRunOn | encRun | encChunk => exact State.endPixelStep_statusEffect _ _ _ rfl
  | encEnd =>
    rcases s.encodeEnd_cases with ⟨-, heq⟩ | ⟨-, heq⟩ <;> rw [heq]
    · exact .error .outOverflow (by decide)
    · exact .done
  | decHeaderBad _ e he => exact .error e (by rcases he with rfl | rfl <;> decide)
  | decHeader _ _ w h c cs =>
    rcases s.decodeHeader_cases w h c cs with ⟨e, he, heq⟩ | ⟨-, -, heq⟩ | ⟨-, -, heq⟩ <;> rw [heq]
    · exact .error e he
    · exact .error .outOverflow (by decide)
    · exact .kept
  | decTrunc _ _ e he => exact .error e (by rcases he with rfl | rfl <;> decide)
  | decRun => exact s.decodeRun_statusEffect _
  | decPixel _ _ px len =>
    exact State.completeIfFull_statusEffect
      { (s.nonRunUpdate px).writePixel px with inPos := s.inPos + BitVec.ofNat 64 len }

theorem State.writeCsr_statusEffect (s : State) (reg : BitVec 4) (v : BitVec 64) :
    StatusEffect s.csr.status (s.writeCsr reg v).csr.status := by
  rcases writeCsr_cases s reg v with e | ⟨-, m, -, e⟩ | ⟨-, m, md, -, -, -, e⟩ | ⟨-, w, h, c, cs, il, oc, e⟩ <;> rw [e]
  · exact .kept
  · exact .kept
  · cases md <;> exact .busy
  · exact .kept

/-- What a move of the host that is not refused writes to STATUS. -/
theorem HostEffect.statusEffect {m : HostMove} (he : HostEffect s m t) : StatusEffect s.csr.status t.csr.status := by
  cases he with
  | engine t hm => exact hm.statusEffect
  | writeCsr reg v => exact s.writeCsr_statusEffect reg v
  | readCsr reg =>
    obtain ⟨d, n, e⟩ := s.readCsr_eq reg
    rw [e]
    exact .kept
  | writeIn | readIn | writeOut | readOut => exact .kept
  | reset => exact .cleared

theorem step_statusEffect (h : step s = .next t) : StatusEffect s.csr.status t.csr.status := by
  rcases step_cases h with ⟨-, he⟩ | ⟨m, rest, -, hm⟩
  · exact (engineMove_of_next he).statusEffect
  · exact (hostEffect_of_next hm).statusEffect

/-- Settles O22: of the words a step writes to STATUS, none holds code 10. -/
theorem noStepRaisesBadTag : Obligations.NoStepRaisesBadTag :=
  fun _ _ h => (step_statusEffect h).errCode

/-! ### How IDLE, DONE and ERROR end (R225, R235) -/

/-- A CSR write leaves the phase, or it is an accepted START. -/
theorem State.writeCsr_phase (s : State) (reg : BitVec 4) (v : BitVec 64) :
    (s.writeCsr reg v).phase = s.phase ∨ (reg = 0 ∧ v.getLsbD 0 = true ∧ s.busy = false) := by
  rcases writeCsr_cases s reg v with e | ⟨-, m, -, e⟩ | ⟨hb, m, md, -, hreg, hs, -⟩ | ⟨-, w, h, c, cs, il, oc, e⟩
  · exact .inl (by rw [e])
  · exact .inl (by rw [e])
  · exact .inr ⟨hreg, hs, hb⟩
  · exact .inl (by rw [e])

/-- R235: what an engine step in IDLE, DONE or ERROR answers is the state it began in. -/
theorem eq_of_engineStep_ended (hp : s.phase = .idle ∨ s.phase = .done ∨ s.phase = .error) (h : engineStep s = .next t) :
    t = s :=
  Host.Outcome.next.inj (h.symm.trans (engineStep_ended hp))

/-- The moves of the host by which IDLE, DONE and ERROR can end: a reset and an accepted START. -/
def EndsRest (s : State) (m : HostMove) : Prop :=
  m = .assertReset ∨ ∃ v, m = .writeCsr 0 v ∧ v.getLsbD 0 = true ∧ s.busy = false

/-- R225: in IDLE, DONE and ERROR any other move of the host leaves the phase. -/
theorem hostStep_phase_of_ended {m : HostMove} (hp : s.phase = .idle ∨ s.phase = .done ∨ s.phase = .error)
    (h : hostStep m s = .next t) : t.phase = s.phase ∨ EndsRest s m := by
  cases m with
  | wait => exact .inl (by rw [eq_of_engineStep_ended hp h])
  | assertReset => exact .inr (.inl rfl)
  | writeCsr reg v =>
    cases h
    rcases s.writeCsr_phase reg v with e | ⟨rfl, hs, hb⟩
    · exact .inl e
    · exact .inr (.inr ⟨v, rfl, hs, hb⟩)
  | readCsr reg =>
    cases h
    obtain ⟨d, n, e⟩ := s.readCsr_eq reg
    exact .inl (by rw [e])
  | writeIn | readIn | writeOut | readOut =>
    obtain ⟨-, rfl⟩ := bufferAccess_next h
    exact .inl rfl

/-- Settles O39: the engine's step and a `wait` by `engineStep_ended`, the phase by the moves that end it. -/
theorem endedPhasesLast : Obligations.EndedPhasesLast := by
  intro s t hp h
  refine ⟨fun hh => ?_, fun rest hh => ?_, ?_⟩
  · exact eq_of_engineStep_ended hp ((step_engine hh).symm.trans h)
  · exact eq_of_engineStep_ended (s := { s with host := rest }) hp ((step_host hh).symm.trans h)
  · rcases step_cases h with ⟨-, he⟩ | ⟨m, rest, hh, hm⟩
    · exact .inl (by rw [eq_of_engineStep_ended hp he])
    · rcases hostStep_phase_of_ended (s := { s with host := rest }) hp hm with e | rfl | ⟨v, rfl, hs, hb⟩
      · exact .inl e
      · exact .inr ⟨rest, .inl hh⟩
      · exact .inr ⟨rest, .inr ⟨v, hh, hs, hb⟩⟩

end Sys2Proof.Machine

namespace Sys2Proof.Machine

open Sys2Proof.Safety

variable {s t : State}

/-! ### Every pass ends (R249) -/

/-- R93: the pixel count that the header record at IN offset 0 names. -/
def State.headerPixels (s : State) : Nat :=
  (be32 (s.inBuf.read 4) (s.inBuf.read 5) (s.inBuf.read 6) (s.inBuf.read 7)).toNat *
    (be32 (s.inBuf.read 8) (s.inBuf.read 9) (s.inBuf.read 10) (s.inBuf.read 11)).toNat

/-- R249: how many steps a pass takes at most from here to DONE or ERROR. -/
def State.stepsLeft (s : State) : Nat :=
  match s.phase with
  | .idle | .done | .error => 0
  | .encHeader => s.job.w.toNat * s.job.h.toNat + 2
  | .encPixels => s.job.n - s.pixPos.toNat + 1
  | .encTrailer => 1
  | .decHeader => 1 + s.headerPixels
  | .decChunks => s.job.n - s.pixPos.toNat

theorem State.stepsLeft_ended (hp : s.phase = .idle ∨ s.phase = .done ∨ s.phase = .error) : s.stepsLeft = 0 := by
  rcases hp with hp | hp | hp <;> simp only [State.stepsLeft, hp]

theorem State.stepsLeft_encHeader (hp : s.phase = .encHeader) : s.stepsLeft = s.job.w.toNat * s.job.h.toNat + 2 := by
  simp only [State.stepsLeft, hp]

theorem State.stepsLeft_encPixels (hp : s.phase = .encPixels) : s.stepsLeft = s.job.n - s.pixPos.toNat + 1 := by
  simp only [State.stepsLeft, hp]

theorem State.stepsLeft_encTrailer (hp : s.phase = .encTrailer) : s.stepsLeft = 1 := by
  simp only [State.stepsLeft, hp]

theorem State.stepsLeft_decHeader (hp : s.phase = .decHeader) : s.stepsLeft = 1 + s.headerPixels := by
  simp only [State.stepsLeft, hp]

theorem State.stepsLeft_decChunks (hp : s.phase = .decChunks) : s.stepsLeft = s.job.n - s.pixPos.toNat := by
  simp only [State.stepsLeft, hp]

/-- Only a pass that has ended, or none, has no step left. -/
theorem State.stepsLeft_pos (h : PassInv s) (hp : ¬(s.phase = .idle ∨ s.phase = .done ∨ s.phase = .error)) :
    0 < s.stepsLeft := by
  cases hph : s.phase with
  | idle | done | error => simp [hph] at hp
  | encHeader => rw [State.stepsLeft_encHeader hph]; omega
  | encPixels => rw [State.stepsLeft_encPixels hph]; omega
  | encTrailer => rw [State.stepsLeft_encTrailer hph]; omega
  | decHeader => rw [State.stepsLeft_decHeader hph]; omega
  | decChunks =>
    obtain ⟨-, -, hn⟩ := h.decChunks hph
    rw [State.stepsLeft_decChunks hph]
    omega

/-- The pass goes on or has ended, with fewer steps left. -/
def NearerEnd (s t : State) : Prop := t.phase ≠ .idle ∧ t.stepsLeft < s.stepsLeft

/-- A step that ends its pass. -/
theorem nearerEnd_of_ended (ht : t.phase = .done ∨ t.phase = .error) (hs : 0 < s.stepsLeft) : NearerEnd s t := by
  refine ⟨fun e => ?_, (State.stepsLeft_ended (.inr ht)).trans_lt hs⟩
  rcases ht with ht | ht <;> cases e.symm.trans ht

/-- R111: the encoder's header step ends its pass, or its N pixels and the trailer are left. -/
theorem encHeader_nearerEnd (h : PassInv s) (hp : s.phase = .encHeader) (hpos : 0 < s.stepsLeft)
    (he : engineStep s = .next t) : NearerEnd s t := by
  obtain ⟨-, ⟨-, -, -, hpix, -⟩, -⟩ := h.encHeader hp
  cases (engineStep_encHeader hp).symm.trans he
  rcases s.encodeHeader_cases s.job.w s.job.h s.job.c s.job.cs with ⟨e, -, e'⟩ | ⟨-, -, -, e'⟩ <;> rw [e']
  · exact nearerEnd_of_ended (.inr rfl) hpos
  · refine ⟨nofun, ?_⟩
    rw [State.stepsLeft_encHeader hp, State.stepsLeft_encPixels rfl, hpix]
    exact Nat.lt_succ_self _

/-- R173: a pixel step ends its pass, or one pixel fewer is left. -/
theorem encPixels_nearerEnd (h : PassInv s) (hp : s.phase = .encPixels) (hpos : 0 < s.stepsLeft)
    (he : engineStep s = .next t) : NearerEnd s t := by
  have hr := pixelReady_of_passInv h hp
  rcases (engineMove_of_next he).pixel_cases hr with ⟨ht, -⟩ | ⟨sb, hem, -⟩
  · exact nearerEnd_of_ended (.inr ht) hpos
  have hn := hr.pixels
  have hph := hem.phase
  obtain ⟨hjob, -⟩ := hem.kept
  rw [NearerEnd, State.stepsLeft_encPixels hp]
  split at hph
  · rw [hph, State.stepsLeft_encTrailer hph]
    exact ⟨nofun, by omega⟩
  · rw [hph, State.stepsLeft_encPixels hph, hjob, hem.pixPos]
    exact ⟨nofun, by omega⟩

/-- R115: the trailer step ends its pass. -/
theorem encTrailer_nearerEnd (hp : s.phase = .encTrailer) (hpos : 0 < s.stepsLeft) (he : engineStep s = .next t) :
    NearerEnd s t := by
  cases (engineStep_encTrailer hp).symm.trans he
  rcases s.encodeEnd_cases with ⟨-, e⟩ | ⟨-, e⟩ <;> rw [e]
  · exact nearerEnd_of_ended (.inr rfl) hpos
  · exact nearerEnd_of_ended (.inl rfl) hpos

/-- R113: the decoder's header step ends its pass, or the pixels that the header names are left. -/
theorem decHeader_nearerEnd (h : PassInv s) (hp : s.phase = .decHeader) (hpos : 0 < s.stepsLeft)
    (he : engineStep s = .next t) : NearerEnd s t := by
  obtain ⟨-, -, -, -, hpix, -⟩ := h.decHeader hp
  rcases fetchHeader_cases s with ⟨-, hf⟩ | ⟨-, -, hf⟩ | ⟨-, -, hf⟩
  · cases (engineStep_decHeader_error hp hf).symm.trans he
    exact nearerEnd_of_ended (.inr rfl) hpos
  · cases (engineStep_decHeader_error hp hf).symm.trans he
    exact nearerEnd_of_ended (.inr rfl) hpos
  cases ((engineStep_decHeader_ok hp hf).trans (exec_decHeader hp _ _ _ _)).symm.trans he
  rcases s.decodeHeader_cases _ _ _ _ with ⟨e, -, e'⟩ | ⟨-, -, e'⟩ | ⟨-, -, e'⟩ <;> rw [e']
  · exact nearerEnd_of_ended (.inr rfl) hpos
  · exact nearerEnd_of_ended (.inr rfl) hpos
  · refine ⟨nofun, ?_⟩
    rw [State.stepsLeft_decHeader hp, State.stepsLeft_decChunks rfl, State.acceptHeader_pixPos, hpix]
    exact Nat.lt_add_of_pos_left Nat.one_pos

/-- R193: a chunk step ends its pass, or at least one pixel fewer is left, since a chunk stands for a pixel. -/
theorem decChunks_nearerEnd (h : PassInv s) (hp : s.phase = .decChunks) (hpos : 0 < s.stepsLeft)
    (he : engineStep s = .next t) : NearerEnd s t := by
  have hr := h.chunkReady hp
  rcases fetchChunk_cases s with ⟨-, hf⟩ | ⟨-, -, hf⟩ | ⟨i, hf, hslot, -⟩
  · cases (engineStep_decChunks_error hp hr.pixels hf).symm.trans he
    exact nearerEnd_of_ended (.inr rfl) hpos
  · cases (engineStep_decChunks_error hp hr.pixels hf).symm.trans he
    exact nearerEnd_of_ended (.inr rfl) hpos
  obtain ⟨u, k, hx, hk, hle, hd⟩ := exec_decChunks_writes_prev hr hslot
  obtain rfl : u = t := Host.Outcome.next.inj (((engineStep_decChunks_ok hp hr.pixels hf).trans hx).symm.trans he)
  rcases Nat.lt_or_eq_of_le hle with hlt | heq
  · obtain ⟨hpu, -⟩ := hd.goesOn hlt
    obtain ⟨-, hjob, -⟩ := hd.kept
    rw [NearerEnd, hpu, State.stepsLeft_decChunks hp, State.stepsLeft_decChunks hpu, hjob, hd.pixPos]
    exact ⟨nofun, by omega⟩
  · obtain ⟨hpu, -⟩ := hd.ends heq
    exact nearerEnd_of_ended (.inl hpu) hpos

/-- R249: every engine step of a pass brings it nearer to its end. -/
theorem engineStep_nearerEnd (h : PassInv s) (hp : ¬(s.phase = .idle ∨ s.phase = .done ∨ s.phase = .error))
    (he : engineStep s = .next t) : NearerEnd s t := by
  have hpos := State.stepsLeft_pos h hp
  cases hph : s.phase with
  | idle | done | error => simp [hph] at hp
  | encHeader => exact encHeader_nearerEnd h hph hpos he
  | encPixels => exact encPixels_nearerEnd h hph hpos he
  | encTrailer => exact encTrailer_nearerEnd hph hpos he
  | decHeader => exact decHeader_nearerEnd h hph hpos he
  | decChunks => exact decChunks_nearerEnd h hph hpos he

/-- R249: a pass with no host move waiting has ended once the steps it has left are taken. -/
theorem run_ends {k : Nat} (h : PassInv s) (hh : s.host = []) (hp : s.phase ≠ .idle) (hk : s.stepsLeft ≤ k) :
    ∃ t, Sys2Proof.core.run k s = .next t ∧ (t.phase = .done ∨ t.phase = .error) := by
  induction k generalizing s with
  | zero =>
    by_contra hne
    exact absurd (State.stepsLeft_pos h fun hend => hne ⟨s, rfl, hend.resolve_left hp⟩) (Nat.not_lt.2 hk)
  | succ k ih =>
    by_cases hend : s.phase = .done ∨ s.phase = .error
    · exact ⟨s, run_of_step_self (step_ended hh hend) (k + 1), hend⟩
    obtain ⟨u, he, hm⟩ := engineStep_cases s
    obtain ⟨-, -, hhost, -⟩ := hm.kept
    obtain ⟨hpu, hless⟩ := engineStep_nearerEnd h (not_or.2 ⟨hp, hend⟩) he
    obtain ⟨t, hr, ht⟩ := ih (h.engineMove hm) (hhost.trans hh) hpu (Nat.le_of_lt_succ (hless.trans_le hk))
    exact ⟨t, (run_succ k ((step_engine hh).trans he)).trans hr, ht⟩

/-- Settles O52: every step of a pass leaves it fewer steps, and `stepsLeft` at its START is the bound. -/
theorem everyPassEnds : Obligations.EveryPassEnds := by
  intro s h hh n
  constructor <;> intro hp
  · obtain ⟨t, hr, ht⟩ := run_ends h hh (by simp [hp]) le_rfl
    exact ⟨_, t, (State.stepsLeft_encHeader hp).le, hr, ht⟩
  · obtain ⟨t, hr, ht⟩ := run_ends h hh (by simp [hp]) le_rfl
    exact ⟨_, t, (State.stepsLeft_decHeader hp).le, hr, ht⟩

/-! ### The engine and the host's side (R228, R246) -/

/-- Settles O38: an engine step fetches nothing from the host's side, and keeps its surroundings. -/
theorem engineStepIgnoresHost : Obligations.EngineStepIgnoresHost := by
  intro s moves d
  obtain ⟨t, ht, hm⟩ := engineStep_outside s { s.surroundings with host := moves, readData := d } (fun _ => rfl)
    (fun _ => rfl) (fun _ => rfl) (fun _ _ => rfl)
  refine ⟨t, ht, hm.trans (congrArg Host.Outcome.next ?_)⟩
  rw [← engineStep_surroundings ht]
  rfl

/-- Settles O37: the move that waits first is `wait`, or there is none. -/
theorem waitIsOneEngineStep : Obligations.WaitIsOneEngineStep := fun _ _ => ⟨step_host, step_engine⟩

/-! ### Reset (R240, R241) -/

/-- R45, R240: after reset every CSR holds 0. -/
theorem State.csrValue_of_reset (h : s.csr = Csrs.reset) (reg : BitVec 4) : s.csrValue reg = 0 := by
  unfold State.csrValue
  rw [h]
  split <;> rfl

/-- R240: with the CSRs of reset, no pass is running. -/
theorem State.busy_of_reset (h : s.csr = Csrs.reset) : s.busy = false := by
  rw [State.busy, h]
  rfl

/-- R240: with the CSRs of reset, STATUS shows neither DONE nor ERR. -/
theorem State.doneIrq_of_reset (h : s.csr = Csrs.reset) : s.doneIrq = false := by
  rw [State.doneIrq, State.isDone, State.isErr, h]
  rfl

/-- R240: with the CSRs of reset, every CSR reads 0. -/
theorem State.readCsr_of_reset (h : s.csr = Csrs.reset) (reg : BitVec 4) : s.readCsr reg = { s with readData := 0 } := by
  rw [State.readCsr_idle (State.busy_of_reset h), State.csrValue_of_reset h]

/-- Settles O5: a read outside a pass returns what the CSR holds, which is 0. -/
theorem resetStateReadsZero : Obligations.ResetStateReadsZero :=
  ⟨rfl, State.doneIrq_of_reset rfl, fun reg _ =>
    (step_host (m := .readCsr reg) (rest := []) rfl).trans (congrArg Host.Outcome.next (State.readCsr_of_reset rfl reg))⟩

/-- R241: a reset outside a pass leaves OUT. -/
theorem State.hostReset_outBuf_idle (hb : s.busy = false) : s.hostReset.outBuf = s.outBuf := by
  simp [State.hostReset, hb]

/-- R241: a reset leaves every byte of OUT from OUT_CAP on. -/
theorem State.hostReset_read_outside {a : Nat} (ha : s.job.outCap.toNat ≤ a) :
    s.hostReset.outBuf.read a = s.outBuf.read a := by
  unfold State.hostReset
  split
  · exact Memory.read_forget_outside ha _ _
  · rfl

/-- Settles O6: the reset state, with OUT by whether a pass was running. -/
theorem resetAbandonsPass : Obligations.ResetAbandonsPass :=
  fun _ _ hh => ⟨_, step_host hh, rfl, rfl, State.doneIrq_of_reset rfl, rfl, rfl, rfl,
    fun hb => State.hostReset_outBuf_idle hb, fun _ ha => State.hostReset_read_outside ha⟩

end Sys2Proof.Machine
